-- ==== Sys2Proof/Word.lean ====
section
/-!
DEFINITION. Sys2Proof/Word.lean: the one word type of the block. Every field of a frame and every element of every array
is a single unsigned byte (spec/20_memory.md R60, spec/00_scope.md R8).
-/

namespace Sys2Proof

/-- A byte: an unsigned integer 0..255 (spec/00_scope.md R8). Addition wraps modulo 256. -/
abbrev Byte := BitVec 8

end Sys2Proof
end

