-- ==== Sys2Proof/Syntax.lean ====
section
/-!
DEFINITION. Sys2Proof/Syntax.lean: the names the block's operations speak of (transports, paths, parsed frames) and `Instr`,
one constructor per row of spec/opcode_table.json. A frame row is an instruction word (spec/30_encoding.md R90, R97); a
`PORT_OP` row is an operation reached through the block's ports (spec/30_encoding.md R103, R105).
-/

namespace Sys2Proof

/-- The three serial transports (spec/00_scope.md R3, spec/10_state.md R20). -/
inductive Transport where
  | rs485
  | rs232_1
  | rs232_2
  deriving DecidableEq, Repr, Inhabited

/-- The path a frame arrives on (spec/43_dispatch.md, introduction): the network port or a serial transport. -/
inductive Path where
  | net
  | serial (t : Transport)
  deriving DecidableEq, Repr, Inhabited

/-- What an RS-485 transmission carries (spec/43_dispatch.md R213): a whole frame or raw bytes. -/
inductive TxKind where
  | frame
  | raw
  deriving DecidableEq, Repr, Inhabited

/-- The value PARSE hands to the router (spec/42_frame_codec.md R189), a copy local to the listener. -/
structure ParsedFrame where
  deviceID : Byte
  dataType : Byte
  channel  : Byte
  length   : Byte
  payload  : List Byte
  deriving DecidableEq, Repr, Inhabited

/-- The operations of the block. The length byte of a frame row is the number of its payload bytes and its checksum is
computed (spec/30_encoding.md R104), so neither is an operand. -/
inductive Instr where
  /-- W.SYS, channels 1..9 (spec/43_dispatch.md R204). -/
  | wSys (id ch : Byte) (payload : List Byte)
  /-- W.GPIO, channels 11..19 (R205). -/
  | wGpio (id ch : Byte) (payload : List Byte)
  /-- W.RELAY, channels 21..29 (R206). -/
  | wRelay (id ch : Byte) (payload : List Byte)
  /-- W.RS232, channels 31..39 (R208). -/
  | wRs232 (id ch : Byte) (payload : List Byte)
  /-- W.IR, channels 41..49 (R210). -/
  | wIr (id ch : Byte) (payload : List Byte)
  /-- W.RS485, channel 50 (R211). -/
  | wRs485 (id : Byte) (payload : List Byte)
  /-- W.IGNORE, every other channel (R212). -/
  | wIgnore (id ch : Byte) (payload : List Byte)
  /-- S.IGNORE: a received frame of dataType 83 (R202). -/
  | sIgnore (id ch : Byte) (payload : List Byte)
  /-- X.IGNORE: a received frame of any dataType other than 87 and 83 (R202). -/
  | xIgnore (id ty ch : Byte) (payload : List Byte)
  /-- S.STATUS: the status frame the block originates for channel `ch` and new value `v` (R214). -/
  | sStatus (ch v : Byte)
  /-- SEND_LINE, phase S_STAGE (spec/40_ring_transport.md R122). -/
  | sendLine (t : Transport) (frame : List Byte) (declaredLength : Nat)
  /-- SEND_RAW, phase S_STAGE (R123). -/
  | sendRaw (t : Transport) (bytes : List Byte) (m : Nat)
  /-- SEND.S_LOOP (R124). -/
  | sendSLoop (t : Transport)
  /-- SEND.S_WAIT: the blocked-sender phases S_WAIT and S_REMASK (R125). -/
  | sendSWait (t : Transport)
  /-- SEND.S_KICK (R126). -/
  | sendSKick (t : Transport)
  /-- SEND.S_EXIT (R127). -/
  | sendSExit (t : Transport)
  /-- IRQ_TX (R128). -/
  | irqTx (t : Transport)
  /-- IRQ_RX when RX_MODE = MAILBOX (R134). -/
  | irqRxMailbox (t : Transport)
  /-- IRQ_RX when RX_MODE = RING (R135). -/
  | irqRxRing (t : Transport)
  /-- READ_LINE: the atomic step of the phase it is at (R136 to R138). -/
  | readLine (t : Transport)
  /-- UART_TX (spec/41_uart.md R164). -/
  | uartTx (t : Transport)
  /-- LINE_IN (R166). -/
  | lineIn (t : Transport) (b : Byte)
  /-- BAUD_LOAD (R161). -/
  | baudLoad (t : Transport)
  /-- CHECKSUM (spec/42_frame_codec.md R180). -/
  | checksum (b : List Byte) (m : Nat)
  /-- ENCODE (R181). -/
  | encode (id ty ch : Byte) (p : List Byte) (l : Nat)
  /-- FSM_STEP when FSM[t] = WAIT_SYNC (R183). -/
  | fsmStepWaitSync (t : Transport) (b : Byte)
  /-- FSM_STEP when FSM[t] = ACCUMULATE (R184). -/
  | fsmStepAccumulate (t : Transport) (b : Byte)
  /-- VALIDATE (R186). -/
  | validate (c : List Byte) (total : Nat)
  /-- NET_VALIDATE (R188). -/
  | netValidate (d : List Byte) (n : Nat)
  /-- PARSE (R189). -/
  | parse (c : List Byte)
  /-- FILTER (spec/43_dispatch.md R201). -/
  | filter (pf : ParsedFrame) (p : Path)
  /-- DISPATCH (R203). -/
  | dispatch (pf : ParsedFrame)
  /-- RS485_TX: the atomic step of the bracket the calling task is at (R213). -/
  | rs485Tx (kind : TxKind) (bytes : List Byte) (m : Nat)
  /-- STATUS_FANOUT (R215). -/
  | statusFanout (ch v : Byte)
  /-- GPIO_EVT (R217). -/
  | gpioEvt (g : Nat) (v : Byte)
  /-- NET_RECV (R219). -/
  | netRecv (d : List Byte) (n : Nat)
  deriving DecidableEq, Repr, Inhabited

end Sys2Proof
end

