-- ==== Sys2Proof/Config.lean ====
section
/-!
DEFINITION. Sys2Proof/Config.lean: what an implementation fixes. The constants the spec fixes (spec/00_scope.md R7), the
implementation parameters of R6 as one plain record `Params` (every parameter is an argument of a claim, because State holds
the record: log 1), the OPEN values without a default as opaque constants, and the free values (logs 2, 6, 8, 15).
-/

namespace Sys2Proof

/-- Start of frame: the character `>` (spec/00_scope.md R7). -/
def sof : Byte := 62#8
/-- dataType write: the character `W` (R7). -/
def tyWrite : Byte := 87#8
/-- dataType status: the character `S`. PRESUMED by the spec itself (R7, G1 of spec/93_implementation_defined.md), log 21. -/
def tyStatus : Byte := 83#8
/-- The largest payload length (R7). -/
def maxPayload : Nat := 249
/-- The length sentinel of the reassembler (R7; spec/42_frame_codec.md R184). -/
def sentinel : Nat := 255
/-- `STAGE_CAP` = 255 (spec/00_scope.md R6). -/
def stageCap : Nat := 255
/-- `RXBUF_CAP` = 255 (R6). -/
def rxBufCap : Nat := 255

/-- `RX_MODE` (spec/00_scope.md R6, spec/40_ring_transport.md R131). -/
inductive RxMode where
  | ring
  | mailbox
  deriving DecidableEq, Repr, Inhabited

/-- `PARITY` (spec/00_scope.md R6). -/
inductive Parity where
  | none
  | even
  | odd
  deriving DecidableEq, Repr, Inhabited

/-- `STOP_BITS` (R6): 1 or 2. -/
inductive StopBits where
  | one
  | two
  deriving DecidableEq, Repr, Inhabited

/-- The implementation parameters of spec/00_scope.md R6. R6 says "> 0" of the rates, the clock and the oversampling and "≥ 0" of the
delays, and "any" of the address and the port: that each is a whole number is the model's choice (DESIGN CHOICE, log 34). -/
structure Params where
  /-- `N`, slots of each TX ring. -/
  n : Nat
  /-- `RX_MODE`. -/
  rxMode : RxMode
  /-- `RXN`, slots of each RX ring. -/
  rxn : Nat
  /-- `TXHW_DEPTH`. -/
  txHwDepth : Nat
  /-- `RXHW_DEPTH`. -/
  rxHwDepth : Nat
  /-- `NUM_RELAYS`. -/
  numRelays : Nat
  /-- `DEVID_FILTER[NET]`. -/
  filterNet : Bool
  /-- `DEVID_FILTER[RS485]`. -/
  filter485 : Bool
  /-- `DEVID_FILTER[RS232_1]`. -/
  filter232_1 : Bool
  /-- `DEVID_FILTER[RS232_2]`. -/
  filter232_2 : Bool
  /-- `DEFAULT_ID`, the compiled-in deviceID (spec/10_state.md R40). -/
  defaultId : Byte
  /-- `DEFAULT_BAUD_485` (R40). -/
  defaultBaud485 : PNat
  /-- `DEFAULT_BAUD_232` (R40). -/
  defaultBaud232 : PNat
  /-- `F_REF`. -/
  fRef : PNat
  /-- `OVERSAMPLE`. -/
  oversample : PNat
  /-- `PARITY`. -/
  parity : Parity
  /-- `STOP_BITS`. -/
  stopBits : StopBits
  /-- `T_GUARD`: read by no rule of the model (R11). -/
  tGuard : Nat
  /-- `T_IDLE`: read by no rule of the model (R11). -/
  tIdle : Nat
  /-- `PEER_ADDR`: where every datagram of `NETOUT` goes (spec/43_dispatch.md R218). -/
  peerAddr : Nat
  /-- `NET_PORT`: the port the socket is bound to (R219). -/
  netPort : Nat
  deriving DecidableEq, Repr

/-- `DEVID_FILTER[p]` (spec/43_dispatch.md R201). -/
def Params.filterOn (c : Params) : Path → Bool
  | .net => c.filterNet
  | .serial .rs485 => c.filter485
  | .serial .rs232_1 => c.filter232_1
  | .serial .rs232_2 => c.filter232_2

/-- The constraints of spec/00_scope.md R6. -/
abbrev Params.wf (c : Params) : Prop :=
  2 ≤ c.n ∧ 2 ≤ c.rxn ∧ 1 ≤ c.txHwDepth ∧ 1 ≤ c.rxHwDepth ∧ c.numRelays ≤ 9

/-- `DEFAULT_ID`: OPEN (R6). -/
opaque Config.defaultId : Byte
/-- `DEFAULT_BAUD_485`: OPEN, positive (R6, R40). -/
opaque Config.defaultBaud485 : PNat
/-- `DEFAULT_BAUD_232`: OPEN, positive. -/
opaque Config.defaultBaud232 : PNat
/-- `F_REF`: OPEN, positive. -/
opaque Config.fRef : PNat
/-- `T_GUARD`: OPEN. -/
opaque Config.tGuard : Nat
/-- `T_IDLE`: OPEN. -/
opaque Config.tIdle : Nat
/-- `PEER_ADDR`: OPEN. -/
opaque Config.peerAddr : Nat
/-- `NET_PORT`: OPEN. -/
opaque Config.netPort : Nat

/-- The defaults of spec/00_scope.md R6; the OPEN ones are the constants above. -/
def Params.default : Params where
  n := 256
  rxMode := .ring
  rxn := 256
  txHwDepth := 1
  rxHwDepth := 1
  numRelays := 9
  filterNet := true
  filter485 := true
  filter232_1 := true
  filter232_2 := true
  defaultId := Config.defaultId
  defaultBaud485 := Config.defaultBaud485
  defaultBaud232 := Config.defaultBaud232
  fRef := Config.fRef
  oversample := ⟨16, by decide⟩
  parity := .none
  stopBits := .one
  tGuard := Config.tGuard
  tIdle := Config.tIdle
  peerAddr := Config.peerAddr
  netPort := Config.netPort

/-- The tasks: the four listeners and `GPIO_SRC` (spec/60_exceptions.md R254; spec/00_scope.md R10). -/
inductive TaskId where
  | listener (p : Path)
  | gpio
  deriving DecidableEq, Repr, Inhabited

/-- One choice of the next agent, with the environment's data where the agent is the environment (spec/00_scope.md R10).
A GPIO event carries `g - 1`, so that no choice is an event the port does not have (spec/43_dispatch.md R217). -/
inductive Choice where
  | lineIn (t : Transport) (b : Byte)
  | uartTx (t : Transport)
  | irqTx (t : Transport)
  | irqRx (t : Transport)
  | task (a : TaskId)
  | netRecv (d : List Byte)
  | gpioEvt (g : Fin 9) (v : Byte)
  deriving DecidableEq, Repr, Inhabited

/-- The free choice of the next agent when the schedule is empty (U15 of spec/93_implementation_defined.md: any value;
DESIGN CHOICE, log 2). -/
opaque Config.freeChoice : Nat → Choice

/-- The free byte a mailbox holds before its first write (U13: any value; log 6). -/
opaque Config.mboxAtReset : Transport → Byte

/-- A byte the spec does not state, by the counter of free values and the byte's place: an operand's byte that is not there, and the
result of CHECKSUM with m < 5 (any value; DESIGN CHOICE, log 15). -/
opaque Config.freeByte : Nat → Nat → Byte

/-- What ENCODE returns for L > 249, where spec/42_frame_codec.md R181 does not define it (any bytes; DESIGN CHOICE, log 15). -/
opaque Config.freeFrame : Nat → List Byte

/-- Whether `round` in BAUD_LOAD goes up on an exact half; the spec does not say (spec/41_uart.md R161; log 8). -/
opaque Config.roundTieUp : Nat → Nat → Bool

end Sys2Proof
end

