-- ==== Sys2Proof/Decode.lean ====
section
/-!
DEFINITION. Sys2Proof/Decode.lean: the frame codec's pure functions (checksum, validation, parsing, channel selection), the
decoder from bytes to an instruction, total and rejecting by name, and after it the encoder, written from the same tables
(spec/30_encoding.md, spec/42_frame_codec.md, spec/43_dispatch.md R202 R203).
-/

namespace Sys2Proof

/-- CHECKSUM(b, m): the sum of the first m bytes modulo 256 (spec/42_frame_codec.md R180; additive, no CRC: conflict C1). -/
def checksum (b : List Byte) (m : Nat) : Byte :=
  BitVec.ofNat 8 (((b.take m).map (fun x => x.toNat)).sum)

/-- Byte j of an operand; one that is not there is a free byte (log 15). `k` is the counter of free values. -/
def byteAt (k : Nat) (b : List Byte) (j : Nat) : Byte := b.getD j (Config.freeByte k j)

/-- An operand of `m` bytes: the first m of the bytes given (log 26), and a free byte for each one that is not there (log 15). -/
def operandBytes (k : Nat) (b : List Byte) (m : Nat) : List Byte :=
  b.take m ++ (List.range' b.length (m - b.length)).map (Config.freeByte k)

/-- VALIDATE on a candidate (spec/42_frame_codec.md R186): accept or reject. A byte the candidate lacks, as no candidate of READ_LINE
does, is free (log 15). -/
def validateCandidate (k : Nat) (cand : List Byte) : Bool :=
  let l := (byteAt k cand 4).toNat
  decide (l ≤ maxPayload) && byteAt k cand (5 + l) == checksum (operandBytes k cand (5 + l)) (5 + l)

/-- How many leading bytes of a candidate VALIDATE reads: up to the length byte, or up to the checksum. -/
def validateReads (k : Nat) (cand : List Byte) : Nat :=
  let l := (byteAt k cand 4).toNat
  if l ≤ maxPayload then l + 6 else 5

/-- NET_VALIDATE on a datagram (spec/42_frame_codec.md R188). -/
def netValidate (d : List Byte) : Bool :=
  match d with
  | b0 :: _ :: _ :: _ :: l :: _ :: _ =>
    b0 == sof && decide (l.toNat ≤ maxPayload) && decide (l.toNat + 6 ≤ d.length) &&
      d[5 + l.toNat]? == some (checksum d (5 + l.toNat))
  | _ => false

/-- PARSE (spec/42_frame_codec.md R189). A byte the candidate lacks is free (log 15). R189 gives PARSE for an accepted candidate
only; that one which was not accepted is parsed too is the model's choice (DESIGN CHOICE, log 27). -/
def parseFrame (k : Nat) (c : List Byte) : ParsedFrame where
  deviceID := byteAt k c 1
  dataType := byteAt k c 2
  channel := byteAt k c 3
  length := byteAt k c 4
  payload := (operandBytes k c (5 + (byteAt k c 4).toNat)).drop 5

/-- How many leading bytes of a candidate PARSE reads. -/
def parseReads (k : Nat) (c : List Byte) : Nat := 5 + (byteAt k c 4).toNat

/-- DISPATCH: the channel selects one command (spec/43_dispatch.md R203, the ranges of spec/30_encoding.md R97). Of a parsed frame that
no PARSE returns (a payload of more than 249 bytes, or of another size than its length byte) the payload is passed on as it is (DESIGN
CHOICE, log 32). -/
def route (pf : ParsedFrame) : Instr :=
  let c := pf.channel.toNat
  if 1 ≤ c ∧ c ≤ 9 then .wSys pf.deviceID pf.channel pf.payload
  else if 11 ≤ c ∧ c ≤ 19 then .wGpio pf.deviceID pf.channel pf.payload
  else if 21 ≤ c ∧ c ≤ 29 then .wRelay pf.deviceID pf.channel pf.payload
  else if 31 ≤ c ∧ c ≤ 39 then .wRs232 pf.deviceID pf.channel pf.payload
  else if 41 ≤ c ∧ c ≤ 49 then .wIr pf.deviceID pf.channel pf.payload
  else if c = 50 then .wRs485 pf.deviceID pf.payload
  else .wIgnore pf.deviceID pf.channel pf.payload

/-- The dataType test and the channel select together: which row of the table a parsed frame is
(spec/43_dispatch.md R202, R203; spec/30_encoding.md R103). -/
def instrOf (pf : ParsedFrame) : Instr :=
  if pf.dataType = tyWrite then route pf
  else if pf.dataType = tyStatus then .sIgnore pf.deviceID pf.channel pf.payload
  else .xIgnore pf.deviceID pf.dataType pf.channel pf.payload

/-- Why bytes are no frame (spec/30_encoding.md R101, R102). -/
inductive DecodeError where
  /-- Fewer than five bytes: the length byte is not there (R188, short datagram). -/
  | tooShort
  /-- Byte 0 is not 62 (R92). -/
  | badSof
  /-- The length byte is 250..255 (R96, R101 item (c)). -/
  | overLong
  /-- The frame's last byte is not there (R188, short datagram). -/
  | truncated
  /-- The checksum byte differs from the recomputed sum (R101 item (b)). -/
  | badChecksum
  deriving DecidableEq, Repr

/-- The decoder, in the order of spec/30_encoding.md R102 steps (1) to (3), (5) and (6): bytes to an instruction and the
bytes after the frame. -/
def decode (bytes : List Byte) : Except DecodeError (Instr × List Byte) :=
  match bytes with
  | b0 :: id :: ty :: ch :: l :: rest =>
    if b0 ≠ sof then .error .badSof
    else if l.toNat > maxPayload then .error .overLong
    else
      match rest[l.toNat]? with
      | none => .error .truncated
      | some k =>
        if k = checksum bytes (5 + l.toNat) then
          .ok (instrOf { deviceID := id, dataType := ty, channel := ch, length := l, payload := rest.take l.toNat },
            rest.drop (l.toNat + 1))
        else .error .badChecksum
  | _ => .error .tooShort

/-- ENCODE(id, type, ch, p, L) with L the number of payload bytes (spec/42_frame_codec.md R181). For more than 249 of them, of which
the spec has no frame, the length byte is their number modulo 256 (DESIGN CHOICE, log 32); `execEncode` does not use it there. -/
def frameBytes (id ty ch : Byte) (p : List Byte) : List Byte :=
  let body := sof :: id :: ty :: ch :: BitVec.ofNat 8 p.length :: p
  body ++ [checksum body (5 + p.length)]

/-- STATUS(ch, v) = ENCODE(LOCAL_ID, 83, ch, [v], 1) (spec/43_dispatch.md R214). -/
def statusFrame (localId ch v : Byte) : List Byte := frameBytes localId tyStatus ch [v]

/-- The encoder: the bytes of a frame row; none for a port operation, which has no bit pattern (spec/30_encoding.md R103).
`localId` is the deviceID an emitted status frame carries (R98). A term whose payload no frame has is encoded all the same, its length
byte modulo 256 (DESIGN CHOICE, log 32), and so is a received row with a channel outside its list, or X.IGNORE with dataType 87 or 83:
its fields as they stand, so that the bytes are those of the row whose channel and dataType they are (DESIGN CHOICE, log 29). -/
def encode (localId : Byte) : Instr → Option (List Byte)
  | .wSys id ch p => some (frameBytes id tyWrite ch p)
  | .wGpio id ch p => some (frameBytes id tyWrite ch p)
  | .wRelay id ch p => some (frameBytes id tyWrite ch p)
  | .wRs232 id ch p => some (frameBytes id tyWrite ch p)
  | .wIr id ch p => some (frameBytes id tyWrite ch p)
  | .wRs485 id p => some (frameBytes id tyWrite 50#8 p)
  | .wIgnore id ch p => some (frameBytes id tyWrite ch p)
  | .sIgnore id ch p => some (frameBytes id tyStatus ch p)
  | .xIgnore id ty ch p => some (frameBytes id ty ch p)
  | .sStatus ch v => some (statusFrame localId ch v)
  | .sendLine _ _ _ => none
  | .sendRaw _ _ _ => none
  | .sendSLoop _ => none
  | .sendSWait _ => none
  | .sendSKick _ => none
  | .sendSExit _ => none
  | .irqTx _ => none
  | .irqRxMailbox _ => none
  | .irqRxRing _ => none
  | .readLine _ => none
  | .uartTx _ => none
  | .lineIn _ _ => none
  | .baudLoad _ => none
  | .checksum _ _ => none
  | .encode _ _ _ _ _ => none
  | .fsmStepWaitSync _ _ => none
  | .fsmStepAccumulate _ _ => none
  | .validate _ _ => none
  | .netValidate _ _ => none
  | .parse _ => none
  | .filter _ _ => none
  | .dispatch _ => none
  | .rs485Tx _ _ _ => none
  | .statusFanout _ _ => none
  | .gpioEvt _ _ => none
  | .netRecv _ _ => none

/-- The four header bytes of a table word: byte 0 in bits 31:24, deviceID in 23:16, dataType in 15:8, channel in 7:0
(spec/30_encoding.md R103). -/
def headerBytes (w : Nat) : List Byte :=
  [BitVec.ofNat 8 (w / 16777216), BitVec.ofNat 8 (w / 65536), BitVec.ofNat 8 (w / 256), BitVec.ofNat 8 w]

/-- The frame a table word stands for: its header, the length byte 0 above the table's bits, no payload, and the checksum
byte as the table's own checksum field gives it, the sum of bytes 0..4 (log 4). -/
def wordFrame (w : Nat) : List Byte :=
  let body := headerBytes w ++ [0#8]
  body ++ [checksum body 5]

/-- The bytes a table word of `nbits` bits stands for: its frame, and none for a word that is not a header of 32 bits
(DESIGN CHOICE, log 4). -/
def wordBytes (nbits w : Nat) : List Byte := if nbits = 32 ∧ w < 4294967296 then wordFrame w else []

/-- The instruction the decoder reads from a table word of `nbits` bits (log 4); a word that stands for no bytes is refused. -/
def decodeTableWord (nbits w : Nat) : Option Instr :=
  match decode (wordBytes nbits w) with
  | .ok (i, _) => some i
  | .error _ => none

/-- The rounding of `a / b` to the nearest integer (spec/41_uart.md R161); an exact half goes the way of the free value
`Config.roundTieUp` (log 8). -/
def roundDiv (a b : Nat) : Nat :=
  if 2 * (a % b) < b then a / b
  else if 2 * (a % b) = b then (if Config.roundTieUp a b then a / b + 1 else a / b)
  else a / b + 1

/-- The divisor of the baud-rate generator: round(F_REF / (OVERSAMPLE * baud)), at least 1 (R161). -/
def baudDivisor (c : Params) (baud : PNat) : Nat := max 1 (roundDiv c.fRef (c.oversample * baud))

end Sys2Proof
end

