-- ==== Sys2Proof/Machine/State.lean ====
section
/-!
DEFINITION. Sys2Proof/Machine/State.lean: the state of the block as plain data (spec/10_state.md), the reasons a step can
stop (spec/60_exceptions.md R243) and the state after reset (spec/10_state.md R46, spec/70_reset_and_hazards.md R270).
-/

namespace Sys2Proof.Machine

/-- A byte array of the block (spec/10_state.md R42): cells with strictly rising indices. An index that is not listed holds
no value (`Memory.unlisted` in Ops.lean; R46 "unspecified", log 5). -/
abbrev Memory := List Host.Cell

/-- A ring (spec/10_state.md R21, R22, R25): its slots, the next slot to write and the next slot to read (D1). -/
structure Ring where
  slots  : Memory
  inIdx  : Nat
  outIdx : Nat
  deriving DecidableEq, Repr

/-- The reassembler's state (spec/10_state.md R28). -/
inductive Fsm where
  | waitSync
  | accumulate
  | done
  deriving DecidableEq, Repr

/-- The phases of a send between S_STAGE and its return (spec/40_ring_transport.md R121). Phase `done` is the absence of
the record (log 12). -/
inductive SendPhase where
  | sLoop
  | sWait
  | sRemask
  | sKick
  | sExit
  deriving DecidableEq, Repr

/-- `SEND[t] = (n, i, was_empty, phase)` (spec/10_state.md R30). -/
structure SendRec where
  n        : Nat
  i        : Nat
  wasEmpty : Bool
  phase    : SendPhase
  deriving DecidableEq, Repr

/-- The phases of READ_LINE (spec/40_ring_transport.md R137). -/
inductive ReadPhase where
  | enter
  | unmask
  | wait
  | remask
  | take
  | exit
  deriving DecidableEq, Repr

/-- The direction of the RS-485 transceiver (spec/10_state.md R36). -/
inductive Dir where
  | read
  | write
  deriving DecidableEq, Repr

/-- The value of `TXLOCK[t]` (spec/10_state.md R38). -/
inductive Lock where
  | free
  | held (a : TaskId)
  deriving DecidableEq, Repr

/-- The steps of RS485_TX (spec/43_dispatch.md R213): the step a bracket is about to take. -/
inductive BusPhase where
  | lock
  | deOn
  | pre
  | send
  | post
  | deOff
  | unlock
  deriving DecidableEq, Repr

/-- What is left of W.RS232 once its lock is taken (spec/43_dispatch.md R208). -/
inductive FwdPhase where
  | send
  | free
  deriving DecidableEq, Repr

/-- What a task in L_ACT (N_ACT, or GPIO_SRC inside its fan-out) is about to do. -/
inductive Act where
  /-- The selected command of a parsed frame, not yet begun (spec/43_dispatch.md R222; log 10). -/
  | cmd (pf : ParsedFrame)
  /-- STATUS_FANOUT(ch, v), about to take F_NET (R215). -/
  | fNet (ch v : Byte)
  /-- W.RS232 with TXLOCK[u] held (R208). -/
  | fwd (u : Transport) (ph : FwdPhase) (bytes : List Byte)
  /-- RS485_TX(kind, bytes, m) about to take step `ph` (R213). -/
  | bus (ph : BusPhase) (kind : TxKind) (bytes : List Byte) (m : Nat)
  deriving DecidableEq, Repr

/-- The program point of a task with its local values (spec/10_state.md R30; spec/43_dispatch.md R222, R223). -/
inductive Ctl where
  /-- L_READ, at a phase of READ_LINE. -/
  | read (ph : ReadPhase)
  /-- N_RECV; for GPIO_SRC, waiting for an event. -/
  | recv
  /-- L_DECIDE or N_DECIDE with the candidate and its size. -/
  | candidate (c : List Byte) (total : Nat)
  /-- L_ACT or N_ACT. -/
  | act (a : Act)
  /-- L_IDLE or N_IDLE. -/
  | idle
  deriving DecidableEq, Repr

/-- The state of one serial transport (spec/10_state.md R20). -/
structure Port where
  /-- `TXRING[t]` (R21, R22). -/
  txRing : Ring
  /-- `RXRING[t]` (R25). -/
  rxRing : Ring
  /-- `STAGE[t]` (R23). -/
  stage : Memory
  /-- `RXBUF[t]` (R26). -/
  rxBuf : Memory
  /-- `MBOX[t]` (R24). -/
  mbox : Byte
  /-- `TXHW[t]`, oldest byte first (R27). -/
  txHw : List Byte
  /-- `RXHW[t]`, oldest byte first (R27). -/
  rxHw : List Byte
  /-- `FSM[t]` (R28). -/
  fsm : Fsm
  /-- `POS[t]` (R28). -/
  pos : Nat
  /-- `TOTAL[t]` (R28). -/
  total : Nat
  /-- `SEND[t]`, or no send in progress (R30). -/
  send : Option SendRec
  /-- `THRE_PEND[t]` (R31). -/
  threPend : Bool
  /-- `MASK_TX[t]` (R32). -/
  maskTx : Bool
  /-- `MASK_RX[t]` (R32). -/
  maskRx : Bool
  /-- `HW_OVERRUN[t]` (R33). -/
  hwOverrun : Bool
  /-- `RX_OVERRUN[t]` (R33). -/
  rxOverrun : Bool
  /-- `ROOM[t]` (R37). -/
  room : Nat
  /-- `READY[t]` (R37). -/
  ready : Nat
  /-- `TXLOCK[t]` (R38). -/
  txLock : Lock
  /-- `BAUD_DIV[t]` (R35). -/
  baudDiv : Nat
  /-- `TXLINE[t]`, oldest entry first (R45). -/
  txLine : List (Byte × Dir)
  deriving DecidableEq, Repr

/-- The configuration input `cfg` (spec/10_state.md R40, R44): each item present, or missing because the loader failed. That a rate is a
whole number is the model's choice (DESIGN CHOICE, log 34). -/
structure CfgInput where
  deviceID : Option Byte
  baud485  : Option PNat
  baud232  : Option PNat
  deriving DecidableEq, Repr

/-- Start-up progress (spec/70_reset_and_hazards.md R271; log 9): the step of the start sequence to be taken next. -/
inductive Boot where
  /-- Step (2): read the configuration input. -/
  | readCfg
  /-- Step (3): BAUD_LOAD of this transport. -/
  | baudLoad (t : Transport)
  /-- Step (4): start the listener tasks. -/
  | startTasks
  /-- Started. -/
  | running
  deriving DecidableEq, Repr

/-- What a value-returning port operation last returned to its caller; the MODEL's own field (log 14). -/
inductive Ret where
  | nothing
  | byte (b : Byte)
  | frame (f : List Byte)
  | verdict (accepted : Bool)
  | parsed (pf : ParsedFrame)
  | passed (pass : Bool)
  | selected (i : Instr)
  deriving DecidableEq, Repr

/-- The model-level faults: uses of the block outside what the spec defines. All are safe: the model stops where the spec
gives the block no behaviour. -/
inductive Fault where
  /-- A task-side access to ring indices, slots or mailbox without the mask claim (S_LOOP, S_KICK, R_TAKE), a write to a
  full hardware transmit register, or a dequeue from an empty ring (spec/60_exceptions.md R243). Safe. -/
  | contractViolation
  /-- SEND_LINE with declared_length ≠ frame[4] + 6 or frame[4] > 249, SEND_RAW with m > 249 (R243; log 22). Safe. -/
  | sendLengthMismatch
  /-- BAUD_LOAD after start (R243; spec/20_memory.md R77). Safe. -/
  | configAfterStart
  /-- A read of an array byte nothing has written (spec/10_state.md R46; log 5). Raised by the accesses of S_LOOP, S_KICK,
  IRQ_TX, R_TAKE and R_EXIT. Safe. -/
  | unwrittenRead
  /-- An index outside its array (spec/10_state.md R42). Raised by the same accesses and by the writes. Safe. -/
  | noSuchIndex
  deriving DecidableEq, Repr

/-- Reasons an operation has no meaning. All are safe: the model does nothing where the spec gives no effect. -/
inductive Refusal where
  /-- An instruction that has no meaning yet (exec's arms only). Safe. -/
  | notModelled (mnemonic : String)
  /-- GPIO_EVT with g outside 1..9: "not an event of this port" (spec/43_dispatch.md R217; log 31). Safe. -/
  | noSuchGpioEvent
  deriving DecidableEq, Repr

/-- The state of the block (spec/10_state.md). -/
structure State where
  /-- The parameters of spec/00_scope.md R6, constant (log 1). -/
  params : Params
  /-- Start-up progress (spec/70_reset_and_hazards.md R271). -/
  boot : Boot
  /-- The configuration input (R40). -/
  cfgIn : CfgInput
  /-- The state of RS485. -/
  port485 : Port
  /-- The state of RS232_1. -/
  port232_1 : Port
  /-- The state of RS232_2. -/
  port232_2 : Port
  /-- `LOCAL_ID` (R39). -/
  localId : Byte
  /-- `BAUD_485` (R40). -/
  baud485 : PNat
  /-- `BAUD_232` (R40). -/
  baud232 : PNat
  /-- `DE` (R36). -/
  de : Dir
  /-- `RELAY[1..9]`, RELAY[k] at place k - 1 (R41; log 17). -/
  relays : Vector Byte 9
  /-- Program point of `LISTENER(RS485)` (R30). -/
  ctl485 : Ctl
  /-- Program point of `LISTENER(RS232_1)`. -/
  ctl232_1 : Ctl
  /-- Program point of `LISTENER(RS232_2)`. -/
  ctl232_2 : Ctl
  /-- Program point of `LISTENER(NET)`. -/
  ctlNet : Ctl
  /-- Program point of `GPIO_SRC`. -/
  ctlGpio : Ctl
  /-- `NETOUT`, oldest datagram first (R45). -/
  netOut : List (List Byte)
  /-- `IRLOG`, oldest event first (R45). -/
  irLog : List (Nat × Byte)
  /-- `DELOG`, oldest value first (R45). -/
  deLog : List Dir
  /-- The task whose step it is; the MODEL's own field (log 14). -/
  cur : TaskId
  /-- What a value-returning operation last returned; the MODEL's own field (log 14). -/
  ret : Ret
  /-- The agent choices still to come; the MODEL's own field (log 2). -/
  sched : List Choice
  /-- How many free values have been taken, choices and bytes; the MODEL's own field (logs 2 and 15). -/
  tick : Nat
  deriving DecidableEq, Repr

/-- A ring at reset: empty, both indices 0, slots unspecified (R46). -/
def Ring.reset : Ring where
  slots := []
  inIdx := 0
  outIdx := 0

/-- One transport at reset (R46). `MBOX` is a free value (log 6); `BAUD_DIV` is the divisor of the compiled-in default rate
(log 7). -/
def Port.reset (c : Params) (t : Transport) (baud : PNat) : Port where
  txRing := Ring.reset
  rxRing := Ring.reset
  stage := []
  rxBuf := []
  mbox := Config.mboxAtReset t
  txHw := []
  rxHw := []
  fsm := .waitSync
  pos := 0
  total := sentinel
  send := none
  threPend := false
  maskTx := false
  maskRx := false
  hwOverrun := false
  rxOverrun := false
  room := 0
  ready := 0
  txLock := .free
  baudDiv := baudDivisor c baud
  txLine := []

/-- The reset state of a block with parameters `c` (spec/10_state.md R46): step (1) of the start sequence done. -/
def State.resetWith (c : Params) : State where
  params := c
  boot := .readCfg
  cfgIn := { deviceID := none, baud485 := none, baud232 := none }
  port485 := Port.reset c .rs485 c.defaultBaud485
  port232_1 := Port.reset c .rs232_1 c.defaultBaud232
  port232_2 := Port.reset c .rs232_2 c.defaultBaud232
  localId := c.defaultId
  baud485 := c.defaultBaud485
  baud232 := c.defaultBaud232
  de := .read
  relays := Vector.replicate 9 0#8
  ctl485 := .read .enter
  ctl232_1 := .read .enter
  ctl232_2 := .read .enter
  ctlNet := .recv
  ctlGpio := .recv
  netOut := []
  irLog := []
  deLog := []
  cur := .listener .net
  ret := .nothing
  sched := []
  tick := 0

/-- The machine right after reset, with the default parameters of spec/00_scope.md R6. -/
def State.reset : State := State.resetWith Params.default

end Sys2Proof.Machine
end

