-- ==== Sys2Proof/Machine/Ops.lean ====
section
/-!
DEFINITION. Sys2Proof/Machine/Ops.lean: the named operations over the byte arrays, the rings, the semaphores and locks, the
access to the state of a transport and of a task, and the one shared operation by which an interrupt handler is taken
(spec/20_memory.md R62 to R80, spec/60_exceptions.md R245 R249).
-/

namespace Sys2Proof.Machine

/-- What every meaning answers. -/
abbrev Out := Host.Outcome State Fault Refusal

/-- What an index that no cell lists reads as: no value (spec/10_state.md R46 "unspecified"; log 5). -/
def Memory.unlisted (_ : Nat) : Option Byte := none

/-- One byte of an array, or no value (spec/20_memory.md R63). -/
def Memory.lookup : Memory → Nat → Option Byte
  | [], a => Memory.unlisted a
  | (k, v) :: rest, a => if k = a then some v else Memory.lookup rest a

/-- Put one byte, keeping the indices strictly rising. -/
def Memory.insert : Memory → Nat → Byte → Memory
  | [], a, b => [(a, b)]
  | (k, v) :: rest, a, b =>
    if a < k then (a, b) :: (k, v) :: rest
    else if a = k then (a, b) :: rest
    else (k, v) :: Memory.insert rest a b

/-- The canonical form: indices strictly rising, no cell equal to what an unlisted index reads as. -/
def Memory.wf : Memory → Bool
  | [] => true
  | [(k, v)] => !(some v == Memory.unlisted k)
  | (k, v) :: (k', v') :: rest => !(some v == Memory.unlisted k) && decide (k < k') && Memory.wf ((k', v') :: rest)

/-- Read one byte of an array of `size` bytes. -/
def Memory.read (size : Nat) (m : Memory) (a : Nat) : Except Fault Byte :=
  if a < size then
    match m.lookup a with
    | some b => .ok b
    | none => .error .unwrittenRead
  else .error .noSuchIndex

/-- Write one byte of an array of `size` bytes. -/
def Memory.write (size : Nat) (m : Memory) (a : Nat) (b : Byte) : Except Fault Memory :=
  if a < size then .ok (m.insert a b) else .error .noSuchIndex

/-- Write a run of bytes from index `a` on, in order, one byte at a time (spec/20_memory.md R63). -/
def Memory.writeRun (size : Nat) (m : Memory) (a : Nat) : List Byte → Except Fault Memory
  | [] => .ok m
  | b :: bs =>
    match m.write size a b with
    | .error f => .error f
    | .ok m' => Memory.writeRun size m' (a + 1) bs

/-- Read `k` bytes from index `a` on, in order. -/
def Memory.readRun (size : Nat) (m : Memory) (a : Nat) : Nat → Except Fault (List Byte)
  | 0 => .ok []
  | k + 1 =>
    match m.read size a with
    | .error f => .error f
    | .ok b =>
      match Memory.readRun size m (a + 1) k with
      | .error f => .error f
      | .ok bs => .ok (b :: bs)

/-- `empty(R)` (spec/10_state.md R34). -/
def Ring.isEmpty (r : Ring) : Bool := r.inIdx == r.outIdx

/-- `full(R)` for a ring of `m` slots (R34). -/
def Ring.isFull (m : Nat) (r : Ring) : Bool := (r.inIdx + 1) % m == r.outIdx

/-- `count(R)` for a ring of `m` slots: (in − out) mod m (R34). -/
def Ring.count (m : Nat) (r : Ring) : Nat := (r.inIdx + m - r.outIdx) % m

/-- `ENQ(R, b)`: write the slot at `in`, advance `in` (spec/20_memory.md R78). The precondition `not full` is the caller's
(log 23). -/
def Ring.enq (m : Nat) (r : Ring) (b : Byte) : Except Fault Ring :=
  match r.slots.write m r.inIdx b with
  | .error f => .error f
  | .ok s => .ok { r with slots := s, inIdx := (r.inIdx + 1) % m }

/-- `DEQ(R)`: read the slot at `out`, advance `out` (R79). From an empty ring it is the fault of
spec/60_exceptions.md R243. -/
def Ring.deq (m : Nat) (r : Ring) : Except Fault (Byte × Ring) :=
  if r.isEmpty then .error .contractViolation
  else
    match r.slots.read m r.outIdx with
    | .error f => .error f
    | .ok b => .ok (b, { r with outIdx := (r.outIdx + 1) % m })

/-- The state of one transport (spec/10_state.md R20). -/
def State.port (s : State) : Transport → Port
  | .rs485 => s.port485
  | .rs232_1 => s.port232_1
  | .rs232_2 => s.port232_2

/-- Replace the state of one transport. -/
def State.setPort (s : State) : Transport → Port → State
  | .rs485, p => { s with port485 := p }
  | .rs232_1, p => { s with port232_1 := p }
  | .rs232_2, p => { s with port232_2 := p }

/-- The program point of a task (R30). -/
def State.ctl (s : State) : TaskId → Ctl
  | .listener .net => s.ctlNet
  | .listener (.serial .rs485) => s.ctl485
  | .listener (.serial .rs232_1) => s.ctl232_1
  | .listener (.serial .rs232_2) => s.ctl232_2
  | .gpio => s.ctlGpio

/-- Move a task to a program point. -/
def State.setCtl (s : State) : TaskId → Ctl → State
  | .listener .net, c => { s with ctlNet := c }
  | .listener (.serial .rs485), c => { s with ctl485 := c }
  | .listener (.serial .rs232_1), c => { s with ctl232_1 := c }
  | .listener (.serial .rs232_2), c => { s with ctl232_2 := c }
  | .gpio, c => { s with ctlGpio := c }

/-- Store the value an operation returns to its caller (log 14). -/
def State.setRet (s : State) (r : Ret) : State := { s with ret := r }

/-- The first label of a task: L_READ, N_RECV, or waiting for an event (spec/43_dispatch.md R222, R223). -/
def firstLabel : TaskId → Ctl
  | .listener .net => .recv
  | .listener (.serial _) => .read .enter
  | .gpio => .recv

/-- Where a task goes when its command is done: L_IDLE, N_IDLE; GPIO_SRC waits for the next event (R222, R223, R217). -/
def doneLabel : TaskId → Ctl
  | .listener _ => .idle
  | .gpio => .recv

/-- Advance the counter of free values where an operation has used one (log 15), so that the next use is of another value. -/
def State.draw (s : State) (used : Bool) : State := { s with tick := s.tick + used.toNat }

/-- Lift an operation on one transport's state. -/
def State.onPort (s : State) (t : Transport) (r : Except Fault Port) : Out :=
  match r with
  | .error f => .fault f
  | .ok p => .next (s.setPort t p)

/-- The agent has no step: nothing changes (spec/20_memory.md R72; log 3). -/
def noStep (s : State) : Out := .next s

/-- `release(ROOM[t])` (spec/20_memory.md R73). -/
def Port.releaseRoom (p : Port) : Port := { p with room := p.room + 1 }

/-- `release(READY[t])` (R73). -/
def Port.releaseReady (p : Port) : Port := { p with ready := p.ready + 1 }

/-- `wait(ROOM[t])` (R72): `none` while the count is 0. -/
def Port.waitRoom (p : Port) : Option Port := if p.room = 0 then none else some { p with room := p.room - 1 }

/-- `wait(READY[t])` (R72): `none` while the count is 0. -/
def Port.waitReady (p : Port) : Option Port := if p.ready = 0 then none else some { p with ready := p.ready - 1 }

/-- `acquire(TXLOCK[t])` by task `a` (R75): `none` while the lock is not free. -/
def Port.acquire (p : Port) (a : TaskId) : Option Port :=
  match p.txLock with
  | .free => some { p with txLock := .held a }
  | .held _ => none

/-- `free(TXLOCK[t])` (R75). -/
def Port.freeLock (p : Port) : Port := { p with txLock := .free }

/-- `RELAY[k]`, k in 1..9 (spec/10_state.md R41). -/
def State.relay (s : State) (k : Nat) : Byte := s.relays.getD (k - 1) 0#8

/-- Write `RELAY[k]`. -/
def State.setRelay (s : State) (k : Nat) (v : Byte) : State := { s with relays := s.relays.setIfInBounds (k - 1) v }

/-- Write `DE` and record it in `DELOG` (spec/43_dispatch.md R213). -/
def State.setDe (s : State) (d : Dir) : State := { s with de := d, deLog := s.deLog ++ [d] }

/-- Append one datagram to `NETOUT` (R218). -/
def State.netSend (s : State) (f : List Byte) : State := { s with netOut := s.netOut ++ [f] }

/-- Append one `ir_trig` event (R210). -/
def State.irTrigger (s : State) (k : Nat) (v : Byte) : State := { s with irLog := s.irLog ++ [(k, v)] }

/-- Taking an interrupt, the block's only exception: when its cause is pending and its source unmasked the handler body runs
as one atomic step. Entry saves nothing, changes no mask and no mode bit, and the return restores nothing
(spec/60_exceptions.md R245, R249). Otherwise the handler has no step. -/
def takeInterrupt (enabled : Bool) (s : State) (t : Transport) (body : Port → Except Fault Port) : Out :=
  if enabled then s.onPort t (body (s.port t)) else noStep s

end Sys2Proof.Machine
end

