-- ==== Sys2Proof/Machine/Flags.lean ====
section
/-!
DEFINITION. Sys2Proof/Machine/Flags.lean: the flags and status bits of a transport and the predicates over them
(spec/10_state.md R31 to R34, spec/60_exceptions.md R244 to R247).
-/

namespace Sys2Proof.Machine

/-- Source t is masked iff either claim is set (spec/10_state.md R32). -/
def Port.masked (p : Port) : Bool := p.maskTx || p.maskRx

/-- `tx_can_accept(t)` (R34). -/
def Port.txCanAccept (c : Params) (p : Port) : Bool := decide (p.txHw.length < c.txHwDepth)

/-- `rx_avail(t)`: the level cause RX (R34). -/
def Port.rxAvail (p : Port) : Bool := decide (0 < p.rxHw.length)

/-- The interrupt source of t is asserted (spec/60_exceptions.md R244). -/
def Port.asserted (p : Port) : Bool := p.threPend || p.rxAvail

/-- `IRQ_TX(t)` is enabled (R246). -/
def Port.irqTxEnabled (p : Port) : Bool := p.threPend && !p.masked

/-- `IRQ_RX(t)` is enabled (R246). -/
def Port.irqRxEnabled (p : Port) : Bool := p.rxAvail && !p.masked

/-- Some handler of t is enabled. -/
def Port.handlerEnabled (p : Port) : Bool := p.irqTxEnabled || p.irqRxEnabled

/-- Some handler of the block is enabled: the listener tasks then have no step (R240). -/
def State.handlerEnabled (s : State) : Bool :=
  (s.port .rs485).handlerEnabled || (s.port .rs232_1).handlerEnabled || (s.port .rs232_2).handlerEnabled

/-- Take the sender's claim on the mask (spec/20_memory.md R74). -/
def Port.claimTx (p : Port) : Port := { p with maskTx := true }

/-- Drop the sender's claim. -/
def Port.dropTx (p : Port) : Port := { p with maskTx := false }

/-- Take the reader's claim on the mask. -/
def Port.claimRx (p : Port) : Port := { p with maskRx := true }

/-- Drop the reader's claim. -/
def Port.dropRx (p : Port) : Port := { p with maskRx := false }

/-- `relay_out[k]` is driven active iff RELAY[k] ≠ 0 (spec/10_state.md R41). -/
def State.relayOut (s : State) (k : Nat) : Bool := !(s.relay k == 0#8)

/-- `de_out` (R44). -/
def State.deOut (s : State) : Dir := s.de

end Sys2Proof.Machine
end

