-- ==== Sys2Proof/Machine/Operands.lean ====
section
/-!
DEFINITION. Sys2Proof/Machine/Operands.lean: the operand forms of the frame commands (spec/30_encoding.md R97, R99): the index
k = channel − offset, the operand payload[0], the RS-232 port a k names, the channel of a status frame; and the operand
check of the sends (spec/40_ring_transport.md R122, R123).
-/

namespace Sys2Proof.Machine

/-- The offset of the GPIO row. -/
def gpioOffset : Nat := 10
/-- The offset of the relay row. -/
def relayOffset : Nat := 20
/-- The offset of the RS-232 row. -/
def rs232Offset : Nat := 30
/-- The offset of the IR row. -/
def irOffset : Nat := 40

/-- k = channel − offset (R99 item (c); spec/42_frame_codec.md R191), computed there only inside the row's range,
where every decoded frame lies. Outside it the difference is taken in the naturals, 0 where the channel is below the offset:
the model's choice (DESIGN CHOICE, log 29). -/
def channelIndex (offset : Nat) (ch : Byte) : Nat := ch.toNat - offset

/-- `payload[0]`, which exists only if L ≥ 1 (R99 item (d)). -/
def operandByte (payload : List Byte) : Option Byte := payload.head?

/-- The RS-232 port that k names: 1 or 2; k = 3..9 name no port (spec/43_dispatch.md R208). -/
def rs232Port (k : Nat) : Option Transport :=
  if k = 1 then some .rs232_1 else if k = 2 then some .rs232_2 else none

/-- The channel of a status frame: offset + k (R99 item (e)). -/
def statusChannel (offset k : Nat) : Byte := BitVec.ofNat 8 (offset + k)

end Sys2Proof.Machine
end

