-- ==== Sys2Proof/WellFormed.lean ====
section
/-!
DEFINITION. Sys2Proof/WellFormed.lean: what operands each row of spec/opcode_table.json admits. The checks are the domains the
rules give: payload lengths 0..249 (spec/30_encoding.md R96), the channel lists of the routing table (R97), the dataType
lists of the table's rows (R103) and the operand domains of the port operations.
-/

namespace Sys2Proof

/-- The payload range of every frame: 0..249 bytes (spec/30_encoding.md R96). -/
def payloadOk (p : List Byte) : Bool := decide (p.length ≤ 249)

/-- A channel inside a row's list `lo..hi` (spec/30_encoding.md R97). -/
def channelIn (lo hi : Nat) (ch : Byte) : Bool := decide (lo ≤ ch.toNat) && decide (ch.toNat ≤ hi)

/-- The unassigned channels 0, 10, 20, 30, 40, 51..255 (spec/30_encoding.md R97, last row). -/
def channelUnassigned (ch : Byte) : Bool :=
  !(channelIn 1 9 ch || channelIn 11 19 ch || channelIn 21 29 ch || channelIn 31 39 ch || channelIn 41 49 ch ||
    channelIn 50 50 ch)

/-- What SEND_LINE asks of its operands (spec/40_ring_transport.md R122; spec/30_encoding.md R106). -/
def sendLineOk (frame : List Byte) (declared : Nat) : Bool :=
  match frame[4]? with
  | none => false
  | some l => decide (l.toNat ≤ 249) && decide (declared = l.toNat + 6) && decide (declared ≤ frame.length)

/-- What SEND_RAW asks of its operands: 0 ≤ m ≤ 249, the size of `bytes` (spec/40_ring_transport.md R123). -/
def sendRawOk (bytes : List Byte) (m : Nat) : Bool := decide (m ≤ 249) && decide (m ≤ bytes.length)

/-- A parsed frame whose length byte counts its payload (spec/42_frame_codec.md R189). -/
def ParsedFrame.ok (pf : ParsedFrame) : Bool := payloadOk pf.payload && decide (pf.length.toNat = pf.payload.length)

/-- The operands of an instruction lie in the domain its row and rule give. -/
def Instr.wellFormed : Instr → Bool
  | .wSys _ ch p => channelIn 1 9 ch && payloadOk p
  | .wGpio _ ch p => channelIn 11 19 ch && payloadOk p
  | .wRelay _ ch p => channelIn 21 29 ch && payloadOk p
  | .wRs232 _ ch p => channelIn 31 39 ch && payloadOk p
  | .wIr _ ch p => channelIn 41 49 ch && payloadOk p
  | .wRs485 _ p => payloadOk p
  | .wIgnore _ ch p => channelUnassigned ch && payloadOk p
  | .sIgnore _ _ p => payloadOk p
  | .xIgnore _ ty _ p => !(ty == 87#8) && !(ty == 83#8) && payloadOk p
  | .sStatus ch _ => channelIn 11 19 ch || channelIn 21 29 ch
  | .sendLine _ f n => sendLineOk f n && decide (f.length = n)
  | .sendRaw _ b m => sendRawOk b m && decide (b.length = m)
  | .sendSLoop _ => true
  | .sendSWait _ => true
  | .sendSKick _ => true
  | .sendSExit _ => true
  | .irqTx _ => true
  | .irqRxMailbox _ => true
  | .irqRxRing _ => true
  | .readLine _ => true
  | .uartTx _ => true
  | .lineIn _ _ => true
  | .baudLoad _ => true
  | .checksum b m => decide (5 ≤ m) && decide (m ≤ b.length)
  | .encode _ _ _ p l => payloadOk p && decide (p.length = l)
  | .fsmStepWaitSync _ _ => true
  | .fsmStepAccumulate _ _ => true
  | .validate cand n => match cand[4]? with
    | none => false
    | some l => decide (cand.length = n) && decide (n = min (l.toNat + 6) 255)
  | .netValidate d n => decide (d.length = n)
  | .parse cand => match cand[4]? with
    | none => false
    | some l => decide (l.toNat ≤ 249) && decide (l.toNat + 6 ≤ cand.length)
  | .filter pf _ => pf.ok
  | .dispatch pf => pf.ok
  | .rs485Tx .frame b m => sendLineOk b m && decide (b.length = m)
  | .rs485Tx .raw b m => sendRawOk b m && decide (b.length = m)
  | .statusFanout ch _ => channelIn 11 19 ch || channelIn 21 29 ch
  | .gpioEvt g _ => decide (1 ≤ g) && decide (g ≤ 9)
  | .netRecv d n => decide (d.length = n)

end Sys2Proof
end

