-- ==== Sys2Proof/Machine/Send.lean ====
section
/-!
DEFINITION. Sys2Proof/Machine/Send.lean: the sender (spec/40_ring_transport.md R121 to R127): SEND_LINE and SEND_RAW (phase
S_STAGE) and the phases S_LOOP, S_WAIT with S_REMASK, S_KICK, S_EXIT, one atomic step each.
-/

namespace Sys2Proof.Machine

/-- Put one byte into the hardware transmit register; a write to a full register is the fault of
spec/60_exceptions.md R243 (spec/41_uart.md R163). -/
def Port.pushTx (c : Params) (p : Port) (b : Byte) : Except Fault Port :=
  if p.txCanAccept c then .ok { p with txHw := p.txHw ++ [b] } else .error .contractViolation

/-- Move the byte at `out` of the TX ring into the hardware transmit register: `push(TXHW[t], DEQ(TX))` (R126, R128). -/
def Port.moveTx (c : Params) (p : Port) : Except Fault Port :=
  match p.txRing.deq c.n with
  | .error f => .error f
  | .ok (b, r) => Port.pushTx c { p with txRing := r } b

/-- Phase S_STAGE: copy the bytes into the staging area, take the mask claim, sample `was_empty` after masking (R122,
R123). -/
def Port.stageBytes (p : Port) (bytes : List Byte) (n : Nat) : Except Fault Port :=
  match p.stage.writeRun stageCap 0 bytes with
  | .error f => .error f
  | .ok m => .ok { p.claimTx with
      stage := m
      send := some { n := n, i := 0, wasEmpty := p.txRing.isEmpty, phase := .sLoop } }

/-- S_STAGE has a step only while `TXLOCK[t]` is held (R140) and no send on t is in progress (log 13). That the current task need not be
the holder, nor at its send, is the model's choice (DESIGN CHOICE, log 33). -/
def Port.canStage (p : Port) : Bool := !(p.txLock == .free) && p.send.isNone

/-- SEND_LINE (R122). The count is read from the staged copy: byte 4 plus 6. Of a frame longer than declared the first bytes are sent
(DESIGN CHOICE, log 22), and a byte a shorter one lacks is free (DESIGN CHOICE, log 15). -/
def execSendLine (t : Transport) (frame : List Byte) (declared : Nat) (s : State) : Out :=
  let bytes := operandBytes s.tick frame declared
  if sendLineOk bytes declared then
    let p := s.port t
    if p.canStage then
      match p.stage.writeRun stageCap 0 bytes with
      | .error f => .fault f
      | .ok m =>
        match m.read stageCap 4 with
        | .error f => .fault f
        | .ok l => (s.draw (decide (frame.length < declared))).onPort t (p.stageBytes bytes (l.toNat + 6))
    else noStep s
  else .fault .sendLengthMismatch

/-- SEND_RAW (R123). Of a sequence longer than m the first m bytes are sent (DESIGN CHOICE, log 22), and a byte a shorter one lacks is
free (DESIGN CHOICE, log 15). -/
def execSendRaw (t : Transport) (bytes : List Byte) (m : Nat) (s : State) : Out :=
  if m ≤ maxPayload then
    let p := s.port t
    if p.canStage then
      (s.draw (decide (bytes.length < m))).onPort t (p.stageBytes (operandBytes s.tick bytes m) m)
    else noStep s
  else .fault .sendLengthMismatch

/-- S_LOOP on the state of a transport (R124). -/
def Port.sLoop (c : Params) (p : Port) (r : SendRec) : Except Fault Port :=
  if !p.maskTx then .error .contractViolation
  else if r.i = r.n then .ok { p with send := some { r with phase := .sKick } }
  else if p.txRing.isFull c.n then .ok { p.dropTx with send := some { r with phase := .sWait } }
  else
    match p.stage.read stageCap r.i with
    | .error f => .error f
    | .ok b =>
      match p.txRing.enq c.n b with
      | .error f => .error f
      | .ok ring => .ok { p with txRing := ring, send := some { r with i := r.i + 1 } }

/-- S_KICK on the state of a transport (R126). -/
def Port.sKick (c : Params) (p : Port) (r : SendRec) : Except Fault Port :=
  if !p.maskTx then .error .contractViolation
  else if r.wasEmpty && p.txCanAccept c && !p.txRing.isEmpty then
    match p.moveTx c with
    | .error f => .error f
    | .ok q => .ok { q with send := some { r with phase := .sExit } }
  else .ok { p with send := some { r with phase := .sExit } }

/-- The send on t returns to its caller, the holder of `TXLOCK[t]`: the caller's program point moves past its send
(R127; spec/43_dispatch.md R208, R213; log 12). Where the lock has no holder that is at a send on t, no task moves (DESIGN CHOICE,
log 33). -/
def State.returnFromSend (s : State) (t : Transport) : State :=
  match (s.port t).txLock with
  | .free => s
  | .held a =>
    match s.ctl a with
    | .act (.fwd u .send b) => if u = t then s.setCtl a (.act (.fwd u .free b)) else s
    | .act (.bus .send k b m) => if t = .rs485 then s.setCtl a (.act (.bus .post k b m)) else s
    | _ => s

/-- SEND.S_LOOP (R124). -/
def execSendSLoop (t : Transport) (s : State) : Out :=
  match (s.port t).send with
  | some r => if r.phase = .sLoop then s.onPort t ((s.port t).sLoop s.params r) else noStep s
  | none => noStep s

/-- SEND.S_WAIT: `wait(ROOM[t])` in S_WAIT, the re-mask in S_REMASK (R125). -/
def execSendSWait (t : Transport) (s : State) : Out :=
  match (s.port t).send with
  | some r =>
    match r.phase with
    | .sWait =>
      match (s.port t).waitRoom with
      | some p => .next (s.setPort t { p with send := some { r with phase := .sRemask } })
      | none => noStep s
    | .sRemask => .next (s.setPort t { (s.port t).claimTx with send := some { r with phase := .sLoop } })
    | .sLoop => noStep s
    | .sKick => noStep s
    | .sExit => noStep s
  | none => noStep s

/-- SEND.S_KICK (R126). -/
def execSendSKick (t : Transport) (s : State) : Out :=
  match (s.port t).send with
  | some r => if r.phase = .sKick then s.onPort t ((s.port t).sKick s.params r) else noStep s
  | none => noStep s

/-- SEND.S_EXIT (R127). -/
def execSendSExit (t : Transport) (s : State) : Out :=
  match (s.port t).send with
  | some r =>
    if r.phase = .sExit then
      .next ((s.setPort t { (s.port t).dropTx with send := none }).returnFromSend t)
    else noStep s
  | none => noStep s

/-- The step of a send in progress, by its phase (R121). -/
def sendPhaseStep (t : Transport) (ph : SendPhase) (s : State) : Out :=
  match ph with
  | .sLoop => execSendSLoop t s
  | .sWait => execSendSWait t s
  | .sRemask => execSendSWait t s
  | .sKick => execSendSKick t s
  | .sExit => execSendSExit t s

end Sys2Proof.Machine
end

