-- ==== Sys2Proof/Machine/Irq.lean ====
section
/-!
DEFINITION. Sys2Proof/Machine/Irq.lean: the interrupt handlers (spec/40_ring_transport.md R128, R134, R135), each one atomic
step taken through `takeInterrupt`.
-/

namespace Sys2Proof.Machine

/-- `while tx_can_accept(t) and not empty(TX): push(TXHW[t], DEQ(TX))` (R128). Each turn fills one place of the transmit
register, so `TXHW_DEPTH` turns are enough. -/
def Port.drain (c : Params) : Nat → Port → Except Fault Port
  | 0, p => .ok p
  | k + 1, p =>
    if p.txCanAccept c && !p.txRing.isEmpty then
      match p.moveTx c with
      | .error f => .error f
      | .ok q => Port.drain c k q
    else .ok p

/-- The body of the TX drain handler (R128). -/
def Port.irqTxBody (c : Params) (p : Port) : Except Fault Port :=
  match Port.drain c c.txHwDepth { p with threPend := false } with
  | .error f => .error f
  | .ok q => if q.txRing.isFull c.n then .ok q else .ok q.releaseRoom

/-- The body of the RX handler in MAILBOX mode, on the bytes of `RXHW` (R134). -/
def Port.rxToMailbox (p : Port) : List Byte → Port
  | [] => { p with rxHw := [] }
  | b :: bs => Port.rxToMailbox { p with mbox := b, ready := p.ready + 1 } bs

/-- The body of the RX handler in RING mode, on the bytes of `RXHW` (R135). -/
def Port.rxToRing (c : Params) (p : Port) : List Byte → Except Fault Port
  | [] => .ok { p with rxHw := [] }
  | b :: bs =>
    if p.rxRing.isFull c.rxn then Port.rxToRing c { p with rxOverrun := true } bs
    else
      match p.rxRing.enq c.rxn b with
      | .error f => .error f
      | .ok r => Port.rxToRing c { p with rxRing := r, ready := p.ready + 1 } bs

/-- IRQ_TX (R128; enabled by spec/60_exceptions.md R246). -/
def execIrqTx (t : Transport) (s : State) : Out :=
  takeInterrupt (s.port t).irqTxEnabled s t (fun p => p.irqTxBody s.params)

/-- IRQ_RX when RX_MODE = MAILBOX (R134). -/
def execIrqRxMailbox (t : Transport) (s : State) : Out :=
  takeInterrupt ((s.port t).irqRxEnabled && s.params.rxMode == .mailbox) s t (fun p => .ok (p.rxToMailbox p.rxHw))

/-- IRQ_RX when RX_MODE = RING (R135). -/
def execIrqRxRing (t : Transport) (s : State) : Out :=
  takeInterrupt ((s.port t).irqRxEnabled && s.params.rxMode == .ring) s t (fun p => p.rxToRing s.params p.rxHw)

end Sys2Proof.Machine
end

