-- ==== Sys2Proof/Machine/Receive.lean ====
section
/-!
DEFINITION. Sys2Proof/Machine/Receive.lean: READ_LINE (spec/40_ring_transport.md R136 to R138) and the reassembler FSM_STEP
(spec/42_frame_codec.md R182 to R185).
-/

namespace Sys2Proof.Machine

/-- FSM_STEP in WAIT_SYNC (R183). -/
def Port.fsmWaitSync (p : Port) (b : Byte) : Except Fault Port :=
  if b = sof then
    match p.rxBuf.write rxBufCap 0 b with
    | .error f => .error f
    | .ok m => .ok { p with rxBuf := m, pos := 1, fsm := .accumulate }
  else .ok p

/-- FSM_STEP in ACCUMULATE (R184). -/
def Port.fsmAccumulate (p : Port) (b : Byte) : Except Fault Port :=
  match p.rxBuf.write rxBufCap p.pos b with
  | .error f => .error f
  | .ok m =>
    let total := if p.pos = 4 then min (b.toNat + 6) sentinel else p.total
    .ok { p with
      rxBuf := m
      total := total
      pos := p.pos + 1
      fsm := if p.pos + 1 = total then .done else .accumulate }

/-- FSM_STEP by the reassembler's state; in DONE the machine stays as it is (R185). -/
def Port.fsmStep (p : Port) (b : Byte) : Except Fault Port :=
  match p.fsm with
  | .waitSync => p.fsmWaitSync b
  | .accumulate => p.fsmAccumulate b
  | .done => .ok p

/-- FSM_STEP.WAIT_SYNC: the row of the state WAIT_SYNC; in another state it is not this row's step (log 13). R182 has it only inside the
masked R_TAKE of `LISTENER(t)`; that the row also runs as a step of its own, with any byte, whatever the listener's program point and
`MASK_RX[t]`, and leaves both, is the model's choice (DESIGN CHOICE, log 33). -/
def execFsmStepWaitSync (t : Transport) (b : Byte) (s : State) : Out :=
  if (s.port t).fsm = .waitSync then s.onPort t ((s.port t).fsmWaitSync b) else noStep s

/-- FSM_STEP.ACCUMULATE: the row of the state ACCUMULATE (log 13), run as a step of its own as FSM_STEP.WAIT_SYNC is (DESIGN CHOICE,
log 33). -/
def execFsmStepAccumulate (t : Transport) (b : Byte) (s : State) : Out :=
  if (s.port t).fsm = .accumulate then s.onPort t ((s.port t).fsmAccumulate b) else noStep s

/-- Take the byte (R138): the mailbox as it stands, or DEQ of the RX ring. -/
def Port.takeByte (c : Params) (p : Port) : Except Fault (Byte × Port) :=
  match c.rxMode with
  | .mailbox => .ok (p.mbox, p)
  | .ring =>
    match p.rxRing.deq c.rxn with
    | .error f => .error f
    | .ok (b, r) => .ok (b, { p with rxRing := r })

/-- R_ENTER's reset of the reassembler (R137; R182). -/
def Port.fsmReset (p : Port) : Port := { p with fsm := .waitSync, pos := 0, total := sentinel }

/-- R_TAKE on the state of a transport: take one byte under the reader's claim and step the reassembler (R137). -/
def Port.rTake (c : Params) (p : Port) : Except Fault Port :=
  if !p.maskRx then .error .contractViolation
  else
    match p.takeByte c with
    | .error f => .error f
    | .ok (b, q) => q.fsmStep b

/-- One phase of READ_LINE by `LISTENER(t)` (R137). -/
def readStep (t : Transport) (ph : ReadPhase) (s : State) : Out :=
  let a : TaskId := .listener (.serial t)
  let p := s.port t
  match ph with
  | .enter => .next ((s.setPort t p.claimRx.fsmReset).setCtl a (.read .unmask))
  | .unmask => .next ((s.setPort t p.dropRx).setCtl a (.read .wait))
  | .wait =>
    match p.waitReady with
    | some q => .next ((s.setPort t q).setCtl a (.read .remask))
    | none => noStep s
  | .remask => .next ((s.setPort t p.claimRx).setCtl a (.read .take))
  | .take =>
    match p.rTake s.params with
    | .error f => .fault f
    | .ok q => .next ((s.setPort t q).setCtl a (.read (if q.fsm = .done then .exit else .unmask)))
  | .exit =>
    match p.rxBuf.readRun rxBufCap 0 p.total with
    | .error f => .fault f
    | .ok c => .next ((s.setPort t p.dropRx).setCtl a (.candidate c p.total))

/-- READ_LINE: the atomic step of the phase `LISTENER(t)` is at; none while the listener is elsewhere (R136, log 3). -/
def execReadLine (t : Transport) (s : State) : Out :=
  match s.ctl (.listener (.serial t)) with
  | .read ph => readStep t ph s
  | .recv => noStep s
  | .candidate _ _ => noStep s
  | .act _ => noStep s
  | .idle => noStep s

end Sys2Proof.Machine
end

