-- ==== Sys2Proof/Machine/Uart.lean ====
section
/-!
DEFINITION. Sys2Proof/Machine/Uart.lean: the UART (spec/41_uart.md): transmitter, receiver and baud-rate generator.
-/

namespace Sys2Proof.Machine

/-- UART_TX (R164): the oldest byte of the transmit register goes out with the direction of that moment. -/
def execUartTx (t : Transport) (s : State) : Out :=
  let p := s.port t
  match p.txHw with
  | [] => noStep s
  | b :: rest =>
    .next (s.setPort t { p with
      txHw := rest
      txLine := p.txLine ++ [(b, s.de)]
      threPend := if rest = [] then true else p.threPend })

/-- LINE_IN (R166): a character arrives; when the receive register is full it is lost and the overrun flag is set. -/
def execLineIn (t : Transport) (b : Byte) (s : State) : Out :=
  let p := s.port t
  if p.rxHw.length < s.params.rxHwDepth then .next (s.setPort t { p with rxHw := p.rxHw ++ [b] })
  else .next (s.setPort t { p with hwOverrun := true })

/-- The configured rate of a transport: `BAUD_485` for RS485, `BAUD_232` for both RS-232 ports (R161). -/
def State.baudOf (s : State) : Transport → PNat
  | .rs485 => s.baud485
  | .rs232_1 => s.baud232
  | .rs232_2 => s.baud232

/-- BAUD_LOAD (R161); after start it is the fault of spec/60_exceptions.md R243. That it runs at every step of the start sequence, and
not only at its own, is the model's choice (DESIGN CHOICE, log 33). -/
def execBaudLoad (t : Transport) (s : State) : Out :=
  if s.boot = .running then .fault .configAfterStart
  else .next (s.setPort t { s.port t with baudDiv := baudDivisor s.params (s.baudOf t) })

/-- The bits of one character: start, eight data, parity, stop (R162). -/
def Params.charBits (c : Params) : Nat :=
  1 + 8 + (match c.parity with
    | .none => 0
    | .even => 1
    | .odd => 1) + (match c.stopBits with
    | .one => 1
    | .two => 2)

/-- How many cycles of `F_REF` one character lasts (R162); timing, read by no step (log 19). -/
def State.charCycles (s : State) (t : Transport) : Nat :=
  Params.charBits s.params * s.params.oversample * (s.port t).baudDiv

end Sys2Proof.Machine
end

