-- ==== Sys2Proof/Machine/Codec.lean ====
section
/-!
DEFINITION. Sys2Proof/Machine/Codec.lean: the value-returning codec operations CHECKSUM, ENCODE, VALIDATE, NET_VALIDATE and
PARSE (spec/42_frame_codec.md). Each returns its value to its caller (`State.ret`, log 14) and changes nothing else; that each runs as a
step of its own, in any state, is the model's choice (DESIGN CHOICE, log 33).
-/

namespace Sys2Proof.Machine

/-- Return a value to the caller, having used a free value or not. -/
def returnValue (s : State) (used : Bool) (r : Ret) : Out := .next ((s.draw used).setRet r)

/-- CHECKSUM(b, m) (R180). The rule has m ≥ 5 and b of at least m bytes: the result for m < 5 and a byte of b that is not there are free
values, the model's choice (DESIGN CHOICE, log 15). -/
def execChecksum (b : List Byte) (m : Nat) (s : State) : Out :=
  if 5 ≤ m then returnValue s (decide (b.length < m)) (.byte (checksum (operandBytes s.tick b m) m))
  else returnValue s true (.byte (Config.freeByte s.tick 0))

/-- ENCODE(id, type, ch, p, L) (R181). The rule has L ≤ 249 and p of L bytes: the frame for L > 249 and a byte of p that is not there
are free values (DESIGN CHOICE, log 15), and of a longer p the first L bytes are taken (DESIGN CHOICE, log 26). -/
def execEncode (id ty ch : Byte) (p : List Byte) (l : Nat) (s : State) : Out :=
  if l ≤ maxPayload then
    returnValue s (decide (p.length < l)) (.frame (frameBytes id ty ch (operandBytes s.tick p l)))
  else returnValue s true (.frame (Config.freeFrame s.tick))

/-- VALIDATE(c, total) (R186). The rule has a candidate of `total` bytes; of a longer operand the first `total` bytes are taken
(DESIGN CHOICE, log 26), and a byte it reads that is not there is free (DESIGN CHOICE, log 15). -/
def execValidate (c : List Byte) (total : Nat) (s : State) : Out :=
  let cand := c.take total
  returnValue s (decide (cand.length < validateReads s.tick cand)) (.verdict (validateCandidate s.tick cand))

/-- NET_VALIDATE(D, n) (R188). The rule has a datagram of n bytes; of a longer operand the first n bytes are taken (DESIGN CHOICE,
log 26), and the bytes a shorter one lacks are free (DESIGN CHOICE, log 15). -/
def execNetValidate (d : List Byte) (n : Nat) (s : State) : Out :=
  returnValue s (decide (d.length < n)) (.verdict (netValidate (operandBytes s.tick d n)))

/-- PARSE(c) (R189). The rule has an accepted candidate; the fields of one that was not accepted are returned all the same (DESIGN
CHOICE, log 27), and a byte it reads that is not there is free (DESIGN CHOICE, log 15). -/
def execParse (c : List Byte) (s : State) : Out :=
  returnValue s (decide (c.length < parseReads s.tick c)) (.parsed (parseFrame s.tick c))

end Sys2Proof.Machine
end

