-- ==== Sys2Proof/Machine/Router.lean ====
section
/-!
DEFINITION. Sys2Proof/Machine/Router.lean: the router's port operations FILTER, DISPATCH, RS485_TX, STATUS_FANOUT, GPIO_EVT and
NET_RECV (spec/43_dispatch.md).
-/

namespace Sys2Proof.Machine

/-- FILTER: the frame goes on unless the path filters and the deviceID is not the local one (R201). -/
def filterPasses (s : State) (pf : ParsedFrame) (p : Path) : Bool :=
  !(s.params.filterOn p && !(pf.deviceID == s.localId))

/-- FILTER(pf, p) (R201), run as a step of its own (DESIGN CHOICE, log 33). -/
def execFilter (pf : ParsedFrame) (p : Path) (s : State) : Out :=
  .next (s.setRet (.passed (filterPasses s pf p)))

/-- DISPATCH(pf): the command the channel selects (R203), run as a step of its own (DESIGN CHOICE, log 33). -/
def execDispatch (pf : ParsedFrame) (s : State) : Out := .next (s.setRet (.selected (route pf)))

/-- X_LOCK: acquire `TXLOCK[RS485]` and enter the bracket; no step while the lock is taken (R213). The task's program point is replaced,
whatever it is (DESIGN CHOICE where the task is not at L_ACT, log 30). -/
def busLock (a : TaskId) (k : TxKind) (b : List Byte) (m : Nat) (s : State) : Out :=
  match (s.port .rs485).acquire a with
  | some p => .next ((s.setPort .rs485 p).setCtl a (.act (.bus .deOn k b m)))
  | none => noStep s

/-- X_SEND: start the send, or take the step of the send in progress (R213). -/
def busSend (k : TxKind) (b : List Byte) (m : Nat) (s : State) : Out :=
  match (s.port .rs485).send with
  | some r => sendPhaseStep .rs485 r.phase s
  | none =>
    match k with
    | .frame => execSendLine .rs485 b m s
    | .raw => execSendRaw .rs485 b m s

/-- The step `ph` of the bracket RS485_TX(k, b, m) by task `a` (R213). The delays change no state (spec/00_scope.md R11). -/
def busStep (a : TaskId) (ph : BusPhase) (k : TxKind) (b : List Byte) (m : Nat) (s : State) : Out :=
  match ph with
  | .lock => busLock a k b m s
  | .deOn => .next ((s.setDe .write).setCtl a (.act (.bus .pre k b m)))
  | .pre => .next (s.setCtl a (.act (.bus .send k b m)))
  | .send => busSend k b m s
  | .post => .next (s.setCtl a (.act (.bus .deOff k b m)))
  | .deOff => .next ((s.setDe .read).setCtl a (.act (.bus .unlock k b m)))
  | .unlock => .next ((s.setPort .rs485 (s.port .rs485).freeLock).setCtl a (doneLabel a))

/-- RS485_TX(kind, bytes, m) by the current task (R213): the next step of its bracket, or X_LOCK where the task is in no
bracket, be it at L_ACT or elsewhere (DESIGN CHOICE, log 30). A task inside the bracket of other operands holds the lock itself and has no
step here (log 3). -/
def execRs485Tx (k : TxKind) (b : List Byte) (m : Nat) (s : State) : Out :=
  match s.ctl s.cur with
  | .act (.bus ph k' b' m') => if k' = k ∧ b' = b ∧ m' = m then busStep s.cur ph k b m s else noStep s
  | _ => busLock s.cur k b m s

/-- F_NET of STATUS_FANOUT(ch, v) by task `a`: one datagram; the rest is RS485_TX(FRAME, f, 7) (R215). -/
def fanoutNet (a : TaskId) (ch v : Byte) (s : State) : State :=
  (s.netSend (statusFrame s.localId ch v)).setCtl a (.act (.bus .lock .frame (statusFrame s.localId ch v) 7))

/-- STATUS_FANOUT(ch, v) by the current task (R215), also for a task that is not about to fan out (DESIGN CHOICE, log 30). -/
def execStatusFanout (ch v : Byte) (s : State) : Out := .next (fanoutNet s.cur ch v s)

/-- GPIO_EVT(g, v) by GPIO_SRC: STATUS_FANOUT(10 + g, v) (R217). GPIO_SRC takes an event only when its fan-out is over
(log 11). -/
def execGpioEvt (g : Nat) (v : Byte) (s : State) : Out :=
  if 1 ≤ g ∧ g ≤ 9 then
    if s.ctl .gpio = .recv then .next (fanoutNet .gpio (statusChannel gpioOffset g) v s) else noStep s
  else .refused .noSuchGpioEvent

/-- NET_RECV(D, n): hands one datagram to `LISTENER(NET)`, enabled only at N_RECV (R219). Of an
operand longer than n the first n bytes are the datagram (DESIGN CHOICE, log 26), and the bytes a shorter one lacks are free
(DESIGN CHOICE, log 15). -/
def execNetRecv (d : List Byte) (n : Nat) (s : State) : Out :=
  if s.ctl (.listener .net) = .recv then
    .next ((s.draw (decide (d.length < n))).setCtl (.listener .net) (.candidate (operandBytes s.tick d n) n))
  else noStep s

end Sys2Proof.Machine
end

