-- ==== Sys2Proof/Machine/Frames.lean ====
section
/-!
DEFINITION. Sys2Proof/Machine/Frames.lean: the frame commands (spec/43_dispatch.md R202 to R214). Each meaning is the first atomic
step of the command by the current task; the steps that follow are the task's program point. The listeners run a command at L_ACT only
(R222); that exec runs one for a task at any other program point too, which the command's own next point then replaces, is the
model's choice (DESIGN CHOICE, log 30). A frame has at most 249 payload bytes (spec/30_encoding.md R96); that a row with more runs as
any other is the model's choice too (DESIGN CHOICE, log 32).
-/

namespace Sys2Proof.Machine

/-- The current task is done with its command, with no effect (spec/43_dispatch.md R200): it moves to the end of its turn, from
whatever program point it is at (DESIGN CHOICE where that is not L_ACT, log 30). -/
def commandDone (s : State) : State := s.setCtl s.cur (doneLabel s.cur)

/-- W.SYS: reserved, no-op (R204). -/
def execWSys (_id _ch : Byte) (_payload : List Byte) (s : State) : Out := .next (commandDone s)

/-- W.GPIO: reserved, no-op (R205). -/
def execWGpio (_id _ch : Byte) (_payload : List Byte) (s : State) : Out := .next (commandDone s)

/-- W.RELAY (R206, R207): RELAY[k] takes payload[0], and the task goes on to STATUS_FANOUT(20 + k, v); ignored with no
operand or with k > NUM_RELAYS. A channel outside 21..29 is no W.RELAY frame; that 20 or less (k = 0) writes RELAY[1] and 30 or
more (k > 9) is ignored is the model's choice (DESIGN CHOICE, log 29), and so is the effect for a task that is not at L_ACT (DESIGN
CHOICE, log 30) and of a payload of more than 249 bytes (DESIGN CHOICE, log 32). -/
def execWRelay (_id ch : Byte) (payload : List Byte) (s : State) : Out :=
  let k := channelIndex relayOffset ch
  match operandByte payload with
  | none => .next (commandDone s)
  | some v =>
    if s.params.numRelays < k then .next (commandDone s)
    else .next ((s.setRelay k v).setCtl s.cur (.act (.fNet (statusChannel relayOffset k) v)))

/-- W.RS232 (R208): acquire the lock of the port k names, then SEND_RAW of the whole payload; k = 3..9 is ignored.
So is, by the model's choice (DESIGN CHOICE, log 29), a channel outside 31..39. The effect for a task that is not at L_ACT is the
model's choice too (DESIGN CHOICE, log 30), and so is taking the lock for a payload of more than 249 bytes (DESIGN CHOICE, log 32). -/
def execWRs232 (_id ch : Byte) (payload : List Byte) (s : State) : Out :=
  match rs232Port (channelIndex rs232Offset ch) with
  | none => .next (commandDone s)
  | some u =>
    match (s.port u).acquire s.cur with
    | some p => .next ((s.setPort u p).setCtl s.cur (.act (.fwd u .send payload)))
    | none => noStep s

/-- W.IR (R210): one `ir_trig` event (k, payload[0]); ignored with no operand. For a channel outside 41..49,
which is no W.IR frame, the event's k is 0 or above 9, the model's choice (DESIGN CHOICE, log 29), and so is the effect for a task that
is not at L_ACT (DESIGN CHOICE, log 30) and of a payload of more than 249 bytes (DESIGN CHOICE, log 32). -/
def execWIr (_id ch : Byte) (payload : List Byte) (s : State) : Out :=
  match operandByte payload with
  | none => .next (commandDone s)
  | some v => .next (commandDone (s.irTrigger (channelIndex irOffset ch) v))

/-- W.RS485 (R211): RS485_TX(RAW, payload, L), from its step X_LOCK, also for a task that is not at L_ACT (DESIGN CHOICE,
log 30) and for a payload of more than 249 bytes (DESIGN CHOICE, log 32). -/
def execWRs485 (_id : Byte) (payload : List Byte) (s : State) : Out := busLock s.cur .raw payload payload.length s

/-- W.IGNORE (R212). -/
def execWIgnore (_id _ch : Byte) (_payload : List Byte) (s : State) : Out := .next (commandDone s)

/-- S.IGNORE: a received status frame has no effect (R202). -/
def execSIgnore (_id _ch : Byte) (_payload : List Byte) (s : State) : Out := .next (commandDone s)

/-- X.IGNORE: a frame of any other dataType has no effect (R202). -/
def execXIgnore (_id _ty _ch : Byte) (_payload : List Byte) (s : State) : Out := .next (commandDone s)

/-- S.STATUS: the status frame of channel `ch` and value `v` (R214), returned to the caller (log 25). -/
def execSStatus (ch v : Byte) (s : State) : Out := .next (s.setRet (.frame (statusFrame s.localId ch v)))

end Sys2Proof.Machine
end

