-- ==== Sys2Proof/Machine/Dispatch.lean ====
section
/-!
DEFINITION. Sys2Proof/Machine/Dispatch.lean: one arm per row of spec/opcode_table.json.
-/

namespace Sys2Proof.Machine

def exec (i : Instr) (s : State) : Host.Outcome State Fault Refusal :=
  match i with
  | .wSys id ch payload => Sys2Proof.Machine.execWSys id ch payload s
  | .wGpio id ch payload => Sys2Proof.Machine.execWGpio id ch payload s
  | .wRelay id ch payload => Sys2Proof.Machine.execWRelay id ch payload s
  | .wRs232 id ch payload => Sys2Proof.Machine.execWRs232 id ch payload s
  | .wIr id ch payload => Sys2Proof.Machine.execWIr id ch payload s
  | .wRs485 id payload => Sys2Proof.Machine.execWRs485 id payload s
  | .wIgnore id ch payload => Sys2Proof.Machine.execWIgnore id ch payload s
  | .sIgnore id ch payload => Sys2Proof.Machine.execSIgnore id ch payload s
  | .xIgnore id ty ch payload => Sys2Proof.Machine.execXIgnore id ty ch payload s
  | .sStatus ch v => Sys2Proof.Machine.execSStatus ch v s
  | .sendLine t frame n => Sys2Proof.Machine.execSendLine t frame n s
  | .sendRaw t bytes m => Sys2Proof.Machine.execSendRaw t bytes m s
  | .sendSLoop t => Sys2Proof.Machine.execSendSLoop t s
  | .sendSWait t => Sys2Proof.Machine.execSendSWait t s
  | .sendSKick t => Sys2Proof.Machine.execSendSKick t s
  | .sendSExit t => Sys2Proof.Machine.execSendSExit t s
  | .irqTx t => Sys2Proof.Machine.execIrqTx t s
  | .irqRxMailbox t => Sys2Proof.Machine.execIrqRxMailbox t s
  | .irqRxRing t => Sys2Proof.Machine.execIrqRxRing t s
  | .readLine t => Sys2Proof.Machine.execReadLine t s
  | .uartTx t => Sys2Proof.Machine.execUartTx t s
  | .lineIn t b => Sys2Proof.Machine.execLineIn t b s
  | .baudLoad t => Sys2Proof.Machine.execBaudLoad t s
  | .checksum b m => Sys2Proof.Machine.execChecksum b m s
  | .encode id ty ch p l => Sys2Proof.Machine.execEncode id ty ch p l s
  | .fsmStepWaitSync t b => Sys2Proof.Machine.execFsmStepWaitSync t b s
  | .fsmStepAccumulate t b => Sys2Proof.Machine.execFsmStepAccumulate t b s
  | .validate c total => Sys2Proof.Machine.execValidate c total s
  | .netValidate d n => Sys2Proof.Machine.execNetValidate d n s
  | .parse c => Sys2Proof.Machine.execParse c s
  | .filter pf p => Sys2Proof.Machine.execFilter pf p s
  | .dispatch pf => Sys2Proof.Machine.execDispatch pf s
  | .rs485Tx kind bytes m => Sys2Proof.Machine.execRs485Tx kind bytes m s
  | .statusFanout ch v => Sys2Proof.Machine.execStatusFanout ch v s
  | .gpioEvt g v => Sys2Proof.Machine.execGpioEvt g v s
  | .netRecv d n => Sys2Proof.Machine.execNetRecv d n s

end Sys2Proof.Machine
end

