-- ==== Sys2Proof/Machine/Schedule.lean ====
section
/-!
DEFINITION. Sys2Proof/Machine/Schedule.lean: which operation the chosen agent executes. The start sequence
(spec/70_reset_and_hazards.md R271), the listener loops (spec/43_dispatch.md R222, R223), the choice of the next agent
(spec/00_scope.md R10, spec/60_exceptions.md R240), and where a table word is placed so that it is the next operation (log 4).
-/

namespace Sys2Proof.Machine

/-- The validation of L_DECIDE and N_DECIDE (spec/43_dispatch.md R222, R223). -/
def accepts (k : Nat) (p : Path) (c : List Byte) : Bool :=
  match p with
  | .net => netValidate c
  | .serial _ => validateCandidate k c

/-- Whether that validation reads a byte the candidate lacks, as of no candidate of READ_LINE (log 15). -/
def readsBeyond (k : Nat) (p : Path) (c : List Byte) : Bool :=
  match p with
  | .net => false
  | .serial _ => decide (c.length < validateReads k c)

/-- L_DECIDE (N_DECIDE) of the listener of path `p`: one atomic step (R222, R223). The command that the dataType test and
DISPATCH select is a function of the parsed frame (`instrOf`), which L_ACT keeps (log 10). All bytes of the candidate are judged: that its
recorded size is not read, where it is another than their number, is the model's choice (DESIGN CHOICE, log 26). -/
def decideStep (p : Path) (c : List Byte) (s : State) : Out :=
  let pf := parseFrame s.tick c
  .next ((s.draw (readsBeyond s.tick p c)).setCtl (.listener p)
    (if accepts s.tick p c && filterPasses s pf p then .act (.cmd pf) else .idle))

/-- The next atomic step of W.RS232 once it holds `TXLOCK[u]` (R208): the send, then `free`. -/
def forwardStep (a : TaskId) (u : Transport) (ph : FwdPhase) (b : List Byte) (s : State) : Out :=
  match ph with
  | .send =>
    match (s.port u).send with
    | some r => sendPhaseStep u r.phase s
    | none => exec (.sendRaw u b b.length) s
  | .free => .next ((s.setPort u (s.port u).freeLock).setCtl a (doneLabel a))

/-- The next atomic step of L_ACT: what the task is about to do. -/
def actStep (a : TaskId) (act : Act) (s : State) : Out :=
  match act with
  | .cmd pf => exec (instrOf pf) s
  | .fNet ch v => exec (.statusFanout ch v) s
  | .fwd u ph b => forwardStep a u ph b s
  | .bus _ k b m => exec (.rs485Tx k b m) s

/-- The next atomic step of a task, by its program point (R222, R223; GPIO_SRC: R217). A task at N_RECV, or GPIO_SRC waiting,
has no step of its own. -/
def taskStep (a : TaskId) (s : State) : Out :=
  match s.ctl a with
  | .read _ =>
    match a with
    | .listener (.serial t) => exec (.readLine t) s
    | .listener .net => noStep s
    | .gpio => noStep s
  | .recv => noStep s
  | .candidate c _ =>
    match a with
    | .listener p => decideStep p c s
    | .gpio => noStep s
  | .act act => actStep a act s
  | .idle => .next (s.setCtl a (firstLabel a))

/-- Interrupt handlers run with priority over the listener tasks: while one is enabled a listener has no step
(spec/60_exceptions.md R240, which leaves GPIO_SRC among the agents that may step; log 11). -/
def heldBack (a : TaskId) (s : State) : Bool :=
  match a with
  | .listener _ => s.handlerEnabled
  | .gpio => false

/-- The operation IRQ_RX is in the RX mode of the block (spec/40_ring_transport.md R131). -/
def irqRxInstr (c : Params) (t : Transport) : Instr :=
  match c.rxMode with
  | .ring => .irqRxRing t
  | .mailbox => .irqRxMailbox t

/-- The step of a chosen agent (spec/00_scope.md R10). -/
def choiceStep (c : Choice) (s : State) : Out :=
  match c with
  | .lineIn t b => exec (.lineIn t b) s
  | .uartTx t => exec (.uartTx t) s
  | .irqTx t => exec (.irqTx t) s
  | .irqRx t => exec (irqRxInstr s.params t) s
  | .task a => if heldBack a s then noStep s else taskStep a { s with cur := a }
  | .netRecv d => exec (.netRecv d d.length) s
  | .gpioEvt g v => exec (.gpioEvt (g.val + 1) v) s

/-- Step (2) of the start sequence: each configuration item given replaces its compiled-in default (R271, R40). -/
def readCfg (s : State) : State :=
  { s with
    localId := s.cfgIn.deviceID.getD s.localId
    baud485 := s.cfgIn.baud485.getD s.baud485
    baud232 := s.cfgIn.baud232.getD s.baud232 }

/-- The start sequence after step (3) for one transport (R271). -/
def afterBaud : Transport → Boot
  | .rs485 => .baudLoad .rs232_1
  | .rs232_1 => .baudLoad .rs232_2
  | .rs232_2 => .startTasks

/-- BAUD_LOAD of one transport as a step of the start sequence (R271 step (3)). -/
def bootBaud (t : Transport) (s : State) : Out :=
  match exec (.baudLoad t) s with
  | .next s' => .next { s' with boot := afterBaud t }
  | .fault f => .fault f
  | .refused r => .refused r

/-- Step (4): the four listeners start, each at its first label (R271). -/
def startTasks (s : State) : State :=
  { ((((s.setCtl (.listener .net) (firstLabel (.listener .net))).setCtl (.listener (.serial .rs485))
      (firstLabel (.listener (.serial .rs485)))).setCtl (.listener (.serial .rs232_1))
      (firstLabel (.listener (.serial .rs232_1)))).setCtl (.listener (.serial .rs232_2))
      (firstLabel (.listener (.serial .rs232_2)))) with boot := .running }

/-- The step of a started block: the next choice of the schedule, or a free choice when none is left (log 2). -/
def runStep (s : State) : Out :=
  match s.sched with
  | c :: rest => choiceStep c { s with sched := rest }
  | [] => choiceStep (Config.freeChoice s.tick) { s with tick := s.tick + 1 }

/-- One step of the machine. -/
def machineStep (s : State) : Out :=
  match s.boot with
  | .readCfg => .next { readCfg s with boot := .baudLoad .rs485 }
  | .baudLoad t => bootBaud t s
  | .startTasks => .next (startTasks s)
  | .running => runStep s

/-- The program point of `LISTENER(NET)` that makes a table word its next operation: L_ACT with the word's parsed frame, or
N_DECIDE with its bytes, which it drops, where the decoder refuses them (log 4). -/
def wordCtl (nbits w : Nat) : Ctl :=
  let c := wordBytes nbits w
  match decodeTableWord nbits w with
  | some _ => .act (.cmd (parseFrame 0 c))
  | none => .candidate c c.length

/-- Place a table word where the next step fetches it: the block is started, the word is at `LISTENER(NET)`, and that task is
the next choice of the schedule (log 4). -/
def placeWord (s : State) (nbits w : Nat) : State :=
  { s.setCtl (.listener .net) (wordCtl nbits w) with
    boot := .running
    sched := .task (.listener .net) :: s.sched }

end Sys2Proof.Machine
end

