-- ==== Sys2Proof/Machine/Step.lean ====
section
/-!
DEFINITION. Sys2Proof/Machine/Step.lean: one step of the machine, and a table word placed where the next step fetches it.
-/

namespace Sys2Proof.Machine

/-- `s` with the table word `w` stored where the next step fetches its operation (log 4). -/
def State.withFetchWord (s : State) (nbits w : Nat) : State := placeWord s nbits w

/-- One step of the machine: one step of one agent (spec/20_memory.md R69). -/
def step (s : State) : Host.Outcome State Fault Refusal := machineStep s

end Sys2Proof.Machine
end

