-- ==== Sys2Proof/Safety.lean ====
section
/-!
DEFINITION. Sys2Proof/Safety.lean: the terms in which claims speak of a safe run: what a ring holds, the invariants of the rings,
the reassembler, a send, the mask claims, the locks and the tasks (spec/10_state.md R28, R47, R48; spec/20_memory.md R66;
spec/40_ring_transport.md R130, R135), feeding the reassembler, and the quiescent state (spec/70_reset_and_hazards.md R296).
-/

namespace Sys2Proof.Machine

/-- The slot of the j-th oldest byte of a ring of `m` slots (spec/10_state.md R47). -/
def Ring.slotAt (m : Nat) (r : Ring) (j : Nat) : Option Byte := r.slots.lookup ((r.outIdx + j) % m)

/-- The live bytes of a ring, oldest first (R47). -/
def Ring.bytes (m : Nat) (r : Ring) : List Byte := (List.range (r.count m)).map (fun j => (r.slotAt m j).getD 0#8)

/-- The ring invariant (R22, R47): both indices below the slot count, every live slot written. -/
structure Ring.Ok (m : Nat) (r : Ring) : Prop where
  inLt : r.inIdx < m
  outLt : r.outIdx < m
  live : ∀ j, j < r.count m → r.slotAt m j ≠ none

/-- Every byte array of a transport is in canonical form. -/
def Port.memWf (p : Port) : Bool :=
  Memory.wf p.txRing.slots && Memory.wf p.rxRing.slots && Memory.wf p.stage && Memory.wf p.rxBuf

/-- The reassembler's state by its label, position and total (spec/10_state.md R28, spec/42_frame_codec.md R184). -/
def Port.fsmShape (p : Port) : Prop :=
  match p.fsm with
  | .waitSync => p.pos = 0 ∧ p.total = 255
  | .accumulate => 1 ≤ p.pos ∧ p.pos < p.total ∧ p.total ≤ 255 ∧ (p.pos ≤ 4 → p.total = 255)
  | .done => p.pos = p.total ∧ 6 ≤ p.total ∧ p.total ≤ 255

/-- The reassembler invariant: its shape, every stored position written, and the total fixed by the stored length byte. -/
structure Port.FsmOk (p : Port) : Prop where
  shape : p.fsmShape
  written : ∀ j, j < p.pos → p.rxBuf.lookup j ≠ none
  lengthByte : 5 ≤ p.pos → ∃ l, p.rxBuf.lookup 4 = some l ∧ p.total = min (l.toNat + 6) 255

/-- The invariant of a send in progress: at most 255 bytes, the cursor inside them, all of them staged. -/
structure Port.SendOk (p : Port) : Prop where
  size : ∀ r, p.send = some r → r.n ≤ 255 ∧ r.i ≤ r.n
  staged : ∀ r j, p.send = some r → j < r.n → p.stage.lookup j ≠ none

/-- The sender holds its claim on the mask exactly in the phases S_LOOP, S_KICK and S_EXIT (spec/40_ring_transport.md R122
to R127, R140). -/
def Port.txClaim (p : Port) : Bool :=
  match p.send with
  | none => false
  | some r =>
    match r.phase with
    | .sLoop => true
    | .sWait => false
    | .sRemask => false
    | .sKick => true
    | .sExit => true

/-- The invariant of one transport. -/
structure Port.Ok (c : Params) (p : Port) : Prop where
  mem : p.memWf = true
  tx : p.txRing.Ok c.n
  rx : p.rxRing.Ok c.rxn
  txHw : p.txHw.length ≤ c.txHwDepth
  rxHw : p.rxHw.length ≤ c.rxHwDepth
  fsm : p.FsmOk
  snd : p.SendOk
  claim : p.maskTx = p.txClaim

/-- The task holds `TXLOCK[t]`, by its program point (spec/43_dispatch.md R208, R213). -/
def Ctl.holds : Ctl → Transport → Bool
  | .act (.fwd u _ _), t => u == t
  | .act (.bus .lock _ _ _), _ => false
  | .act (.bus _ _ _ _), t => t == .rs485
  | _, _ => false

/-- The task is at its send on t. -/
def Ctl.sendsOn : Ctl → Transport → Bool
  | .act (.fwd u .send _), t => u == t
  | .act (.bus .send _ _ _), t => t == .rs485
  | _, _ => false

/-- The task is inside the bracket, after X_DE_ON and before X_DE_OFF is over (R213). -/
def Ctl.driving : Ctl → Bool
  | .act (.bus .pre _ _ _) => true
  | .act (.bus .send _ _ _) => true
  | .act (.bus .post _ _ _) => true
  | .act (.bus .deOff _ _ _) => true
  | _ => false

/-- The reader holds its claim on the mask in the phases after R_ENTER, after R_REMASK and after R_TAKE
(spec/40_ring_transport.md R137). -/
def Ctl.readMasked : Ctl → Bool
  | .read .unmask => true
  | .read .take => true
  | .read .exit => true
  | _ => false

/-- A byte the reader has waited for and not yet taken: the `R_REMASK`/`R_TAKE` window (R135). -/
def Ctl.owed : Ctl → Nat
  | .read .remask => 1
  | .read .take => 1
  | _ => 0

/-- What a task is about to do has operands in their domain. -/
def Act.ok : Act → Bool
  | .cmd pf => pf.ok
  | .fNet _ _ => true
  | .fwd u _ b => !(u == .rs485) && decide (b.length ≤ 249)
  | .bus _ .frame b m => sendLineOk b m
  | .bus _ .raw b m => sendRawOk b m

/-- A candidate READ_LINE may return: its size is what its length byte fixes (spec/42_frame_codec.md R184, R185). -/
def candidateOk (c : List Byte) (n : Nat) : Bool :=
  decide (c.length = n) &&
    (match c.drop 4 with
    | l :: _ => decide (n = min (l.toNat + 6) 255)
    | [] => false)

/-- The program points a task can be at (spec/43_dispatch.md R217, R222, R223). -/
def Ctl.okFor : TaskId → Ctl → Bool
  | .listener .net, .recv => true
  | .listener .net, .candidate c n => decide (c.length = n)
  | .listener .net, .act a => a.ok
  | .listener .net, .idle => true
  | .listener .net, .read _ => false
  | .listener (.serial _), .read _ => true
  | .listener (.serial _), .candidate c n => candidateOk c n
  | .listener (.serial _), .act a => a.ok
  | .listener (.serial _), .idle => true
  | .listener (.serial _), .recv => false
  | .gpio, .recv => true
  | .gpio, .act a => a.ok
  | .gpio, .read _ => false
  | .gpio, .candidate _ _ => false
  | .gpio, .idle => false

/-- The invariant of the block. -/
structure State.Inv (s : State) : Prop where
  /-- The constraints of spec/00_scope.md R6. -/
  params : s.params.wf
  ports : ∀ t, (s.port t).Ok s.params
  /-- `MASK_RX[t]` is set exactly in the reader's masked phases. -/
  readMask : ∀ t, (s.port t).maskRx = (s.ctl (.listener (.serial t))).readMasked
  /-- RING mode: outside the reader's window READY[t] = count(RXRING[t]), inside it one less (R135). -/
  ready : s.params.rxMode = .ring → ∀ t,
    (s.port t).ready + (s.ctl (.listener (.serial t))).owed = (s.port t).rxRing.count s.params.rxn
  /-- Inside READ_LINE the reassembler is DONE exactly at R_EXIT (R137). -/
  reader : ∀ t ph, s.ctl (.listener (.serial t)) = .read ph → ph ≠ .enter → ((s.port t).fsm = .done ↔ ph = .exit)
  /-- A lock is held by exactly the task whose program point is inside its section (spec/20_memory.md R75). -/
  lock : ∀ t a, (s.port t).txLock = .held a ↔ (s.ctl a).holds t = true
  /-- A send in progress has a caller. -/
  sender : ∀ t, (s.port t).send ≠ none → ∃ a, (s.ctl a).sendsOn t = true
  tasks : ∀ a, Ctl.okFor a (s.ctl a) = true
  /-- `DE` = WRITE exactly while a task is inside the bracket (spec/43_dispatch.md R213). -/
  drive : s.de = .write ↔ ∃ a, (s.ctl a).driving = true
  /-- Before the start every task is at its first label (spec/70_reset_and_hazards.md R271). -/
  start : s.boot ≠ .running → ∀ a, s.ctl a = firstLabel a

/-- Every byte array of the block is in canonical form. -/
def State.memWf (s : State) : Bool :=
  (s.port .rs485).memWf && (s.port .rs232_1).memWf && (s.port .rs232_2).memWf

/-- The bytes of a transport on their way out, oldest first: sent on the line, in the transmit register, in the ring
(spec/20_memory.md R70). -/
def Port.txStream (c : Params) (p : Port) : List Byte := p.txLine.map Prod.fst ++ p.txHw ++ p.txRing.bytes c.n

/-- The bytes of a transport on their way in, oldest first: in the RX ring, in the receive register (R70). -/
def Port.rxStream (c : Params) (p : Port) : List Byte := p.rxRing.bytes c.rxn ++ p.rxHw

/-- The row FSM_STEP is in the reassembler's present state (spec/30_encoding.md R103). -/
def fsmInstr (s : State) (t : Transport) (b : Byte) : Instr :=
  match (s.port t).fsm with
  | .waitSync => .fsmStepWaitSync t b
  | .accumulate => .fsmStepAccumulate t b
  | .done => .fsmStepAccumulate t b

/-- FSM_STEP for each byte in order. -/
def feed (t : Transport) : List Byte → State → Out
  | [], s => .next s
  | b :: bs, s =>
    match exec (fsmInstr s t b) s with
    | .next s' => feed t bs s'
    | .fault f => .fault f
    | .refused r => .refused r

/-- The reassembler of t hunts for a start of frame (spec/42_frame_codec.md R182). -/
def Port.hunting (p : Port) : Prop := p.fsm = .waitSync ∧ p.pos = 0 ∧ p.total = 255

/-- The sender of t waits on a full ring, nothing is in the transmitter and no cause is pending: the hang of
spec/70_reset_and_hazards.md R284. It is wider than R284's words: also a send that began with the ring empty but the transmitter at
work (`was_empty` = 1), with more than 2(N−1) bytes, comes to it by R124 to R128, when it wakes to a drained ring and fills it again
(log 28). -/
structure Hung (t : Transport) (s : State) : Prop where
  started : s.boot = .running
  full : (s.port t).txRing.isFull s.params.n = true
  idleTx : (s.port t).txHw = []
  noCause : (s.port t).threPend = false
  blocked : ∃ r, (s.port t).send = some r ∧ r.i < r.n ∧ r.phase ≠ .sKick ∧ r.phase ≠ .sExit

/-- The transmitter of t is at work: a byte is in the register or its "register empty" cause is pending
(spec/40_ring_transport.md R130). -/
def Port.busy (p : Port) : Prop := p.txHw ≠ [] ∨ p.threPend = true

/-- Transmission keeps going without the sender (R130): `unmasked` is the rule's invariant; the other fields carry it through
the phases in which the sender holds the mask. It holds but for the hang of R284 and the lost kick (`KickLost`; log 28). -/
structure Port.Flows (p : Port) : Prop where
  unmasked : p.maskTx = false → p.txRing.isEmpty = false → p.busy
  sending : ∀ r, p.send = some r → r.phase = .sLoop ∨ r.phase = .sKick → r.wasEmpty = false → p.busy
  exiting : ∀ r, p.send = some r → r.phase = .sExit → p.txRing.isEmpty = false → p.busy
  waiting : ∀ r, p.send = some r → r.phase = .sWait ∨ r.phase = .sRemask → r.i < r.n

/-- A send that found the ring non-empty at entry, was blocked, and wakes to an empty ring and an idle transmitter: it has
bytes left to enqueue and will not kick (R126; log 28). It can happen for every N, so the waits that R293 says end with N ≥ 256 and a
working transmitter need not end after it. -/
structure KickLost (t : Transport) (s : State) : Prop where
  idleTx : (s.port t).txHw = []
  noCause : (s.port t).threPend = false
  drained : (s.port t).txRing.isEmpty = true
  sender : ∃ r, (s.port t).send = some r ∧ r.phase = .sLoop ∧ r.wasEmpty = false ∧ r.i < r.n

/-- No agent of t can ever send again: the transmitter is idle with no cause pending, and bytes stand in the ring that no send
will kick, or the send in progress will not reach a kick (R284; log 28). -/
structure Port.Stalled (c : Params) (p : Port) : Prop where
  idleTx : p.txHw = []
  noCause : p.threPend = false
  stuck : (p.send = none ∧ p.txRing.isEmpty = false) ∨
    ∃ r, p.send = some r ∧
      ((r.wasEmpty = false ∧ p.txRing.isEmpty = false) ∨
        (r.i < r.n ∧ r.phase ≠ .sKick ∧ r.phase ≠ .sExit ∧ (r.wasEmpty = false ∨ p.txRing.isFull c.n = true)))

/-- The part of the quiescent state of spec/70_reset_and_hazards.md R296 that the block itself shows. A listener is blocked in
`R_WAIT` when its `READY` is 0, so that in MAILBOX mode no byte stands unread in the mailbox. -/
structure State.AtRest (s : State) : Prop where
  ports : ∀ t, (s.port t).rxHw = [] ∧ (s.port t).txHw = [] ∧ (s.port t).txRing.isEmpty = true ∧
    (s.params.rxMode = .ring → (s.port t).rxRing.isEmpty = true) ∧ (s.port t).ready = 0 ∧
    (s.port t).asserted = false ∧ (s.port t).send = none ∧ (s.port t).txLock = .free
  de : s.de = .read
  serial : ∀ t, s.ctl (.listener (.serial t)) = .read .wait
  net : s.ctl (.listener .net) = .recv

/-- Every input byte and datagram of the schedule has been delivered (R296). -/
def State.delivered (s : State) : Prop :=
  ∀ w, w ∈ s.sched → (∀ t b, w ≠ .lineIn t b) ∧ ∀ d, w ≠ .netRecv d

/-- The quiescent state of R296, in both RX modes. -/
structure State.Quiescent (s : State) : Prop where
  rest : s.AtRest
  input : s.delivered

/-- The choice the next step of a started block takes (log 2). -/
def State.chosen (s : State) : Choice :=
  match s.sched with
  | w :: _ => w
  | [] => Config.freeChoice s.tick

/-- The state once that choice is taken: the schedule without it, or, where the schedule is empty, the next free choice (log 2). -/
def State.afterChoice (s : State) : State :=
  match s.sched with
  | _ :: rest => { s with sched := rest }
  | [] => { s with tick := s.tick + 1 }

/-- The row of a phase of a send (spec/30_encoding.md R103; spec/40_ring_transport.md R121). -/
def sendRow (t : Transport) : SendPhase → Instr
  | .sLoop => .sendSLoop t
  | .sWait => .sendSWait t
  | .sRemask => .sendSWait t
  | .sKick => .sendSKick t
  | .sExit => .sendSExit t

/-- A run of a started block in which `ch k` is the agent that takes step k (spec/00_scope.md R10). -/
structure IsRun (ch : Nat → Choice) (r : Nat → State) : Prop where
  started : (r 0).boot = .running
  steps : ∀ k, step { r k with sched := [ch k] } = .next (r (k + 1))

/-- Weak fairness towards one agent: enabled from some step on for ever, it is chosen again. -/
def WeaklyFair (ch : Nat → Choice) (r : Nat → State) (w : Choice) (enabled : State → Prop) : Prop :=
  ∀ k, (∀ j, k ≤ j → enabled (r j)) → ∃ j, k ≤ j ∧ ch j = w

/-- The fairness the spec states: a transmitter whose register is non-empty eventually sends (spec/41_uart.md R164). -/
def FairTransmitters (ch : Nat → Choice) (r : Nat → State) : Prop :=
  ∀ t, WeaklyFair ch r (.uartTx t) (fun s => (s.port t).txHw ≠ [])

/-- A task has a step: it is not held back, and the step changes the state. -/
def State.taskEnabled (s : State) (a : TaskId) : Prop :=
  heldBack a s = false ∧ taskStep a { s with cur := a } ≠ .next { s with cur := a }

/-- The fairness that termination claims rest on, of UART_TX, IRQ_TX, IRQ_RX and the tasks (spec/00_scope.md R11). -/
structure FairAgents (ch : Nat → Choice) (r : Nat → State) : Prop where
  transmitters : FairTransmitters ch r
  irqTx : ∀ t, WeaklyFair ch r (.irqTx t) (fun s => (s.port t).irqTxEnabled = true)
  irqRx : ∀ t, WeaklyFair ch r (.irqRx t) (fun s => (s.port t).irqRxEnabled = true)
  tasks : ∀ a, WeaklyFair ch r (.task a) (fun s => s.taskEnabled a)

/-- The values written to `DE` after the value `d`, oldest first, each differ from the one before, and the last one (`d` where
none was written) is `e` (spec/43_dispatch.md R213; spec/95_test_vectors.md V97). -/
def alternates (d e : Dir) : List Dir → Prop
  | [] => d = e
  | x :: rest => x ≠ d ∧ alternates x e rest

/-- The transport a port operation of one transport acts for (spec/10_state.md R20). -/
def actsFor : Instr → Option Transport
  | .sendLine t _ _ => some t
  | .sendRaw t _ _ => some t
  | .sendSLoop t => some t
  | .sendSWait t => some t
  | .sendSKick t => some t
  | .sendSExit t => some t
  | .irqTx t => some t
  | .irqRxMailbox t => some t
  | .irqRxRing t => some t
  | .readLine t => some t
  | .uartTx t => some t
  | .lineIn t _ => some t
  | .baudLoad t => some t
  | .fsmStepWaitSync t _ => some t
  | .fsmStepAccumulate t _ => some t
  | _ => none

/-- `x` is `m` bytes that agree with the operand `b` wherever `b` has a byte (log 15). -/
def Fills (b : List Byte) (m : Nat) (x : List Byte) : Prop :=
  x.length = m ∧ ∀ j, j < m → j < b.length → x[j]? = b[j]?

/-- ENQ of each byte in order (spec/20_memory.md R80). -/
def enqAll (m : Nat) (r : Ring) : List Byte → Except Fault Ring
  | [] => .ok r
  | b :: bs =>
    match r.enq m b with
    | .error f => .error f
    | .ok r' => enqAll m r' bs

/-- The premise `GuardCoversDrain` of spec/70_reset_and_hazards.md R288 at the moment of X_DE_OFF. -/
def State.guardCoversDrain (s : State) : Prop :=
  (s.port .rs485).txRing.isEmpty = true ∧ (s.port .rs485).txHw = []

end Sys2Proof.Machine
end

