-- ==== Sys2Proof/Certificates/Slice0/Obligations.lean ====
section
/-!
DEFINITION. Sys2Proof/Certificates/Slice0/Obligations.lean: the statements for the provers. Each formalises rules of spec/; the
docstring names them. A statement about one operation gives the whole next state as an update of the state before, so that
every field it does not name is unchanged; bytes of an array are spoken of through `Memory.lookup`, at every index.
-/

section
open Sys2Proof Sys2Proof.Machine

/-! ### The codec -/

/-- spec/42_frame_codec.md R180: the sum modulo 256, formed wide or in 8 bits, and independent of the order. That CHECKSUM runs as a step
of its own, which leaves the sum in `ret`, is the model's (logs 14 and 33). -/
def Obligations.ChecksumIsTheByteSum : Prop :=
  ∀ (b : List Byte) (m : Nat) (s : State), 5 ≤ m → m ≤ b.length →
    ∃ k : Byte, exec (.checksum b m) s = .next (s.setRet (.byte k)) ∧
      k.toNat = ((b.take m).map (fun x => x.toNat)).sum % 256 ∧
      k = (b.take m).foldl (fun acc x => acc + x) 0#8 ∧
      ∀ b' : List Byte, m ≤ b'.length → (b'.take m).Perm (b.take m) →
        exec (.checksum b' m) s = .next (s.setRet (.byte k))

/-- R181: the frame ENCODE builds, byte by byte. That ENCODE runs as a step of its own, which leaves the frame in `ret`, is the model's
(logs 14 and 33). -/
def Obligations.EncodeBuildsTheFrame : Prop :=
  ∀ (id ty ch : Byte) (p : List Byte) (l : Nat) (s : State), l ≤ 249 → p.length = l →
    ∃ f : List Byte, exec (.encode id ty ch p l) s = .next (s.setRet (.frame f)) ∧ f.length = l + 6 ∧
      f[0]? = some 62#8 ∧ f[1]? = some id ∧ f[2]? = some ty ∧ f[3]? = some ch ∧ f[4]? = some (BitVec.ofNat 8 l) ∧
      (∀ j, j < l → f[5 + j]? = p[j]?) ∧ f[5 + l]? = some (checksum f (5 + l))

/-- R183: the reassembler hunting for SOF. R182 has FSM_STEP only inside R_TAKE; that it runs here as a step of its own, whatever the
listener's program point and the masks, is the model's choice (log 33). -/
def Obligations.WaitSyncTakesOnlySof : Prop :=
  ∀ (t : Transport) (b : Byte) (s : State), (s.port t).fsm = .waitSync →
    (b = 62#8 → ∃ m, exec (.fsmStepWaitSync t b) s =
        .next (s.setPort t { s.port t with rxBuf := m, pos := 1, fsm := .accumulate }) ∧
      ∀ a, m.lookup a = if a = 0 then some b else (s.port t).rxBuf.lookup a) ∧
    (b ≠ 62#8 → exec (.fsmStepWaitSync t b) s = .next s)

/-- R184: the reassembler appending a byte. `POS ≤ 254` while it accumulates is a clause of the invariant. FSM_STEP as a step of its own
is the model's choice (log 33). -/
def Obligations.AccumulateAppends : Prop :=
  ∀ (t : Transport) (b : Byte) (s : State), (s.port t).fsm = .accumulate → (s.port t).pos ≤ 254 →
    ∃ m, exec (.fsmStepAccumulate t b) s =
        .next (s.setPort t { s.port t with
          rxBuf := m
          total := if (s.port t).pos = 4 then min (b.toNat + 6) 255 else (s.port t).total
          pos := (s.port t).pos + 1
          fsm := if (s.port t).pos + 1 = (if (s.port t).pos = 4 then min (b.toNat + 6) 255 else (s.port t).total)
            then .done else .accumulate }) ∧
      ∀ a, m.lookup a = if a = (s.port t).pos then some b else (s.port t).rxBuf.lookup a

/-- R190: encoding then decoding gives the fields back, on a serial port and on the network port. R190 feeds the bytes to the
reassembler; that each is an FSM_STEP of its own, outside R_TAKE, is the model's choice (log 33). -/
def Obligations.FrameRoundTrip : Prop :=
  ∀ (id ty ch : Byte) (p : List Byte) (t : Transport) (s : State), p.length ≤ 249 → (s.port t).hunting →
    let f := frameBytes id ty ch p
    (∃ q, feed t f s = .next (s.setPort t q) ∧
      q = { s.port t with rxBuf := q.rxBuf, fsm := .done, pos := p.length + 6, total := p.length + 6 } ∧
      ∀ a, q.rxBuf.lookup a = if a < p.length + 6 then f[a]? else (s.port t).rxBuf.lookup a) ∧
    (∀ k, k < f.length → ∃ q, feed t (f.take k) s = .next (s.setPort t q) ∧ q.fsm ≠ .done) ∧
    exec (.validate f (p.length + 6)) s = .next (s.setRet (.verdict true)) ∧
    exec (.netValidate f (p.length + 6)) s = .next (s.setRet (.verdict true)) ∧
    exec (.parse f) s = .next (s.setRet (.parsed
      { deviceID := id, dataType := ty, channel := ch, length := BitVec.ofNat 8 p.length, payload := p }))

/-- R187: a flipped bit outside the length byte is rejected. -/
def Obligations.SingleBitFlipIsRejected : Prop :=
  ∀ (id ty ch : Byte) (p : List Byte) (k j : Nat) (s : State), p.length ≤ 249 → k < p.length + 6 → k ≠ 4 → j < 8 →
    let f := (frameBytes id ty ch p).modify k (fun x => x ^^^ (1#8 <<< j))
    exec (.validate f (p.length + 6)) s = .next (s.setRet (.verdict false)) ∧
    exec (.netValidate f (p.length + 6)) s = .next (s.setRet (.verdict false))

/-- R186: VALIDATE on a candidate of READ_LINE, whose size its length byte fixes (R184). -/
def Obligations.ValidateAcceptsExactly : Prop :=
  ∀ (x : List Byte) (l : Byte) (total : Nat) (s : State), x[4]? = some l → total = min (l.toNat + 6) 255 →
    x.length = total →
    ∃ v : Bool, exec (.validate x total) s = .next (s.setRet (.verdict v)) ∧
      (v = true ↔ l.toNat ≤ 249 ∧ x[5 + l.toNat]? = some (checksum x (5 + l.toNat)))

/-- R188: NET_VALIDATE on every datagram; the bytes after the candidate are ignored. That PARSE of a datagram NET_VALIDATE rejects also
answers, and reads only those bytes, is the model's choice, not R189's (log 27). -/
def Obligations.NetValidateAcceptsExactly : Prop :=
  ∀ (d : List Byte) (s : State),
    ∃ v : Bool, exec (.netValidate d d.length) s = .next (s.setRet (.verdict v)) ∧
      (v = true ↔ 6 ≤ d.length ∧ d[0]? = some 62#8 ∧ ∃ l, d[4]? = some l ∧ l.toNat ≤ 249 ∧ l.toNat + 6 ≤ d.length ∧
        d[5 + l.toNat]? = some (checksum d (5 + l.toNat))) ∧
      ∀ l, d[4]? = some l → l.toNat + 6 ≤ d.length → exec (.parse d) s = exec (.parse (d.take (l.toNat + 6))) s

/-- R189: PARSE of a candidate that is all there. That one which was not accepted is parsed too is the model's choice (log 27). -/
def Obligations.ParseReadsTheFields : Prop :=
  ∀ (x : List Byte) (l : Byte) (s : State), x[4]? = some l → l.toNat + 6 ≤ x.length →
    ∃ pf : ParsedFrame, exec (.parse x) s = .next (s.setRet (.parsed pf)) ∧
      x[1]? = some pf.deviceID ∧ x[2]? = some pf.dataType ∧ x[3]? = some pf.channel ∧ pf.length = l ∧
      pf.payload = (x.drop 5).take l.toNat ∧ pf.payload.length = l.toNat

/-- spec/30_encoding.md R97, R103 and spec/43_dispatch.md R202, R203: the decoder reads back every frame row the encoder writes,
with every operand at every value, and leaves the bytes after it. An emitted status frame is received as S.IGNORE. -/
def Obligations.DecodeOfEncode : Prop :=
  ∀ (i : Instr) (localId : Byte) (bytes rest : List Byte), i.wellFormed = true → encode localId i = some bytes →
    (∀ ch v, i = .sStatus ch v → decode (bytes ++ rest) = .ok (.sIgnore localId ch [v], rest)) ∧
    ((∀ ch v, i ≠ .sStatus ch v) → decode (bytes ++ rest) = .ok (i, rest))

/-- R103: every header word whose byte 0 is 62 is exactly one received row, with the deviceID, dataType and channel of its own
bits, and no other word is a row. -/
def Obligations.HeaderWordSelectsOneRow : Prop :=
  (∀ id ty ch : Byte,
    let w := 62 * 16777216 + id.toNat * 65536 + ty.toNat * 256 + ch.toNat
    let n := ch.toNat
    (ty = 87#8 → 1 ≤ n → n ≤ 9 → decodeTableWord 32 w = some (.wSys id ch [])) ∧
    (ty = 87#8 → 11 ≤ n → n ≤ 19 → decodeTableWord 32 w = some (.wGpio id ch [])) ∧
    (ty = 87#8 → 21 ≤ n → n ≤ 29 → decodeTableWord 32 w = some (.wRelay id ch [])) ∧
    (ty = 87#8 → 31 ≤ n → n ≤ 39 → decodeTableWord 32 w = some (.wRs232 id ch [])) ∧
    (ty = 87#8 → 41 ≤ n → n ≤ 49 → decodeTableWord 32 w = some (.wIr id ch [])) ∧
    (ty = 87#8 → n = 50 → decodeTableWord 32 w = some (.wRs485 id [])) ∧
    (ty = 87#8 → (n = 0 ∨ n = 10 ∨ n = 20 ∨ n = 30 ∨ n = 40 ∨ 51 ≤ n) →
      decodeTableWord 32 w = some (.wIgnore id ch [])) ∧
    (ty = 83#8 → decodeTableWord 32 w = some (.sIgnore id ch [])) ∧
    (ty ≠ 87#8 → ty ≠ 83#8 → decodeTableWord 32 w = some (.xIgnore id ty ch []))) ∧
  ∀ w : Nat, w / 16777216 ≠ 62 → decodeTableWord 32 w = none

/-- spec/30_encoding.md R104 and the examples of spec/43_dispatch.md: frames written out byte by byte. -/
def Obligations.WrittenFramesDecode : Prop :=
  decode [62#8, 1#8, 87#8, 21#8, 1#8, 1#8, 173#8] = .ok (.wRelay 1#8 21#8 [1#8], []) ∧
  decode [62#8, 1#8, 87#8, 31#8, 3#8, 65#8, 66#8, 67#8, 126#8] = .ok (.wRs232 1#8 31#8 [65#8, 66#8, 67#8], []) ∧
  decode [62#8, 1#8, 87#8, 50#8, 2#8, 72#8, 73#8, 91#8] = .ok (.wRs485 1#8 [72#8, 73#8], []) ∧
  decode [62#8, 1#8, 87#8, 42#8, 1#8, 7#8, 200#8] = .ok (.wIr 1#8 42#8 [7#8], []) ∧
  decode [62#8, 1#8, 83#8, 21#8, 1#8, 1#8, 169#8] = .ok (.sIgnore 1#8 21#8 [1#8], []) ∧
  decode [62#8, 1#8, 87#8, 60#8, 0#8, 210#8] = .ok (.wIgnore 1#8 60#8 [], []) ∧
  decode [62#8, 1#8, 87#8, 21#8, 1#8, 1#8, 0#8] = .error .badChecksum

/-! ### The router -/

/-- spec/43_dispatch.md R201: which frames FILTER drops; by default every path filters. That FILTER runs as a step of its own, which
leaves its answer in `ret`, is the model's (logs 14 and 33), and so is its answer on a parsed frame that no PARSE returns (log 32). -/
def Obligations.FilterDropsForeignFrames : Prop :=
  (∀ (pf : ParsedFrame) (p : Path) (s : State),
    ∃ pass : Bool, exec (.filter pf p) s = .next (s.setRet (.passed pass)) ∧
      (pass = false ↔ s.params.filterOn p = true ∧ pf.deviceID ≠ s.localId)) ∧
  ∀ p : Path, Params.default.filterOn p = true

/-- R203: the channel selects exactly one command. That DISPATCH runs as a step of its own, which leaves the command in `ret`, is the
model's (logs 14 and 33), and so is that the payload of a parsed frame that no PARSE returns (more than 249 bytes, or of another size
than the length byte) is passed on as it is (log 32). -/
def Obligations.DispatchSelectsByChannel : Prop :=
  ∀ (pf : ParsedFrame) (s : State),
    let n := pf.channel.toNat
    ∃ i : Instr, exec (.dispatch pf) s = .next (s.setRet (.selected i)) ∧
      (1 ≤ n → n ≤ 9 → i = .wSys pf.deviceID pf.channel pf.payload) ∧
      (11 ≤ n → n ≤ 19 → i = .wGpio pf.deviceID pf.channel pf.payload) ∧
      (21 ≤ n → n ≤ 29 → i = .wRelay pf.deviceID pf.channel pf.payload) ∧
      (31 ≤ n → n ≤ 39 → i = .wRs232 pf.deviceID pf.channel pf.payload) ∧
      (41 ≤ n → n ≤ 49 → i = .wIr pf.deviceID pf.channel pf.payload) ∧
      (n = 50 → i = .wRs485 pf.deviceID pf.payload) ∧
      ((n = 0 ∨ n = 10 ∨ n = 20 ∨ n = 30 ∨ n = 40 ∨ 51 ≤ n) → i = .wIgnore pf.deviceID pf.channel pf.payload)

/-- R202, R204, R205, R212: a reserved, unassigned or non-write frame has no effect. That it takes one step of L_ACT (R222), which
only ends the task's command, is the model's (log 10), and so is that a row run with a channel outside its list, or X.IGNORE with
a dataType of another row, does the same (log 29), that a row run for a task that is not at L_ACT does (log 30), and one with a
payload of more than 249 bytes (log 32). -/
def Obligations.IgnoredFramesHaveNoEffect : Prop :=
  ∀ (id ty ch : Byte) (p : List Byte) (s : State),
    exec (.wSys id ch p) s = .next (s.setCtl s.cur (doneLabel s.cur)) ∧
    exec (.wGpio id ch p) s = .next (s.setCtl s.cur (doneLabel s.cur)) ∧
    exec (.wIgnore id ch p) s = .next (s.setCtl s.cur (doneLabel s.cur)) ∧
    exec (.sIgnore id ch p) s = .next (s.setCtl s.cur (doneLabel s.cur)) ∧
    exec (.xIgnore id ty ch p) s = .next (s.setCtl s.cur (doneLabel s.cur))

/-- R206, R207: a relay write sets one relay to payload[0] and goes on to the status fan-out of channel 20 + k; without an
operand, or for a relay that is not fitted, nothing happens. That such an ignored command takes one step of L_ACT (R222), which ends
the task's command, and that F_NET is a step after this one, is the model's (DEDUCED, log 10); so is that it is so for a task that is
not at L_ACT too (log 30) and for a payload of more than 249 bytes (log 32). -/
def Obligations.RelayWriteSetsOneRelay : Prop :=
  ∀ (id ch : Byte) (s : State), 21 ≤ ch.toNat → ch.toNat ≤ 29 →
    (∀ (v : Byte) (more : List Byte), ch.toNat - 20 ≤ s.params.numRelays →
      ∃ rs : Vector Byte 9, exec (.wRelay id ch (v :: more)) s =
          .next (State.setCtl { s with relays := rs } s.cur (.act (.fNet ch v))) ∧
        ∀ k, 1 ≤ k → k ≤ 9 →
          ({ s with relays := rs } : State).relay k = if k = ch.toNat - 20 then v else s.relay k) ∧
    exec (.wRelay id ch []) s = .next (s.setCtl s.cur (doneLabel s.cur)) ∧
    ∀ p : List Byte, s.params.numRelays < ch.toNat - 20 →
      exec (.wRelay id ch p) s = .next (s.setCtl s.cur (doneLabel s.cur))

/-- R208: W.RS232 takes the lock of the port its channel names, sends the whole payload by SEND_RAW, taking the row of its
phase while the send is in progress (R121), and frees the lock; channels 33 to 39 name no port. While the lock is taken the task
has no step (R75). The split into steps of the task is the model's (log 10), and so is the first step of a task that is not at L_ACT
(log 30) or of a payload of more than 249 bytes (log 32). -/
def Obligations.Rs232ForwardIsALockedSend : Prop :=
  (∀ (id ch : Byte) (u : Transport) (p : List Byte) (s : State),
    (ch = 31#8 ∧ u = .rs232_1 ∨ ch = 32#8 ∧ u = .rs232_2) →
    ((s.port u).txLock = .free → exec (.wRs232 id ch p) s =
      .next ((s.setPort u { s.port u with txLock := .held s.cur }).setCtl s.cur (.act (.fwd u .send p)))) ∧
    (∀ a, (s.port u).txLock = .held a → exec (.wRs232 id ch p) s = .next s)) ∧
  (∀ (id ch : Byte) (p : List Byte) (s : State), 33 ≤ ch.toNat → ch.toNat ≤ 39 →
    exec (.wRs232 id ch p) s = .next (s.setCtl s.cur (doneLabel s.cur))) ∧
  ∀ (a : TaskId) (u : Transport) (p : List Byte) (s : State),
    (s.ctl a = .act (.fwd u .send p) → (s.port u).send = none →
      taskStep a s = exec (.sendRaw u p p.length) s) ∧
    (∀ r, s.ctl a = .act (.fwd u .send p) → (s.port u).send = some r →
      taskStep a s = exec (sendRow u r.phase) s) ∧
    (s.ctl a = .act (.fwd u .free p) →
      taskStep a s = .next ((s.setPort u { s.port u with txLock := .free }).setCtl a (doneLabel a)))

/-- R210: one `ir_trig` event, or nothing without an operand. That the step also ends the turn of a task that is not at L_ACT is the
model's (logs 10 and 30), and so is the event of a payload of more than 249 bytes (log 32). -/
def Obligations.IrTriggerEmitsOneEvent : Prop :=
  ∀ (id ch : Byte) (s : State), 41 ≤ ch.toNat → ch.toNat ≤ 49 →
    (∀ (v : Byte) (more : List Byte), exec (.wIr id ch (v :: more)) s =
      .next (State.setCtl { s with irLog := s.irLog ++ [(ch.toNat - 40, v)] } s.cur (doneLabel s.cur))) ∧
    exec (.wIr id ch []) s = .next (s.setCtl s.cur (doneLabel s.cur))

/-- R211: W.RS485 enters the bracket RS485_TX(RAW, payload, L) at X_LOCK. That X_LOCK is the
first step of the command is the model's (log 10), and so is that a task that is not at L_ACT takes it (log 30), and for a payload of
more than 249 bytes (log 32). -/
def Obligations.Rs485ForwardEntersTheBracket : Prop :=
  ∀ (id : Byte) (p : List Byte) (s : State),
    ((s.port .rs485).txLock = .free → exec (.wRs485 id p) s =
      .next ((s.setPort .rs485 { s.port .rs485 with txLock := .held s.cur }).setCtl s.cur
        (.act (.bus .deOn .raw p p.length)))) ∧
    (∀ a, (s.port .rs485).txLock = .held a → exec (.wRs485 id p) s = .next s)

/-- R213: the steps of RS485_TX by the calling task, in order; a task outside every bracket begins at X_LOCK (one that is not at L_ACT
too: the model's choice, log 30), and has no step while the lock is taken (R75). That each exec is one step of the bracket, the rest of it
being the task's program point, is the model's (log 10). At X_SEND the send begins, and while it is in progress the task takes the row of its phase
(R121), whose last, S_EXIT, leads on to X_POST (`SendExitReturnsToCaller`). -/
def Obligations.BracketStepsInOrder : Prop :=
  ∀ (k : TxKind) (b : List Byte) (m : Nat) (s : State),
    ((∀ ph k' b' m', s.ctl s.cur ≠ .act (.bus ph k' b' m')) ∨ s.ctl s.cur = .act (.bus .lock k b m) →
      (∀ a, (s.port .rs485).txLock = .held a → exec (.rs485Tx k b m) s = .next s) ∧
      ((s.port .rs485).txLock = .free → exec (.rs485Tx k b m) s = .next
        ((s.setPort .rs485 { s.port .rs485 with txLock := .held s.cur }).setCtl s.cur (.act (.bus .deOn k b m))))) ∧
    (s.ctl s.cur = .act (.bus .deOn k b m) → exec (.rs485Tx k b m) s =
      .next (State.setCtl { s with de := .write, deLog := s.deLog ++ [.write] } s.cur (.act (.bus .pre k b m)))) ∧
    (s.ctl s.cur = .act (.bus .pre k b m) → exec (.rs485Tx k b m) s =
      .next (s.setCtl s.cur (.act (.bus .send k b m)))) ∧
    (s.ctl s.cur = .act (.bus .send k b m) → (s.port .rs485).send = none → exec (.rs485Tx k b m) s =
      exec (match k with
        | .frame => .sendLine .rs485 b m
        | .raw => .sendRaw .rs485 b m) s) ∧
    (∀ r, s.ctl s.cur = .act (.bus .send k b m) → (s.port .rs485).send = some r → exec (.rs485Tx k b m) s =
      exec (sendRow .rs485 r.phase) s) ∧
    (s.ctl s.cur = .act (.bus .post k b m) → exec (.rs485Tx k b m) s =
      .next (s.setCtl s.cur (.act (.bus .deOff k b m)))) ∧
    (s.ctl s.cur = .act (.bus .deOff k b m) → exec (.rs485Tx k b m) s =
      .next (State.setCtl { s with de := .read, deLog := s.deLog ++ [.read] } s.cur (.act (.bus .unlock k b m)))) ∧
    (s.ctl s.cur = .act (.bus .unlock k b m) → exec (.rs485Tx k b m) s =
      .next ((s.setPort .rs485 { s.port .rs485 with txLock := .free }).setCtl s.cur (doneLabel s.cur)))

/-- R213 (spec/95_test_vectors.md V97): brackets do not interleave, so the values written to `DE` alternate and the last one
stands on the pin. -/
def Obligations.BracketsAlternate : Prop :=
  ∀ s s' : State, s.Inv → alternates .read s.de s.deLog → step s = .next s' → alternates .read s'.de s'.deLog

/-- R214: the seven bytes of a status frame. That S.STATUS, run as an operation, returns the frame to its caller is the model's
(log 25). -/
def Obligations.StatusFrameBytes : Prop :=
  ∀ (ch v : Byte) (s : State), exec (.sStatus ch v) s =
    .next (s.setRet (.frame [62#8, s.localId, 83#8, ch, 1#8, v, 62#8 + s.localId + 83#8 + ch + 1#8 + v]))

/-- R215, R218: F_NET appends the status frame to `NETOUT`, and the same frame goes on to RS485_TX(FRAME, f, 7). That F_NET
is the step of the fan-out that exec takes, the rest being the task's program point, is the model's (log 10), and so is that a task
which is not about to fan out takes it too (log 30). -/
def Obligations.FanoutGoesToBothMedia : Prop :=
  ∀ (ch v : Byte) (s : State),
    let f := [62#8, s.localId, 83#8, ch, 1#8, v, 62#8 + s.localId + 83#8 + ch + 1#8 + v]
    exec (.statusFanout ch v) s =
      .next (State.setCtl { s with netOut := s.netOut ++ [f] } s.cur (.act (.bus .lock .frame f 7)))

/-- R217: a GPIO event is the fan-out of channel 10 + g by GPIO_SRC; g outside 1..9 is no event of the port. That the event and
F_NET are one step, of a GPIO_SRC that waits for an event, is the model's (log 11), and so is the refusal's name (log 31). -/
def Obligations.GpioEventIsFannedOut : Prop :=
  ∀ (g : Nat) (v : Byte) (s : State),
    (1 ≤ g → g ≤ 9 → s.ctl .gpio = .recv →
      ∃ f, f = [62#8, s.localId, 83#8, BitVec.ofNat 8 (10 + g), 1#8, v,
          62#8 + s.localId + 83#8 + BitVec.ofNat 8 (10 + g) + 1#8 + v] ∧
        exec (.gpioEvt g v) s =
          .next (State.setCtl { s with netOut := s.netOut ++ [f] } .gpio (.act (.bus .lock .frame f 7)))) ∧
    (g = 0 ∨ 10 ≤ g → exec (.gpioEvt g v) s = .refused .noSuchGpioEvent)

/-- R219: a datagram reaches the network listener only at N_RECV. -/
def Obligations.DatagramReachesTheListener : Prop :=
  ∀ (d : List Byte) (s : State),
    (s.ctl (.listener .net) = .recv → exec (.netRecv d d.length) s =
      .next (s.setCtl (.listener .net) (.candidate d d.length))) ∧
    (s.ctl (.listener .net) ≠ .recv → exec (.netRecv d d.length) s = .next s)

/-! ### The sender -/

/-- spec/40_ring_transport.md R122: S_STAGE of SEND_LINE. R122 has a frame of exactly the declared size; that the first n bytes of a
longer one are sent is the model's choice (log 22), and so is that the current task need not be the holder of the lock (log 33). -/
def Obligations.SendLineStages : Prop :=
  ∀ (t : Transport) (frame : List Byte) (n : Nat) (l : Byte) (s : State), frame[4]? = some l → l.toNat ≤ 249 →
    n = l.toNat + 6 → n ≤ frame.length → (s.port t).txLock ≠ .free → (s.port t).send = none →
    ∃ m, exec (.sendLine t frame n) s =
        .next (s.setPort t { s.port t with
          stage := m
          maskTx := true
          send := some
            { n := n, i := 0, phase := .sLoop,
              wasEmpty := decide ((s.port t).txRing.inIdx = (s.port t).txRing.outIdx) } }) ∧
      ∀ a, m.lookup a = if a < n then frame[a]? else (s.port t).stage.lookup a

/-- R123: S_STAGE of SEND_RAW. R123 has a sequence of exactly m bytes; that the first m bytes of a longer one are sent is the
model's choice (log 22), and so is that the current task need not be the holder of the lock (log 33). -/
def Obligations.SendRawStages : Prop :=
  ∀ (t : Transport) (bytes : List Byte) (m : Nat) (s : State), m ≤ 249 → m ≤ bytes.length →
    (s.port t).txLock ≠ .free → (s.port t).send = none →
    ∃ st, exec (.sendRaw t bytes m) s =
        .next (s.setPort t { s.port t with
          stage := st
          maskTx := true
          send := some
            { n := m, i := 0, phase := .sLoop,
              wasEmpty := decide ((s.port t).txRing.inIdx = (s.port t).txRing.outIdx) } }) ∧
      ∀ a, st.lookup a = if a < m then bytes[a]? else (s.port t).stage.lookup a

/-- R124: the three branches of S_LOOP, the ring's slots being `N` and full meaning `(in + 1) mod N = out`. -/
def Obligations.SendLoopEnqueues : Prop :=
  ∀ (t : Transport) (r : SendRec) (s : State), (s.port t).send = some r → r.phase = .sLoop →
    (s.port t).maskTx = true →
    let p := s.port t
    let R := p.txRing
    let N := s.params.n
    (r.i = r.n → exec (.sendSLoop t) s = .next (s.setPort t { p with send := some { r with phase := .sKick } })) ∧
    (r.i ≠ r.n → (R.inIdx + 1) % N = R.outIdx → exec (.sendSLoop t) s =
      .next (s.setPort t { p with maskTx := false, send := some { r with phase := .sWait } })) ∧
    (∀ b, r.i ≠ r.n → (R.inIdx + 1) % N ≠ R.outIdx → r.i ≤ 254 → p.stage.lookup r.i = some b → R.inIdx < N →
      ∃ m, exec (.sendSLoop t) s = .next (s.setPort t { p with
          txRing := { slots := m, inIdx := (R.inIdx + 1) % N, outIdx := R.outIdx }
          send := some { r with i := r.i + 1 } }) ∧
        ∀ a, m.lookup a = if a = R.inIdx then some b else R.slots.lookup a)

/-- R125: S_WAIT and S_REMASK; no step while `ROOM` is 0. That exec of a sender without a step leaves the state as it is, is the model's
(log 3). -/
def Obligations.SendWaitsForRoom : Prop :=
  ∀ (t : Transport) (r : SendRec) (s : State), (s.port t).send = some r →
    (r.phase = .sWait → 0 < (s.port t).room → exec (.sendSWait t) s =
      .next (s.setPort t { s.port t with
        room := (s.port t).room - 1
        send := some { r with phase := .sRemask } })) ∧
    (r.phase = .sWait → (s.port t).room = 0 → exec (.sendSWait t) s = .next s) ∧
    (r.phase = .sRemask → exec (.sendSWait t) s =
      .next (s.setPort t { s.port t with maskTx := true, send := some { r with phase := .sLoop } }))

/-- R126: the kick moves the byte at `out` into the transmit register, or nothing moves. -/
def Obligations.SendKicksOneByte : Prop :=
  ∀ (t : Transport) (r : SendRec) (s : State), (s.port t).send = some r → r.phase = .sKick →
    (s.port t).maskTx = true →
    let p := s.port t
    let R := p.txRing
    (∀ b, r.wasEmpty = true → p.txHw.length < s.params.txHwDepth → R.inIdx ≠ R.outIdx → R.outIdx < s.params.n →
      R.slots.lookup R.outIdx = some b → exec (.sendSKick t) s =
        .next (s.setPort t { p with
          txRing := { R with outIdx := (R.outIdx + 1) % s.params.n }
          txHw := p.txHw ++ [b]
          send := some { r with phase := .sExit } })) ∧
    ((r.wasEmpty = false ∨ s.params.txHwDepth ≤ p.txHw.length ∨ R.inIdx = R.outIdx) →
      exec (.sendSKick t) s = .next (s.setPort t { p with send := some { r with phase := .sExit } }))

/-- R127: S_EXIT unmasks and returns to the caller, which goes on to free the lock (W.RS232, R208) or to X_POST (R213). How the return
moves the caller is the model's (log 12), and so is that no task moves where the lock has no holder at a send on t (log 33). -/
def Obligations.SendExitReturnsToCaller : Prop :=
  ∀ (t : Transport) (r : SendRec) (s : State), (s.port t).send = some r → r.phase = .sExit →
    let s1 := s.setPort t { s.port t with maskTx := false, send := none }
    (∀ a b, (s.port t).txLock = .held a → s.ctl a = .act (.fwd t .send b) →
      exec (.sendSExit t) s = .next (s1.setCtl a (.act (.fwd t .free b)))) ∧
    (∀ a k b m, t = .rs485 → (s.port t).txLock = .held a → s.ctl a = .act (.bus .send k b m) →
      exec (.sendSExit t) s = .next (s1.setCtl a (.act (.bus .post k b m)))) ∧
    ((∀ a, (s.port t).txLock = .held a → (s.ctl a).sendsOn t = false) → exec (.sendSExit t) s = .next s1)

/-! ### The handlers -/

/-- R128, R129: the drain moves as many of the ring's oldest bytes as the transmit register takes, clears the cause, and
releases `ROOM` exactly once unless the ring is still full. -/
def Obligations.DrainMovesOldestBytes : Prop :=
  ∀ (t : Transport) (s : State), s.params.wf → (s.port t).Ok s.params → (s.port t).threPend = true →
    (s.port t).maskTx = false → (s.port t).maskRx = false →
    let p := s.port t
    let R := p.txRing
    let N := s.params.n
    let k := min (s.params.txHwDepth - p.txHw.length) (R.count N)
    exec (.irqTx t) s = .next (s.setPort t { p with
      threPend := false
      txHw := p.txHw ++ (R.bytes N).take k
      txRing := { R with outIdx := (R.outIdx + k) % N }
      room := if k = 0 ∧ R.count N = N - 1 then p.room else p.room + 1 })

/-- R134: MAILBOX mode keeps the last byte and releases `READY` once per byte. -/
def Obligations.MailboxKeepsTheLastByte : Prop :=
  ∀ (t : Transport) (older : List Byte) (b : Byte) (s : State), s.params.rxMode = .mailbox →
    (s.port t).rxHw = older ++ [b] → (s.port t).maskTx = false → (s.port t).maskRx = false →
    exec (.irqRxMailbox t) s = .next (s.setPort t { s.port t with
      rxHw := []
      mbox := b
      ready := (s.port t).ready + older.length + 1 })

/-- R135: RING mode takes the bytes that fit, in order, one release each; a byte that finds the ring full is dropped and sets
the sticky flag. -/
def Obligations.RingTakesTheBytesThatFit : Prop :=
  ∀ (t : Transport) (s : State), s.params.wf → (s.port t).Ok s.params → s.params.rxMode = .ring →
    (s.port t).rxHw ≠ [] → (s.port t).maskTx = false → (s.port t).maskRx = false →
    let p := s.port t
    let R := p.rxRing
    let M := s.params.rxn
    let k := min p.rxHw.length (M - 1 - R.count M)
    ∃ m, exec (.irqRxRing t) s = .next (s.setPort t { p with
        rxHw := []
        rxRing := { slots := m, inIdx := (R.inIdx + k) % M, outIdx := R.outIdx }
        ready := p.ready + k
        rxOverrun := p.rxOverrun || decide (k < p.rxHw.length) }) ∧
      (∀ j, j < k → m.lookup ((R.inIdx + j) % M) = p.rxHw[j]?) ∧
      ∀ a, (∀ j, j < k → a ≠ (R.inIdx + j) % M) → m.lookup a = R.slots.lookup a

/-- spec/60_exceptions.md R246: a masked source, or one without its cause, takes no handler; nothing changes. -/
def Obligations.DisabledHandlersDoNotStep : Prop :=
  ∀ (t : Transport) (s : State),
    ((s.port t).threPend = false ∨ (s.port t).maskTx = true ∨ (s.port t).maskRx = true →
      exec (.irqTx t) s = .next s) ∧
    ((s.port t).rxHw = [] ∨ (s.port t).maskTx = true ∨ (s.port t).maskRx = true →
      exec (.irqRxMailbox t) s = .next s ∧ exec (.irqRxRing t) s = .next s)

/-! ### The reader -/

/-- spec/40_ring_transport.md R137: the phases of READ_LINE but R_TAKE. -/
def Obligations.ReadLinePhases : Prop :=
  ∀ (t : Transport) (s : State),
    let a := TaskId.listener (.serial t)
    let p := s.port t
    (s.ctl a = .read .enter → exec (.readLine t) s =
      .next ((s.setPort t { p with maskRx := true, fsm := .waitSync, pos := 0, total := 255 }).setCtl a
        (.read .unmask))) ∧
    (s.ctl a = .read .unmask → exec (.readLine t) s =
      .next ((s.setPort t { p with maskRx := false }).setCtl a (.read .wait))) ∧
    (s.ctl a = .read .wait → 0 < p.ready → exec (.readLine t) s =
      .next ((s.setPort t { p with ready := p.ready - 1 }).setCtl a (.read .remask))) ∧
    (s.ctl a = .read .wait → p.ready = 0 → exec (.readLine t) s = .next s) ∧
    (s.ctl a = .read .remask → exec (.readLine t) s =
      .next ((s.setPort t { p with maskRx := true }).setCtl a (.read .take))) ∧
    (s.ctl a = .read .exit → p.total ≤ 255 → (∀ j, j < p.total → p.rxBuf.lookup j ≠ none) →
      ∃ x : List Byte, exec (.readLine t) s =
          .next ((s.setPort t { p with maskRx := false }).setCtl a (.candidate x p.total)) ∧
        x.length = p.total ∧ ∀ j, j < p.total → x[j]? = p.rxBuf.lookup j)

/-- R137, R138: R_TAKE takes the mailbox as it stands, or the byte at `out` of the RX ring, and makes one step of the
reassembler; DONE leads to R_EXIT. -/
def Obligations.TakeFeedsTheReassembler : Prop :=
  ∀ (t : Transport) (b : Byte) (p' : Port) (s : State), s.ctl (.listener (.serial t)) = .read .take →
    (s.port t).maskRx = true → ((s.port t).fsm = .accumulate → (s.port t).pos ≤ 254) →
    (s.params.rxMode = .mailbox ∧ b = (s.port t).mbox ∧ p' = s.port t ∨
      s.params.rxMode = .ring ∧ (s.port t).rxRing.inIdx ≠ (s.port t).rxRing.outIdx ∧
        (s.port t).rxRing.outIdx < s.params.rxn ∧
        (s.port t).rxRing.slots.lookup (s.port t).rxRing.outIdx = some b ∧
        p' = { s.port t with rxRing := { (s.port t).rxRing with
          outIdx := ((s.port t).rxRing.outIdx + 1) % s.params.rxn } }) →
    ∃ q : Port, feed t [b] (s.setPort t p') = .next (s.setPort t q) ∧
      exec (.readLine t) s = .next ((s.setPort t q).setCtl (.listener (.serial t))
        (.read (if q.fsm = .done then .exit else .unmask)))

/-- spec/60_exceptions.md R243: the uses of the block outside what the spec defines stop the model. That S_LOOP, S_KICK and R_TAKE
without the claim are such a use, also where S_LOOP touches no ring (i = n), and not steps that are not enabled (R140), is the
model's (log 16). -/
def Obligations.MisuseIsAFault : Prop :=
  ∀ (t : Transport) (s : State),
    (∀ r, (s.port t).send = some r → (s.port t).maskTx = false →
      (r.phase = .sLoop → exec (.sendSLoop t) s = .fault .contractViolation) ∧
      (r.phase = .sKick → exec (.sendSKick t) s = .fault .contractViolation)) ∧
    (s.ctl (.listener (.serial t)) = .read .take →
      ((s.port t).maskRx = false ∨
        s.params.rxMode = .ring ∧ (s.port t).rxRing.inIdx = (s.port t).rxRing.outIdx) →
      exec (.readLine t) s = .fault .contractViolation) ∧
    (∀ (frame : List Byte) (n : Nat) (l : Byte), frame[4]? = some l → (249 < l.toNat ∨ n ≠ l.toNat + 6) →
      exec (.sendLine t frame n) s = .fault .sendLengthMismatch) ∧
    (∀ (bytes : List Byte) (m : Nat), 249 < m → exec (.sendRaw t bytes m) s = .fault .sendLengthMismatch) ∧
    (s.boot = .running → exec (.baudLoad t) s = .fault .configAfterStart)

/-- Operands outside the domain a rule gives, where the spec states no result: the operation runs, with a free value for each byte
that is not there, for CHECKSUM of fewer than 5 bytes and for ENCODE of more than 249; every byte that is there counts as the rule
says, every other effect of the operation happens, and an operation that uses a free value advances the model's counter once. Of a
longer operand the first bytes are taken. All this is the model's choice (logs 15, 22 and 26), and so is the name of the fault of a
SEND_LINE whose declared length is that of no frame (R243; log 22). -/
def Obligations.OperandsOutsideTheDomainRun : Prop :=
  ∀ s : State,
    let s1 : State := { s with tick := s.tick + 1 }
    (∀ (b : List Byte) (m : Nat), 5 ≤ m → b.length < m →
      ∃ x, Fills b m x ∧ exec (.checksum b m) s = .next (s1.setRet (.byte (checksum x m)))) ∧
    (∀ (b : List Byte) (m : Nat), m < 5 → ∃ k, exec (.checksum b m) s = .next (s1.setRet (.byte k))) ∧
    (∀ (id ty ch : Byte) (p : List Byte) (l : Nat), l ≤ 249 →
      (p.length < l → ∃ x, Fills p l x ∧
        exec (.encode id ty ch p l) s = .next (s1.setRet (.frame (frameBytes id ty ch x)))) ∧
      (l ≤ p.length → exec (.encode id ty ch p l) s = .next (s.setRet (.frame (frameBytes id ty ch (p.take l)))))) ∧
    (∀ (id ty ch : Byte) (p : List Byte) (l : Nat), 249 < l →
      ∃ f, exec (.encode id ty ch p l) s = .next (s1.setRet (.frame f))) ∧
    (∀ (x : List Byte) (n : Nat), ∃ (y : List Byte) (l : Byte) (v : Bool) (k : Nat),
      Fills (x.take n) 255 y ∧ y[4]? = some l ∧
      exec (.validate x n) s = .next (State.setRet { s with tick := k } (.verdict v)) ∧
      (v = true ↔ l.toNat ≤ 249 ∧ y[5 + l.toNat]? = some (checksum y (5 + l.toNat))) ∧
      k = if min n x.length ≤ 4 ∨ l.toNat ≤ 249 ∧ min n x.length ≤ 5 + l.toNat then s.tick + 1 else s.tick) ∧
    (∀ (d : List Byte) (n : Nat), ∃ (y : List Byte) (v : Bool), Fills d n y ∧
      exec (.netValidate d n) s = .next (State.setRet { s with tick := if d.length < n then s.tick + 1 else s.tick } (.verdict v)) ∧
      (v = true ↔ 6 ≤ n ∧ y[0]? = some 62#8 ∧ ∃ l, y[4]? = some l ∧ l.toNat ≤ 249 ∧ l.toNat + 6 ≤ n ∧
        y[5 + l.toNat]? = some (checksum y (5 + l.toNat)))) ∧
    (∀ x : List Byte, ∃ (y : List Byte) (pf : ParsedFrame), Fills x 260 y ∧
      exec (.parse x) s = .next (State.setRet { s with
        tick := if x.length < 5 + pf.length.toNat then s.tick + 1 else s.tick } (.parsed pf)) ∧
      y[1]? = some pf.deviceID ∧ y[2]? = some pf.dataType ∧ y[3]? = some pf.channel ∧ y[4]? = some pf.length ∧
      pf.payload = (y.drop 5).take pf.length.toNat) ∧
    (∀ (d : List Byte) (n : Nat),
      (s.ctl (.listener .net) = .recv → ∃ y, Fills d n y ∧ exec (.netRecv d n) s =
        .next (State.setCtl { s with tick := if d.length < n then s.tick + 1 else s.tick } (.listener .net)
          (.candidate y n))) ∧
      (s.ctl (.listener .net) ≠ .recv → exec (.netRecv d n) s = .next s)) ∧
    (∀ (t : Transport) (b : List Byte) (m : Nat), m ≤ 249 → b.length < m →
      (s.port t).txLock ≠ .free → (s.port t).send = none →
      ∃ y q, Fills b m y ∧ exec (.sendRaw t y m) s = .next (s.setPort t q) ∧
        exec (.sendRaw t b m) s = .next (s1.setPort t q)) ∧
    (∀ (t : Transport) (f : List Byte) (n : Nat), 6 ≤ n → n ≤ 255 → f.length < n →
      (s.port t).txLock ≠ .free → (s.port t).send = none →
      ∃ (y : List Byte) (l : Byte), Fills f n y ∧ y[4]? = some l ∧
        (n = l.toNat + 6 → ∃ q, exec (.sendLine t y n) s = .next (s.setPort t q) ∧
          exec (.sendLine t f n) s = .next (s1.setPort t q)) ∧
        (n ≠ l.toNat + 6 → exec (.sendLine t f n) s = .fault .sendLengthMismatch)) ∧
    ∀ (t : Transport) (f : List Byte) (n : Nat), n < 6 ∨ 255 < n →
      exec (.sendLine t f n) s = .fault .sendLengthMismatch

/-- An agent that is not enabled, and a row whose state or mode is not the present one, changes nothing (logs 3, 11, 13). -/
def Obligations.StepsNotEnabledChangeNothing : Prop :=
  ∀ (t : Transport) (s : State),
    (∀ (x : List Byte) (n : Nat), (s.port t).txLock = .free ∨ (s.port t).send ≠ none →
      (∀ l, x[4]? = some l → l.toNat ≤ 249 → n = l.toNat + 6 → exec (.sendLine t x n) s = .next s) ∧
      (n ≤ 249 → exec (.sendRaw t x n) s = .next s)) ∧
    ((∀ r, (s.port t).send = some r → r.phase ≠ .sLoop) → exec (.sendSLoop t) s = .next s) ∧
    ((∀ r, (s.port t).send = some r → r.phase ≠ .sWait ∧ r.phase ≠ .sRemask) → exec (.sendSWait t) s = .next s) ∧
    ((∀ r, (s.port t).send = some r → r.phase ≠ .sKick) → exec (.sendSKick t) s = .next s) ∧
    ((∀ r, (s.port t).send = some r → r.phase ≠ .sExit) → exec (.sendSExit t) s = .next s) ∧
    (s.params.rxMode = .ring → exec (.irqRxMailbox t) s = .next s) ∧
    (s.params.rxMode = .mailbox → exec (.irqRxRing t) s = .next s) ∧
    ((∀ ph, s.ctl (.listener (.serial t)) ≠ .read ph) → exec (.readLine t) s = .next s) ∧
    ((s.port t).txHw = [] → exec (.uartTx t) s = .next s) ∧
    (∀ b, (s.port t).fsm ≠ .waitSync → exec (.fsmStepWaitSync t b) s = .next s) ∧
    (∀ b, (s.port t).fsm ≠ .accumulate → exec (.fsmStepAccumulate t b) s = .next s) ∧
    (∀ ph k b m k' b' m', s.ctl s.cur = .act (.bus ph k b m) → ¬ (k' = k ∧ b' = b ∧ m' = m) →
      exec (.rs485Tx k' b' m') s = .next s) ∧
    ∀ g v, 1 ≤ g → g ≤ 9 → s.ctl .gpio ≠ .recv → exec (.gpioEvt g v) s = .next s

/-! ### The UART -/

/-- spec/41_uart.md R164: the transmitter sends the oldest byte with the direction of that moment; and, weak fairness, a
transmitter whose register is non-empty eventually sends: in every run fair to the transmitters the oldest byte of the register
is the next one on the line. -/
def Obligations.TransmitterSendsOldestByte : Prop :=
  (∀ (t : Transport) (b : Byte) (rest : List Byte) (s : State), (s.port t).txHw = b :: rest →
    exec (.uartTx t) s = .next (s.setPort t { s.port t with
      txHw := rest
      txLine := (s.port t).txLine ++ [(b, s.de)]
      threPend := (s.port t).threPend || decide (rest = []) })) ∧
  ∀ (ch : Nat → Choice) (r : Nat → State) (t : Transport) (k : Nat) (b : Byte) (rest : List Byte),
    IsRun ch r → FairTransmitters ch r → ((r k).port t).txHw = b :: rest →
    ∃ j, k ≤ j ∧ ch j = .uartTx t ∧ ((r j).port t).txLine = ((r k).port t).txLine ∧
      ((r (j + 1)).port t).txLine = ((r k).port t).txLine ++ [(b, (r j).de)]

/-- R166: a received character enters the receive register, or is lost and sets the sticky flag. -/
def Obligations.ReceiverKeepsOlderBytes : Prop :=
  ∀ (t : Transport) (b : Byte) (s : State),
    ((s.port t).rxHw.length < s.params.rxHwDepth → exec (.lineIn t b) s =
      .next (s.setPort t { s.port t with rxHw := (s.port t).rxHw ++ [b] })) ∧
    (s.params.rxHwDepth ≤ (s.port t).rxHw.length → exec (.lineIn t b) s =
      .next (s.setPort t { s.port t with hwOverrun := true }))

/-- R161: the divisor is a nearest integer to F_REF / (OVERSAMPLE * baud), and at least 1; either one on an exact half (log 8). That
BAUD_LOAD runs at every step of the start sequence is the model's choice (log 33). -/
def Obligations.BaudDivisorIsNearest : Prop :=
  ∀ (t : Transport) (s : State), s.boot ≠ .running →
    ∃ q : Nat, exec (.baudLoad t) s = .next (s.setPort t { s.port t with baudDiv := max 1 q }) ∧
      let den : Nat := s.params.oversample * (match t with
        | .rs485 => s.baud485
        | .rs232_1 => s.baud232
        | .rs232_2 => s.baud232)
      2 * q * den ≤ 2 * s.params.fRef + den ∧ 2 * (s.params.fRef : Nat) ≤ 2 * q * den + den

/-! ### Reset, start, and what a step runs -/

/-- spec/10_state.md R46, spec/70_reset_and_hazards.md R270: the values the spec gives for reset. -/
def Obligations.ResetValues : Prop :=
  (∀ t : Transport,
    let p := State.reset.port t
    p.txRing.inIdx = 0 ∧ p.txRing.outIdx = 0 ∧ p.rxRing.inIdx = 0 ∧ p.rxRing.outIdx = 0 ∧
    (∀ a, p.txRing.slots.lookup a = none ∧ p.rxRing.slots.lookup a = none ∧ p.stage.lookup a = none ∧
      p.rxBuf.lookup a = none) ∧
    p.txHw = [] ∧ p.rxHw = [] ∧ p.fsm = .waitSync ∧ p.pos = 0 ∧ p.total = 255 ∧ p.threPend = false ∧
    p.maskTx = false ∧ p.maskRx = false ∧ p.hwOverrun = false ∧ p.rxOverrun = false ∧ p.room = 0 ∧ p.ready = 0 ∧
    p.txLock = .free ∧ p.send = none ∧ p.txLine = []) ∧
  State.reset.de = .read ∧ (∀ k, State.reset.relay k = 0#8) ∧
  (∀ p : Path, State.reset.ctl (.listener p) = firstLabel (.listener p)) ∧
  State.reset.netOut = [] ∧ State.reset.irLog = [] ∧ State.reset.deLog = []

/-- spec/70_reset_and_hazards.md R271: the start sequence, from a block whose tasks have not started: configuration or
defaults, BAUD_LOAD three times, then the listeners at their first labels. Nothing else changes. From the compiled-in defaults a
missing item of the configuration leaves DEFAULT_ID, DEFAULT_BAUD_485, DEFAULT_BAUD_232 (spec/10_state.md R40). That the three
registers hold these defaults at reset, for every setting of the parameters, is the model's choice (log 7), and so are the five
steps (log 9). -/
def Obligations.StartSequence : Prop :=
  (∀ s : State, s.boot = .readCfg → s.ctl .gpio = .recv →
    let s1 := { s with
      localId := s.cfgIn.deviceID.getD s.localId
      baud485 := s.cfgIn.baud485.getD s.baud485
      baud232 := s.cfgIn.baud232.getD s.baud232 }
    Host.Core.run core 5 s = .next { s1 with
      boot := .running
      port485 := { s.port485 with baudDiv := baudDivisor s.params s1.baud485 }
      port232_1 := { s.port232_1 with baudDiv := baudDivisor s.params s1.baud232 }
      port232_2 := { s.port232_2 with baudDiv := baudDivisor s.params s1.baud232 }
      ctl485 := .read .enter
      ctl232_1 := .read .enter
      ctl232_2 := .read .enter
      ctlNet := .recv }) ∧
  (∀ s : State, s.boot = .readCfg → s.ctl .gpio = .recv → s.localId = s.params.defaultId →
    s.baud485 = s.params.defaultBaud485 → s.baud232 = s.params.defaultBaud232 →
    ∃ s', Host.Core.run core 5 s = .next s' ∧ s'.boot = .running ∧
      s'.localId = s.cfgIn.deviceID.getD s.params.defaultId ∧
      s'.baud485 = s.cfgIn.baud485.getD s.params.defaultBaud485 ∧
      s'.baud232 = s.cfgIn.baud232.getD s.params.defaultBaud232) ∧
  ∀ c : Params,
    let s := State.resetWith c
    s.params = c ∧ s.boot = .readCfg ∧ s.ctl .gpio = .recv ∧ s.localId = c.defaultId ∧ s.baud485 = c.defaultBaud485 ∧
      s.baud232 = c.defaultBaud232

/-- spec/00_scope.md R10, spec/43_dispatch.md R222: a step of a started block is the operation of the chosen agent, the next of
the schedule or, where none is left, a free choice (log 2); a listener steps where no transport has an unmasked pending cause
(spec/60_exceptions.md R240). That GPIO_SRC takes the step of its program point always, its bracket and send steps under an enabled
handler included, is the model's reading (DEDUCED, log 11), not R240's own. A task whose command is selected runs the instruction the
decoder reads from its frame, and a task inside a section runs what its program point holds; that L_ACT keeps the parsed frame, and the
split of a forward into the steps of its send and the free of the lock, is the model's (log 10). -/
def Obligations.StepRunsTheChosenOperation : Prop :=
  (∀ (c : Choice) (s s0 : State), s.boot = .running →
    (∃ rest, s.sched = c :: rest ∧ s0 = { s with sched := rest }) ∨
      (s.sched = [] ∧ c = Config.freeChoice s.tick ∧ s0 = { s with tick := s.tick + 1 }) →
    (∀ t b, c = .lineIn t b → step s = exec (.lineIn t b) s0) ∧
    (∀ t, c = .uartTx t → step s = exec (.uartTx t) s0) ∧
    (∀ t, c = .irqTx t → step s = exec (.irqTx t) s0) ∧
    (∀ t, c = .irqRx t → s.params.rxMode = .ring → step s = exec (.irqRxRing t) s0) ∧
    (∀ t, c = .irqRx t → s.params.rxMode = .mailbox → step s = exec (.irqRxMailbox t) s0) ∧
    (∀ d, c = .netRecv d → step s = exec (.netRecv d d.length) s0) ∧
    (∀ g v, c = .gpioEvt g v → step s = exec (.gpioEvt (g.val + 1) v) s0) ∧
    ∀ a, c = .task a →
      (a = .gpio ∨ ∀ t, (s.port t).maskTx = true ∨ (s.port t).maskRx = true ∨
        ((s.port t).threPend = false ∧ (s.port t).rxHw = [])) →
      step s = taskStep a { s0 with cur := a }) ∧
  (∀ (a : TaskId) (pf : ParsedFrame) (s : State), s.ctl a = .act (.cmd pf) →
    taskStep a s = exec (instrOf pf) s) ∧
  (∀ (a : TaskId) (ch v : Byte) (s : State), s.ctl a = .act (.fNet ch v) →
    taskStep a s = exec (.statusFanout ch v) s) ∧
  (∀ (a : TaskId) (ph : BusPhase) (k : TxKind) (b : List Byte) (m : Nat) (s : State), s.ctl a = .act (.bus ph k b m) →
    taskStep a s = exec (.rs485Tx k b m) s) ∧
  (∀ (a : TaskId) (u : Transport) (p : List Byte) (s : State), s.ctl a = .act (.fwd u .send p) →
    ((s.port u).send = none → taskStep a s = exec (.sendRaw u p p.length) s) ∧
    ∀ r, (s.port u).send = some r → taskStep a s = exec (sendRow u r.phase) s) ∧
  (∀ (a : TaskId) (u : Transport) (p : List Byte) (s : State), s.ctl a = .act (.fwd u .free p) →
    taskStep a s = .next ((s.setPort u { s.port u with txLock := .free }).setCtl a (doneLabel a))) ∧
  (∀ (t : Transport) (ph : ReadPhase) (s : State), s.ctl (.listener (.serial t)) = .read ph →
    taskStep (.listener (.serial t)) s = exec (.readLine t) s) ∧
  (∀ (a : TaskId) (s : State), s.ctl a = .idle → taskStep a s = .next (s.setCtl a (firstLabel a))) ∧
  ∀ (a : TaskId) (s : State), s.ctl a = .recv → taskStep a s = .next s

/-- A decoded table word is the first thing the next step runs (log 4): the step is exec of the decoded instruction by
LISTENER(NET), where no handler is pending (spec/60_exceptions.md R240). That L_ACT keeps the parsed frame and runs the command it
selects is the model's (log 10), and so is that a word the decoder refuses is placed at N_DECIDE, which drops it (log 4). -/
def Obligations.StepRunsTheDecodedWord : Prop :=
  (∀ (nbits w : Nat) (i : Instr) (s : State), decodeTableWord nbits w = some i → s.handlerEnabled = false →
    ∃ pf : ParsedFrame, instrOf pf = i ∧
      step (s.withFetchWord nbits w) =
        exec i { s with boot := .running, ctlNet := .act (.cmd pf), cur := .listener .net }) ∧
  ∀ (nbits w : Nat) (s : State), decodeTableWord nbits w = none → s.handlerEnabled = false →
    step (s.withFetchWord nbits w) = .next { s with boot := .running, ctlNet := .idle, cur := .listener .net }

/-- spec/43_dispatch.md R222, R223, spec/30_encoding.md R102: L_DECIDE (N_DECIDE). A candidate that decodes and passes the filter
selects the decoded instruction for L_ACT; every other candidate disappears silently. That the listener keeps the parsed frame at
L_ACT, and that a frame without effect (another dataType, W.IGNORE and its like) which passes the filter goes there too, to be ended by
a step of its own, is the model's, not these rules' (DEDUCED, log 10); so is that all bytes of a datagram are judged where the
candidate's recorded size is another than their number (log 26). -/
def Obligations.DecideSelectsTheDecodedCommand : Prop :=
  ∀ (p : Path) (x : List Byte) (n : Nat) (s : State), s.ctl (.listener p) = .candidate x n →
    (∀ t, p = .serial t → candidateOk x n = true ∧ x[0]? = some 62#8) →
    (∀ i rest, decode x = .ok (i, rest) →
      ∃ pf : ParsedFrame, instrOf pf = i ∧ x[1]? = some pf.deviceID ∧
        taskStep (.listener p) s = .next (s.setCtl (.listener p)
          (if s.params.filterOn p = true ∧ pf.deviceID ≠ s.localId then .idle else .act (.cmd pf)))) ∧
    (∀ e, decode x = .error e → taskStep (.listener p) s = .next (s.setCtl (.listener p) .idle))

/-- spec/60_exceptions.md R240: while a handler is enabled a listener does not step, chosen by the schedule or by the free choice
of an empty one; the step only consumes the choice (logs 2 and 3). -/
def Obligations.ListenersYieldToHandlers : Prop :=
  ∀ (t : Transport) (p : Path) (s : State), s.boot = .running → s.chosen = .task (.listener p) →
    (s.port t).maskTx = false → (s.port t).maskRx = false →
    ((s.port t).threPend = true ∨ (s.port t).rxHw ≠ []) → step s = .next s.afterChoice

/-! ### Whole-machine rules -/

/-- spec/60_exceptions.md R243: from a state of the invariant no step stops, and the invariant stands after it: rings within
their capacity with every live byte written (spec/10_state.md R47), the reassembler within its buffer (R28), the mask claims in
their phases (spec/20_memory.md R66), each lock with the task inside its section (R75), READY = count(RXRING) outside the
reader's window (spec/40_ring_transport.md R135), DE = WRITE exactly inside a bracket (spec/43_dispatch.md R213). And
transmission keeps going without the sender (spec/40_ring_transport.md R130), unless the step leads into the hang (`Hung`) or
wakes a send that will not kick (`KickLost`). `Hung` is the hang of R284 and, wider than R284's words, that of a send which began with
the ring empty beside a transmitter at work; this and the second exception are read from R124 to R128, not stated by R130 (log 28). -/
def Obligations.EveryStepKeepsTheInvariant : Prop :=
  ∀ s : State, s.Inv → ∃ s', step s = .next s' ∧ s'.Inv ∧
    ∀ t, (s.port t).Flows → (s'.port t).Flows ∨ Hung t s' ∨ KickLost t s'

/-- The invariant holds at reset, and R130's with it. -/
def Obligations.ResetMeetsTheInvariant : Prop := State.reset.Inv ∧ ∀ t, (State.reset.port t).Flows

/-- Every step keeps the canonical form of the byte arrays (log 5), from every state. -/
def Obligations.StepKeepsMemoryCanonical : Prop :=
  ∀ s s' : State, s.memWf = true → step s = .next s' → s'.memWf = true

/-- spec/20_memory.md R70: the bytes sent, in the transmit register and in the ring, in this order, only ever grow at the young
end, by the staged byte that S_LOOP enqueues: none is lost, duplicated or reordered. -/
def Obligations.TransmitIsFifo : Prop :=
  ∀ (t : Transport) (s s' : State), s.Inv → step s = .next s' →
    (s'.port t).txStream s'.params = (s.port t).txStream s.params ∨
    ∃ r b, (s.port t).send = some r ∧ r.phase = .sLoop ∧ (s.port t).stage.lookup r.i = some b ∧
      (s'.port t).send = some { r with i := r.i + 1 } ∧
      (s'.port t).txStream s'.params = (s.port t).txStream s.params ++ [b]

/-- R70, RING mode: the bytes waiting for the reader leave only at the old end, one at a time, by R_TAKE of the listener; one
byte arrives at the young end only by LINE_IN, which brought it (spec/41_uart.md R166); and bytes are lost only by the IRQ_RX
step that finds the RX ring full: exactly the bytes of the receive register that do not fit (spec/40_ring_transport.md R135). -/
def Obligations.ReceiveIsFifo : Prop :=
  ∀ (t : Transport) (s s' : State), s.Inv → s.params.rxMode = .ring → step s = .next s' →
    ∃ taken kept lost added : List Byte,
      (s.port t).rxStream s.params = taken ++ kept ++ lost ∧ (s'.port t).rxStream s'.params = kept ++ added ∧
      (taken = [] ∨ taken.length = 1 ∧ s.chosen = .task (.listener (.serial t)) ∧
        s.ctl (.listener (.serial t)) = .read .take) ∧
      (lost = [] ∨ s.chosen = .irqRx t ∧
        lost = (s.port t).rxHw.drop (s.params.rxn - 1 - (s.port t).rxRing.count s.params.rxn) ∧
        (s'.port t).rxRing.isFull s.params.rxn = true ∧ (s'.port t).rxOverrun = true) ∧
      (added = [] ∨ ∃ b, added = [b] ∧ s.chosen = .lineIn t b)

/-- spec/10_state.md R41: relays are written only by W.RELAY, and only relays that are fitted; so for every operation, and for
every step of the block, those outside `exec` among them. -/
def Obligations.RelaysAreWrittenOnlyByWRelay : Prop :=
  (∀ (i : Instr) (s s' : State), exec i s = .next s' →
    (s'.relays = s.relays ∨ ∃ id ch p, i = .wRelay id ch p) ∧
    ∀ k, s.params.numRelays < k → k ≤ 9 → i.wellFormed = true → s'.relay k = s.relay k) ∧
  ∀ s s' : State, step s = .next s' →
    (s'.relays = s.relays ∨
      s.boot = .running ∧ ∃ a pf id ch p, s.chosen = .task a ∧ s.ctl a = .act (.cmd pf) ∧ instrOf pf = .wRelay id ch p) ∧
    ∀ k, s.params.numRelays < k → k ≤ 9 → s'.relay k = s.relay k

/-- spec/20_memory.md R77: no operation changes the parameters, the local deviceID or the rates, and once the block runs none
changes a baud divisor; nor does any step of a started block. -/
def Obligations.ConfigurationIsFixed : Prop :=
  (∀ (i : Instr) (s s' : State), exec i s = .next s' →
    s'.params = s.params ∧ s'.localId = s.localId ∧ s'.baud485 = s.baud485 ∧ s'.baud232 = s.baud232 ∧
    s'.cfgIn = s.cfgIn ∧ s'.boot = s.boot ∧
    (s.boot = .running → ∀ t, (s'.port t).baudDiv = (s.port t).baudDiv)) ∧
  ∀ s s' : State, s.boot = .running → step s = .next s' →
    s'.params = s.params ∧ s'.localId = s.localId ∧ s'.baud485 = s.baud485 ∧ s'.baud232 = s.baud232 ∧
    s'.cfgIn = s.cfgIn ∧ s'.boot = .running ∧ ∀ t, (s'.port t).baudDiv = (s.port t).baudDiv

/-- spec/10_state.md R20: an operation of one transport leaves the state of the other transports, the relays and the bus
direction alone. -/
def Obligations.TransportsAreIndependent : Prop :=
  ∀ (i : Instr) (t u : Transport) (s s' : State), actsFor i = some t → u ≠ t → exec i s = .next s' →
    s'.port u = s.port u ∧ s'.relays = s.relays ∧ s'.de = s.de ∧ s'.deLog = s.deLog ∧ s'.netOut = s.netOut ∧
    s'.irLog = s.irLog

/-- spec/70_reset_and_hazards.md R284: once the sender of t is blocked on a full ring with an idle transmitter and no cause
pending, however it came to be so (log 28), every step leaves it so, with the lock held and no byte sent on t. A transport whose
transmission has stalled, by the hang or by a lost kick (log 28), stays stalled and never sends again; R293's sentence that waits for
it end with N ≥ 256 and a working transmitter does not hold after a lost kick (log 28). -/
def Obligations.HangPersists : Prop :=
  (∀ (t : Transport) (s s' : State), s.Inv → Hung t s → step s = .next s' →
    Hung t s' ∧ (s'.port t).txLock = (s.port t).txLock ∧ (s'.port t).txLock ≠ .free ∧
    (s'.port t).txLine = (s.port t).txLine) ∧
  (∀ (t : Transport) (s s' : State), s.Inv → (s.port t).Stalled s.params → step s = .next s' →
    (s'.port t).Stalled s'.params ∧ (s'.port t).txLine = (s.port t).txLine) ∧
  ∀ (t : Transport) (s : State), Hung t s ∨ KickLost t s → (s.port t).Stalled s.params

/-- R296: in a quiescent state no task, handler or transmitter has a step: whatever of them is chosen, by the schedule or by the
free choice of an empty one (log 2), in either RX mode, the state stays quiescent and no trace grows. -/
def Obligations.QuiescentStateIsAtRest : Prop :=
  ∀ s : State, s.AtRest → s.Inv → s.boot = .running → s.ctl .gpio = .recv →
    (s.chosen = .task .gpio ∨ (∃ p, s.chosen = .task (.listener p)) ∨
      ∃ t, s.chosen = .uartTx t ∨ s.chosen = .irqTx t ∨ s.chosen = .irqRx t) →
    ∃ a, step s = .next { s.afterChoice with cur := a } ∧
      ({ s.afterChoice with cur := a } : State).AtRest ∧
      (s.Quiescent → ({ s.afterChoice with cur := a } : State).Quiescent)

/-- spec/20_memory.md R80: a ring of m slots takes exactly m − 1 bytes, which then stand in it in order. -/
def Obligations.RingHoldsOneLessThanItsSlots : Prop :=
  ∀ (m : Nat) (r : Ring) (bs : List Byte), 2 ≤ m → r.Ok m → r.isEmpty = true → bs.length ≤ m - 1 →
    ∃ r', enqAll m r bs = .ok r' ∧ r'.Ok m ∧ r'.bytes m = bs ∧ (r'.isFull m = true ↔ bs.length = m - 1)

end
end

