-- ==== Sys2Proof/Laws/State.lean ====
section
/-!
SUPPORT. Sys2Proof/Laws/State.lean: what each named update of the state leaves and what it writes, one lemma per field per
update, so that no later proof unfolds a record update.
-/

namespace Sys2Proof.Machine

section SetPort
variable (s : State) (t u : Transport) (p : Port) (a : TaskId)

theorem port_setPort : (s.setPort t p).port u = if u = t then p else s.port u := by
  cases t <;> cases u <;> rfl

@[simp] theorem port_setPort_self : (s.setPort t p).port t = p := by cases t <;> rfl

theorem port_setPort_ne (h : u ≠ t) : (s.setPort t p).port u = s.port u := by
  rw [port_setPort, if_neg h]

@[simp] theorem ctl_setPort : (s.setPort t p).ctl a = s.ctl a := by
  cases t <;> rcases a with ⟨_ | ⟨_ | _ | _⟩⟩ | _ <;> rfl

@[simp] theorem setPort_port : s.setPort t (s.port t) = s := by cases t <;> rfl

@[simp] theorem setPort_setPort (q : Port) : (s.setPort t p).setPort t q = s.setPort t q := by cases t <;> rfl
@[simp] theorem setPort_params : (s.setPort t p).params = s.params := by cases t <;> rfl
@[simp] theorem setPort_boot : (s.setPort t p).boot = s.boot := by cases t <;> rfl
@[simp] theorem setPort_cfgIn : (s.setPort t p).cfgIn = s.cfgIn := by cases t <;> rfl
@[simp] theorem setPort_localId : (s.setPort t p).localId = s.localId := by cases t <;> rfl
@[simp] theorem setPort_baud485 : (s.setPort t p).baud485 = s.baud485 := by cases t <;> rfl
@[simp] theorem setPort_baud232 : (s.setPort t p).baud232 = s.baud232 := by cases t <;> rfl
@[simp] theorem setPort_de : (s.setPort t p).de = s.de := by cases t <;> rfl
@[simp] theorem setPort_relays : (s.setPort t p).relays = s.relays := by cases t <;> rfl
@[simp] theorem setPort_ctl485 : (s.setPort t p).ctl485 = s.ctl485 := by cases t <;> rfl
@[simp] theorem setPort_ctl232_1 : (s.setPort t p).ctl232_1 = s.ctl232_1 := by cases t <;> rfl
@[simp] theorem setPort_ctl232_2 : (s.setPort t p).ctl232_2 = s.ctl232_2 := by cases t <;> rfl
@[simp] theorem setPort_ctlNet : (s.setPort t p).ctlNet = s.ctlNet := by cases t <;> rfl
@[simp] theorem setPort_ctlGpio : (s.setPort t p).ctlGpio = s.ctlGpio := by cases t <;> rfl
@[simp] theorem setPort_netOut : (s.setPort t p).netOut = s.netOut := by cases t <;> rfl
@[simp] theorem setPort_irLog : (s.setPort t p).irLog = s.irLog := by cases t <;> rfl
@[simp] theorem setPort_deLog : (s.setPort t p).deLog = s.deLog := by cases t <;> rfl
@[simp] theorem setPort_cur : (s.setPort t p).cur = s.cur := by cases t <;> rfl
@[simp] theorem setPort_ret : (s.setPort t p).ret = s.ret := by cases t <;> rfl
@[simp] theorem setPort_sched : (s.setPort t p).sched = s.sched := by cases t <;> rfl
@[simp] theorem setPort_tick : (s.setPort t p).tick = s.tick := by cases t <;> rfl

end SetPort

section SetCtl
variable (s : State) (a b : TaskId) (x : Ctl) (t : Transport)

theorem ctl_setCtl : (s.setCtl a x).ctl b = if b = a then x else s.ctl b := by
  rcases a with ⟨_ | ⟨_ | _ | _⟩⟩ | _ <;> rcases b with ⟨_ | ⟨_ | _ | _⟩⟩ | _ <;> rfl

@[simp] theorem ctl_setCtl_self : (s.setCtl a x).ctl a = x := by
  rcases a with ⟨_ | ⟨_ | _ | _⟩⟩ | _ <;> rfl

theorem ctl_setCtl_ne (h : b ≠ a) : (s.setCtl a x).ctl b = s.ctl b := by rw [ctl_setCtl, if_neg h]

@[simp] theorem port_setCtl : (s.setCtl a x).port t = s.port t := by
  rcases a with ⟨_ | ⟨_ | _ | _⟩⟩ | _ <;> cases t <;> rfl

@[simp] theorem setCtl_ctl : s.setCtl a (s.ctl a) = s := by
  rcases a with ⟨_ | ⟨_ | _ | _⟩⟩ | _ <;> rfl

theorem setPort_setCtl (p : Port) : (s.setCtl a x).setPort t p = (s.setPort t p).setCtl a x := by
  rcases a with ⟨_ | ⟨_ | _ | _⟩⟩ | _ <;> cases t <;> rfl
@[simp] theorem setCtl_params : (s.setCtl a x).params = s.params := by
  rcases a with ⟨_ | ⟨_ | _ | _⟩⟩ | _ <;> rfl
@[simp] theorem setCtl_boot : (s.setCtl a x).boot = s.boot := by
  rcases a with ⟨_ | ⟨_ | _ | _⟩⟩ | _ <;> rfl
@[simp] theorem setCtl_cfgIn : (s.setCtl a x).cfgIn = s.cfgIn := by
  rcases a with ⟨_ | ⟨_ | _ | _⟩⟩ | _ <;> rfl
@[simp] theorem setCtl_port485 : (s.setCtl a x).port485 = s.port485 := by
  rcases a with ⟨_ | ⟨_ | _ | _⟩⟩ | _ <;> rfl
@[simp] theorem setCtl_port232_1 : (s.setCtl a x).port232_1 = s.port232_1 := by
  rcases a with ⟨_ | ⟨_ | _ | _⟩⟩ | _ <;> rfl
@[simp] theorem setCtl_port232_2 : (s.setCtl a x).port232_2 = s.port232_2 := by
  rcases a with ⟨_ | ⟨_ | _ | _⟩⟩ | _ <;> rfl
@[simp] theorem setCtl_localId : (s.setCtl a x).localId = s.localId := by
  rcases a with ⟨_ | ⟨_ | _ | _⟩⟩ | _ <;> rfl
@[simp] theorem setCtl_baud485 : (s.setCtl a x).baud485 = s.baud485 := by
  rcases a with ⟨_ | ⟨_ | _ | _⟩⟩ | _ <;> rfl
@[simp] theorem setCtl_baud232 : (s.setCtl a x).baud232 = s.baud232 := by
  rcases a with ⟨_ | ⟨_ | _ | _⟩⟩ | _ <;> rfl
@[simp] theorem setCtl_de : (s.setCtl a x).de = s.de := by
  rcases a with ⟨_ | ⟨_ | _ | _⟩⟩ | _ <;> rfl
@[simp] theorem setCtl_relays : (s.setCtl a x).relays = s.relays := by
  rcases a with ⟨_ | ⟨_ | _ | _⟩⟩ | _ <;> rfl
@[simp] theorem setCtl_netOut : (s.setCtl a x).netOut = s.netOut := by
  rcases a with ⟨_ | ⟨_ | _ | _⟩⟩ | _ <;> rfl
@[simp] theorem setCtl_irLog : (s.setCtl a x).irLog = s.irLog := by
  rcases a with ⟨_ | ⟨_ | _ | _⟩⟩ | _ <;> rfl
@[simp] theorem setCtl_deLog : (s.setCtl a x).deLog = s.deLog := by
  rcases a with ⟨_ | ⟨_ | _ | _⟩⟩ | _ <;> rfl
@[simp] theorem setCtl_cur : (s.setCtl a x).cur = s.cur := by
  rcases a with ⟨_ | ⟨_ | _ | _⟩⟩ | _ <;> rfl
@[simp] theorem setCtl_ret : (s.setCtl a x).ret = s.ret := by
  rcases a with ⟨_ | ⟨_ | _ | _⟩⟩ | _ <;> rfl
@[simp] theorem setCtl_sched : (s.setCtl a x).sched = s.sched := by
  rcases a with ⟨_ | ⟨_ | _ | _⟩⟩ | _ <;> rfl
@[simp] theorem setCtl_tick : (s.setCtl a x).tick = s.tick := by
  rcases a with ⟨_ | ⟨_ | _ | _⟩⟩ | _ <;> rfl

end SetCtl

section SetRet
variable (s : State) (r : Ret) (t : Transport) (b : TaskId)

@[simp] theorem port_setRet : (s.setRet r).port t = s.port t := by cases t <;> rfl
@[simp] theorem ctl_setRet : (s.setRet r).ctl b = s.ctl b := by
  rcases b with ⟨_ | ⟨_ | _ | _⟩⟩ | _ <;> rfl
@[simp] theorem setRet_params : (s.setRet r).params = s.params := rfl
@[simp] theorem setRet_boot : (s.setRet r).boot = s.boot := rfl
@[simp] theorem setRet_cfgIn : (s.setRet r).cfgIn = s.cfgIn := rfl
@[simp] theorem setRet_port485 : (s.setRet r).port485 = s.port485 := rfl
@[simp] theorem setRet_port232_1 : (s.setRet r).port232_1 = s.port232_1 := rfl
@[simp] theorem setRet_port232_2 : (s.setRet r).port232_2 = s.port232_2 := rfl
@[simp] theorem setRet_localId : (s.setRet r).localId = s.localId := rfl
@[simp] theorem setRet_baud485 : (s.setRet r).baud485 = s.baud485 := rfl
@[simp] theorem setRet_baud232 : (s.setRet r).baud232 = s.baud232 := rfl
@[simp] theorem setRet_de : (s.setRet r).de = s.de := rfl
@[simp] theorem setRet_relays : (s.setRet r).relays = s.relays := rfl
@[simp] theorem setRet_ctl485 : (s.setRet r).ctl485 = s.ctl485 := rfl
@[simp] theorem setRet_ctl232_1 : (s.setRet r).ctl232_1 = s.ctl232_1 := rfl
@[simp] theorem setRet_ctl232_2 : (s.setRet r).ctl232_2 = s.ctl232_2 := rfl
@[simp] theorem setRet_ctlNet : (s.setRet r).ctlNet = s.ctlNet := rfl
@[simp] theorem setRet_ctlGpio : (s.setRet r).ctlGpio = s.ctlGpio := rfl
@[simp] theorem setRet_netOut : (s.setRet r).netOut = s.netOut := rfl
@[simp] theorem setRet_irLog : (s.setRet r).irLog = s.irLog := rfl
@[simp] theorem setRet_deLog : (s.setRet r).deLog = s.deLog := rfl
@[simp] theorem setRet_cur : (s.setRet r).cur = s.cur := rfl
@[simp] theorem setRet_ret : (s.setRet r).ret = r := rfl
@[simp] theorem setRet_sched : (s.setRet r).sched = s.sched := rfl
@[simp] theorem setRet_tick : (s.setRet r).tick = s.tick := rfl

end SetRet

section SetRelay
variable (s : State) (k : Nat) (v : Byte) (t : Transport) (b : TaskId)

@[simp] theorem port_setRelay : (s.setRelay k v).port t = s.port t := by cases t <;> rfl
@[simp] theorem ctl_setRelay : (s.setRelay k v).ctl b = s.ctl b := by
  rcases b with ⟨_ | ⟨_ | _ | _⟩⟩ | _ <;> rfl
@[simp] theorem setRelay_params : (s.setRelay k v).params = s.params := rfl
@[simp] theorem setRelay_boot : (s.setRelay k v).boot = s.boot := rfl
@[simp] theorem setRelay_cfgIn : (s.setRelay k v).cfgIn = s.cfgIn := rfl
@[simp] theorem setRelay_port485 : (s.setRelay k v).port485 = s.port485 := rfl
@[simp] theorem setRelay_port232_1 : (s.setRelay k v).port232_1 = s.port232_1 := rfl
@[simp] theorem setRelay_port232_2 : (s.setRelay k v).port232_2 = s.port232_2 := rfl
@[simp] theorem setRelay_localId : (s.setRelay k v).localId = s.localId := rfl
@[simp] theorem setRelay_baud485 : (s.setRelay k v).baud485 = s.baud485 := rfl
@[simp] theorem setRelay_baud232 : (s.setRelay k v).baud232 = s.baud232 := rfl
@[simp] theorem setRelay_de : (s.setRelay k v).de = s.de := rfl
@[simp] theorem setRelay_relays : (s.setRelay k v).relays = s.relays.setIfInBounds (k - 1) v := rfl
@[simp] theorem setRelay_ctl485 : (s.setRelay k v).ctl485 = s.ctl485 := rfl
@[simp] theorem setRelay_ctl232_1 : (s.setRelay k v).ctl232_1 = s.ctl232_1 := rfl
@[simp] theorem setRelay_ctl232_2 : (s.setRelay k v).ctl232_2 = s.ctl232_2 := rfl
@[simp] theorem setRelay_ctlNet : (s.setRelay k v).ctlNet = s.ctlNet := rfl
@[simp] theorem setRelay_ctlGpio : (s.setRelay k v).ctlGpio = s.ctlGpio := rfl
@[simp] theorem setRelay_netOut : (s.setRelay k v).netOut = s.netOut := rfl
@[simp] theorem setRelay_irLog : (s.setRelay k v).irLog = s.irLog := rfl
@[simp] theorem setRelay_deLog : (s.setRelay k v).deLog = s.deLog := rfl
@[simp] theorem setRelay_cur : (s.setRelay k v).cur = s.cur := rfl
@[simp] theorem setRelay_ret : (s.setRelay k v).ret = s.ret := rfl
@[simp] theorem setRelay_sched : (s.setRelay k v).sched = s.sched := rfl
@[simp] theorem setRelay_tick : (s.setRelay k v).tick = s.tick := rfl

end SetRelay

section SetDe
variable (s : State) (d : Dir) (t : Transport) (b : TaskId)

@[simp] theorem port_setDe : (s.setDe d).port t = s.port t := by cases t <;> rfl
@[simp] theorem ctl_setDe : (s.setDe d).ctl b = s.ctl b := by
  rcases b with ⟨_ | ⟨_ | _ | _⟩⟩ | _ <;> rfl
@[simp] theorem setDe_params : (s.setDe d).params = s.params := rfl
@[simp] theorem setDe_boot : (s.setDe d).boot = s.boot := rfl
@[simp] theorem setDe_cfgIn : (s.setDe d).cfgIn = s.cfgIn := rfl
@[simp] theorem setDe_port485 : (s.setDe d).port485 = s.port485 := rfl
@[simp] theorem setDe_port232_1 : (s.setDe d).port232_1 = s.port232_1 := rfl
@[simp] theorem setDe_port232_2 : (s.setDe d).port232_2 = s.port232_2 := rfl
@[simp] theorem setDe_localId : (s.setDe d).localId = s.localId := rfl
@[simp] theorem setDe_baud485 : (s.setDe d).baud485 = s.baud485 := rfl
@[simp] theorem setDe_baud232 : (s.setDe d).baud232 = s.baud232 := rfl
@[simp] theorem setDe_de : (s.setDe d).de = d := rfl
@[simp] theorem setDe_relays : (s.setDe d).relays = s.relays := rfl
@[simp] theorem setDe_ctl485 : (s.setDe d).ctl485 = s.ctl485 := rfl
@[simp] theorem setDe_ctl232_1 : (s.setDe d).ctl232_1 = s.ctl232_1 := rfl
@[simp] theorem setDe_ctl232_2 : (s.setDe d).ctl232_2 = s.ctl232_2 := rfl
@[simp] theorem setDe_ctlNet : (s.setDe d).ctlNet = s.ctlNet := rfl
@[simp] theorem setDe_ctlGpio : (s.setDe d).ctlGpio = s.ctlGpio := rfl
@[simp] theorem setDe_netOut : (s.setDe d).netOut = s.netOut := rfl
@[simp] theorem setDe_irLog : (s.setDe d).irLog = s.irLog := rfl
@[simp] theorem setDe_deLog : (s.setDe d).deLog = s.deLog ++ [d] := rfl
@[simp] theorem setDe_cur : (s.setDe d).cur = s.cur := rfl
@[simp] theorem setDe_ret : (s.setDe d).ret = s.ret := rfl
@[simp] theorem setDe_sched : (s.setDe d).sched = s.sched := rfl
@[simp] theorem setDe_tick : (s.setDe d).tick = s.tick := rfl

end SetDe

section NetSend
variable (s : State) (f : List Byte) (t : Transport) (b : TaskId)

@[simp] theorem port_netSend : (s.netSend f).port t = s.port t := by cases t <;> rfl
@[simp] theorem ctl_netSend : (s.netSend f).ctl b = s.ctl b := by
  rcases b with ⟨_ | ⟨_ | _ | _⟩⟩ | _ <;> rfl
@[simp] theorem netSend_params : (s.netSend f).params = s.params := rfl
@[simp] theorem netSend_boot : (s.netSend f).boot = s.boot := rfl
@[simp] theorem netSend_cfgIn : (s.netSend f).cfgIn = s.cfgIn := rfl
@[simp] theorem netSend_port485 : (s.netSend f).port485 = s.port485 := rfl
@[simp] theorem netSend_port232_1 : (s.netSend f).port232_1 = s.port232_1 := rfl
@[simp] theorem netSend_port232_2 : (s.netSend f).port232_2 = s.port232_2 := rfl
@[simp] theorem netSend_localId : (s.netSend f).localId = s.localId := rfl
@[simp] theorem netSend_baud485 : (s.netSend f).baud485 = s.baud485 := rfl
@[simp] theorem netSend_baud232 : (s.netSend f).baud232 = s.baud232 := rfl
@[simp] theorem netSend_de : (s.netSend f).de = s.de := rfl
@[simp] theorem netSend_relays : (s.netSend f).relays = s.relays := rfl
@[simp] theorem netSend_ctl485 : (s.netSend f).ctl485 = s.ctl485 := rfl
@[simp] theorem netSend_ctl232_1 : (s.netSend f).ctl232_1 = s.ctl232_1 := rfl
@[simp] theorem netSend_ctl232_2 : (s.netSend f).ctl232_2 = s.ctl232_2 := rfl
@[simp] theorem netSend_ctlNet : (s.netSend f).ctlNet = s.ctlNet := rfl
@[simp] theorem netSend_ctlGpio : (s.netSend f).ctlGpio = s.ctlGpio := rfl
@[simp] theorem netSend_netOut : (s.netSend f).netOut = s.netOut ++ [f] := rfl
@[simp] theorem netSend_irLog : (s.netSend f).irLog = s.irLog := rfl
@[simp] theorem netSend_deLog : (s.netSend f).deLog = s.deLog := rfl
@[simp] theorem netSend_cur : (s.netSend f).cur = s.cur := rfl
@[simp] theorem netSend_ret : (s.netSend f).ret = s.ret := rfl
@[simp] theorem netSend_sched : (s.netSend f).sched = s.sched := rfl
@[simp] theorem netSend_tick : (s.netSend f).tick = s.tick := rfl

end NetSend

section IrTrigger
variable (s : State) (k : Nat) (v : Byte) (t : Transport) (b : TaskId)

@[simp] theorem port_irTrigger : (s.irTrigger k v).port t = s.port t := by cases t <;> rfl
@[simp] theorem ctl_irTrigger : (s.irTrigger k v).ctl b = s.ctl b := by
  rcases b with ⟨_ | ⟨_ | _ | _⟩⟩ | _ <;> rfl
@[simp] theorem irTrigger_params : (s.irTrigger k v).params = s.params := rfl
@[simp] theorem irTrigger_boot : (s.irTrigger k v).boot = s.boot := rfl
@[simp] theorem irTrigger_cfgIn : (s.irTrigger k v).cfgIn = s.cfgIn := rfl
@[simp] theorem irTrigger_port485 : (s.irTrigger k v).port485 = s.port485 := rfl
@[simp] theorem irTrigger_port232_1 : (s.irTrigger k v).port232_1 = s.port232_1 := rfl
@[simp] theorem irTrigger_port232_2 : (s.irTrigger k v).port232_2 = s.port232_2 := rfl
@[simp] theorem irTrigger_localId : (s.irTrigger k v).localId = s.localId := rfl
@[simp] theorem irTrigger_baud485 : (s.irTrigger k v).baud485 = s.baud485 := rfl
@[simp] theorem irTrigger_baud232 : (s.irTrigger k v).baud232 = s.baud232 := rfl
@[simp] theorem irTrigger_de : (s.irTrigger k v).de = s.de := rfl
@[simp] theorem irTrigger_relays : (s.irTrigger k v).relays = s.relays := rfl
@[simp] theorem irTrigger_ctl485 : (s.irTrigger k v).ctl485 = s.ctl485 := rfl
@[simp] theorem irTrigger_ctl232_1 : (s.irTrigger k v).ctl232_1 = s.ctl232_1 := rfl
@[simp] theorem irTrigger_ctl232_2 : (s.irTrigger k v).ctl232_2 = s.ctl232_2 := rfl
@[simp] theorem irTrigger_ctlNet : (s.irTrigger k v).ctlNet = s.ctlNet := rfl
@[simp] theorem irTrigger_ctlGpio : (s.irTrigger k v).ctlGpio = s.ctlGpio := rfl
@[simp] theorem irTrigger_netOut : (s.irTrigger k v).netOut = s.netOut := rfl
@[simp] theorem irTrigger_irLog : (s.irTrigger k v).irLog = s.irLog ++ [(k, v)] := rfl
@[simp] theorem irTrigger_deLog : (s.irTrigger k v).deLog = s.deLog := rfl
@[simp] theorem irTrigger_cur : (s.irTrigger k v).cur = s.cur := rfl
@[simp] theorem irTrigger_ret : (s.irTrigger k v).ret = s.ret := rfl
@[simp] theorem irTrigger_sched : (s.irTrigger k v).sched = s.sched := rfl
@[simp] theorem irTrigger_tick : (s.irTrigger k v).tick = s.tick := rfl

end IrTrigger

section Draw
variable (s : State) (u : Bool) (t : Transport) (b : TaskId)

@[simp] theorem draw_false : s.draw false = s := rfl
@[simp] theorem port_draw : (s.draw u).port t = s.port t := by cases t <;> rfl
@[simp] theorem ctl_draw : (s.draw u).ctl b = s.ctl b := by
  rcases b with ⟨_ | ⟨_ | _ | _⟩⟩ | _ <;> rfl
@[simp] theorem draw_params : (s.draw u).params = s.params := rfl
@[simp] theorem draw_boot : (s.draw u).boot = s.boot := rfl
@[simp] theorem draw_cfgIn : (s.draw u).cfgIn = s.cfgIn := rfl
@[simp] theorem draw_port485 : (s.draw u).port485 = s.port485 := rfl
@[simp] theorem draw_port232_1 : (s.draw u).port232_1 = s.port232_1 := rfl
@[simp] theorem draw_port232_2 : (s.draw u).port232_2 = s.port232_2 := rfl
@[simp] theorem draw_localId : (s.draw u).localId = s.localId := rfl
@[simp] theorem draw_baud485 : (s.draw u).baud485 = s.baud485 := rfl
@[simp] theorem draw_baud232 : (s.draw u).baud232 = s.baud232 := rfl
@[simp] theorem draw_de : (s.draw u).de = s.de := rfl
@[simp] theorem draw_relays : (s.draw u).relays = s.relays := rfl
@[simp] theorem draw_ctl485 : (s.draw u).ctl485 = s.ctl485 := rfl
@[simp] theorem draw_ctl232_1 : (s.draw u).ctl232_1 = s.ctl232_1 := rfl
@[simp] theorem draw_ctl232_2 : (s.draw u).ctl232_2 = s.ctl232_2 := rfl
@[simp] theorem draw_ctlNet : (s.draw u).ctlNet = s.ctlNet := rfl
@[simp] theorem draw_ctlGpio : (s.draw u).ctlGpio = s.ctlGpio := rfl
@[simp] theorem draw_netOut : (s.draw u).netOut = s.netOut := rfl
@[simp] theorem draw_irLog : (s.draw u).irLog = s.irLog := rfl
@[simp] theorem draw_deLog : (s.draw u).deLog = s.deLog := rfl
@[simp] theorem draw_cur : (s.draw u).cur = s.cur := rfl
@[simp] theorem draw_ret : (s.draw u).ret = s.ret := rfl
@[simp] theorem draw_sched : (s.draw u).sched = s.sched := rfl
@[simp] theorem draw_tick : (s.draw u).tick = s.tick + u.toNat := rfl

/-- Using a free value where `c` holds advances the counter there. -/
theorem draw_decide (c : Prop) [Decidable c] :
    s.draw (decide c) = { s with tick := if c then s.tick + 1 else s.tick } := by
  unfold State.draw
  split <;> simp [*]

end Draw

@[simp] theorem port_with_cur (s : State) (x : TaskId) (t : Transport) :
    State.port { s with cur := x } t = s.port t := by cases t <;> rfl
@[simp] theorem ctl_with_cur (s : State) (x : TaskId) (b : TaskId) :
    State.ctl { s with cur := x } b = s.ctl b := by
  rcases b with ⟨_ | ⟨_ | _ | _⟩⟩ | _ <;> rfl

@[simp] theorem port_with_sched (s : State) (x : List Choice) (t : Transport) :
    State.port { s with sched := x } t = s.port t := by cases t <;> rfl
@[simp] theorem ctl_with_sched (s : State) (x : List Choice) (b : TaskId) :
    State.ctl { s with sched := x } b = s.ctl b := by
  rcases b with ⟨_ | ⟨_ | _ | _⟩⟩ | _ <;> rfl

@[simp] theorem port_with_tick (s : State) (x : Nat) (t : Transport) :
    State.port { s with tick := x } t = s.port t := by cases t <;> rfl
@[simp] theorem ctl_with_tick (s : State) (x : Nat) (b : TaskId) :
    State.ctl { s with tick := x } b = s.ctl b := by
  rcases b with ⟨_ | ⟨_ | _ | _⟩⟩ | _ <;> rfl

@[simp] theorem port_with_boot (s : State) (x : Boot) (t : Transport) :
    State.port { s with boot := x } t = s.port t := by cases t <;> rfl
@[simp] theorem ctl_with_boot (s : State) (x : Boot) (b : TaskId) :
    State.ctl { s with boot := x } b = s.ctl b := by
  rcases b with ⟨_ | ⟨_ | _ | _⟩⟩ | _ <;> rfl

section PortUpdates
variable (p : Port)

@[simp] theorem claimTx_txRing : p.claimTx.txRing = p.txRing := rfl
@[simp] theorem claimTx_rxRing : p.claimTx.rxRing = p.rxRing := rfl
@[simp] theorem claimTx_stage : p.claimTx.stage = p.stage := rfl
@[simp] theorem claimTx_rxBuf : p.claimTx.rxBuf = p.rxBuf := rfl
@[simp] theorem claimTx_mbox : p.claimTx.mbox = p.mbox := rfl
@[simp] theorem claimTx_txHw : p.claimTx.txHw = p.txHw := rfl
@[simp] theorem claimTx_rxHw : p.claimTx.rxHw = p.rxHw := rfl
@[simp] theorem claimTx_fsm : p.claimTx.fsm = p.fsm := rfl
@[simp] theorem claimTx_pos : p.claimTx.pos = p.pos := rfl
@[simp] theorem claimTx_total : p.claimTx.total = p.total := rfl
@[simp] theorem claimTx_send : p.claimTx.send = p.send := rfl
@[simp] theorem claimTx_threPend : p.claimTx.threPend = p.threPend := rfl
@[simp] theorem claimTx_maskTx : p.claimTx.maskTx = true := rfl
@[simp] theorem claimTx_maskRx : p.claimTx.maskRx = p.maskRx := rfl
@[simp] theorem claimTx_hwOverrun : p.claimTx.hwOverrun = p.hwOverrun := rfl
@[simp] theorem claimTx_rxOverrun : p.claimTx.rxOverrun = p.rxOverrun := rfl
@[simp] theorem claimTx_room : p.claimTx.room = p.room := rfl
@[simp] theorem claimTx_ready : p.claimTx.ready = p.ready := rfl
@[simp] theorem claimTx_txLock : p.claimTx.txLock = p.txLock := rfl
@[simp] theorem claimTx_baudDiv : p.claimTx.baudDiv = p.baudDiv := rfl
@[simp] theorem claimTx_txLine : p.claimTx.txLine = p.txLine := rfl
@[simp] theorem dropTx_txRing : p.dropTx.txRing = p.txRing := rfl
@[simp] theorem dropTx_rxRing : p.dropTx.rxRing = p.rxRing := rfl
@[simp] theorem dropTx_stage : p.dropTx.stage = p.stage := rfl
@[simp] theorem dropTx_rxBuf : p.dropTx.rxBuf = p.rxBuf := rfl
@[simp] theorem dropTx_mbox : p.dropTx.mbox = p.mbox := rfl
@[simp] theorem dropTx_txHw : p.dropTx.txHw = p.txHw := rfl
@[simp] theorem dropTx_rxHw : p.dropTx.rxHw = p.rxHw := rfl
@[simp] theorem dropTx_fsm : p.dropTx.fsm = p.fsm := rfl
@[simp] theorem dropTx_pos : p.dropTx.pos = p.pos := rfl
@[simp] theorem dropTx_total : p.dropTx.total = p.total := rfl
@[simp] theorem dropTx_send : p.dropTx.send = p.send := rfl
@[simp] theorem dropTx_threPend : p.dropTx.threPend = p.threPend := rfl
@[simp] theorem dropTx_maskTx : p.dropTx.maskTx = false := rfl
@[simp] theorem dropTx_maskRx : p.dropTx.maskRx = p.maskRx := rfl
@[simp] theorem dropTx_hwOverrun : p.dropTx.hwOverrun = p.hwOverrun := rfl
@[simp] theorem dropTx_rxOverrun : p.dropTx.rxOverrun = p.rxOverrun := rfl
@[simp] theorem dropTx_room : p.dropTx.room = p.room := rfl
@[simp] theorem dropTx_ready : p.dropTx.ready = p.ready := rfl
@[simp] theorem dropTx_txLock : p.dropTx.txLock = p.txLock := rfl
@[simp] theorem dropTx_baudDiv : p.dropTx.baudDiv = p.baudDiv := rfl
@[simp] theorem dropTx_txLine : p.dropTx.txLine = p.txLine := rfl
@[simp] theorem claimRx_txRing : p.claimRx.txRing = p.txRing := rfl
@[simp] theorem claimRx_rxRing : p.claimRx.rxRing = p.rxRing := rfl
@[simp] theorem claimRx_stage : p.claimRx.stage = p.stage := rfl
@[simp] theorem claimRx_rxBuf : p.claimRx.rxBuf = p.rxBuf := rfl
@[simp] theorem claimRx_mbox : p.claimRx.mbox = p.mbox := rfl
@[simp] theorem claimRx_txHw : p.claimRx.txHw = p.txHw := rfl
@[simp] theorem claimRx_rxHw : p.claimRx.rxHw = p.rxHw := rfl
@[simp] theorem claimRx_fsm : p.claimRx.fsm = p.fsm := rfl
@[simp] theorem claimRx_pos : p.claimRx.pos = p.pos := rfl
@[simp] theorem claimRx_total : p.claimRx.total = p.total := rfl
@[simp] theorem claimRx_send : p.claimRx.send = p.send := rfl
@[simp] theorem claimRx_threPend : p.claimRx.threPend = p.threPend := rfl
@[simp] theorem claimRx_maskTx : p.claimRx.maskTx = p.maskTx := rfl
@[simp] theorem claimRx_maskRx : p.claimRx.maskRx = true := rfl
@[simp] theorem claimRx_hwOverrun : p.claimRx.hwOverrun = p.hwOverrun := rfl
@[simp] theorem claimRx_rxOverrun : p.claimRx.rxOverrun = p.rxOverrun := rfl
@[simp] theorem claimRx_room : p.claimRx.room = p.room := rfl
@[simp] theorem claimRx_ready : p.claimRx.ready = p.ready := rfl
@[simp] theorem claimRx_txLock : p.claimRx.txLock = p.txLock := rfl
@[simp] theorem claimRx_baudDiv : p.claimRx.baudDiv = p.baudDiv := rfl
@[simp] theorem claimRx_txLine : p.claimRx.txLine = p.txLine := rfl
@[simp] theorem dropRx_txRing : p.dropRx.txRing = p.txRing := rfl
@[simp] theorem dropRx_rxRing : p.dropRx.rxRing = p.rxRing := rfl
@[simp] theorem dropRx_stage : p.dropRx.stage = p.stage := rfl
@[simp] theorem dropRx_rxBuf : p.dropRx.rxBuf = p.rxBuf := rfl
@[simp] theorem dropRx_mbox : p.dropRx.mbox = p.mbox := rfl
@[simp] theorem dropRx_txHw : p.dropRx.txHw = p.txHw := rfl
@[simp] theorem dropRx_rxHw : p.dropRx.rxHw = p.rxHw := rfl
@[simp] theorem dropRx_fsm : p.dropRx.fsm = p.fsm := rfl
@[simp] theorem dropRx_pos : p.dropRx.pos = p.pos := rfl
@[simp] theorem dropRx_total : p.dropRx.total = p.total := rfl
@[simp] theorem dropRx_send : p.dropRx.send = p.send := rfl
@[simp] theorem dropRx_threPend : p.dropRx.threPend = p.threPend := rfl
@[simp] theorem dropRx_maskTx : p.dropRx.maskTx = p.maskTx := rfl
@[simp] theorem dropRx_maskRx : p.dropRx.maskRx = false := rfl
@[simp] theorem dropRx_hwOverrun : p.dropRx.hwOverrun = p.hwOverrun := rfl
@[simp] theorem dropRx_rxOverrun : p.dropRx.rxOverrun = p.rxOverrun := rfl
@[simp] theorem dropRx_room : p.dropRx.room = p.room := rfl
@[simp] theorem dropRx_ready : p.dropRx.ready = p.ready := rfl
@[simp] theorem dropRx_txLock : p.dropRx.txLock = p.txLock := rfl
@[simp] theorem dropRx_baudDiv : p.dropRx.baudDiv = p.baudDiv := rfl
@[simp] theorem dropRx_txLine : p.dropRx.txLine = p.txLine := rfl
@[simp] theorem releaseRoom_txRing : p.releaseRoom.txRing = p.txRing := rfl
@[simp] theorem releaseRoom_rxRing : p.releaseRoom.rxRing = p.rxRing := rfl
@[simp] theorem releaseRoom_stage : p.releaseRoom.stage = p.stage := rfl
@[simp] theorem releaseRoom_rxBuf : p.releaseRoom.rxBuf = p.rxBuf := rfl
@[simp] theorem releaseRoom_mbox : p.releaseRoom.mbox = p.mbox := rfl
@[simp] theorem releaseRoom_txHw : p.releaseRoom.txHw = p.txHw := rfl
@[simp] theorem releaseRoom_rxHw : p.releaseRoom.rxHw = p.rxHw := rfl
@[simp] theorem releaseRoom_fsm : p.releaseRoom.fsm = p.fsm := rfl
@[simp] theorem releaseRoom_pos : p.releaseRoom.pos = p.pos := rfl
@[simp] theorem releaseRoom_total : p.releaseRoom.total = p.total := rfl
@[simp] theorem releaseRoom_send : p.releaseRoom.send = p.send := rfl
@[simp] theorem releaseRoom_threPend : p.releaseRoom.threPend = p.threPend := rfl
@[simp] theorem releaseRoom_maskTx : p.releaseRoom.maskTx = p.maskTx := rfl
@[simp] theorem releaseRoom_maskRx : p.releaseRoom.maskRx = p.maskRx := rfl
@[simp] theorem releaseRoom_hwOverrun : p.releaseRoom.hwOverrun = p.hwOverrun := rfl
@[simp] theorem releaseRoom_rxOverrun : p.releaseRoom.rxOverrun = p.rxOverrun := rfl
@[simp] theorem releaseRoom_room : p.releaseRoom.room = p.room + 1 := rfl
@[simp] theorem releaseRoom_ready : p.releaseRoom.ready = p.ready := rfl
@[simp] theorem releaseRoom_txLock : p.releaseRoom.txLock = p.txLock := rfl
@[simp] theorem releaseRoom_baudDiv : p.releaseRoom.baudDiv = p.baudDiv := rfl
@[simp] theorem releaseRoom_txLine : p.releaseRoom.txLine = p.txLine := rfl
@[simp] theorem releaseReady_txRing : p.releaseReady.txRing = p.txRing := rfl
@[simp] theorem releaseReady_rxRing : p.releaseReady.rxRing = p.rxRing := rfl
@[simp] theorem releaseReady_stage : p.releaseReady.stage = p.stage := rfl
@[simp] theorem releaseReady_rxBuf : p.releaseReady.rxBuf = p.rxBuf := rfl
@[simp] theorem releaseReady_mbox : p.releaseReady.mbox = p.mbox := rfl
@[simp] theorem releaseReady_txHw : p.releaseReady.txHw = p.txHw := rfl
@[simp] theorem releaseReady_rxHw : p.releaseReady.rxHw = p.rxHw := rfl
@[simp] theorem releaseReady_fsm : p.releaseReady.fsm = p.fsm := rfl
@[simp] theorem releaseReady_pos : p.releaseReady.pos = p.pos := rfl
@[simp] theorem releaseReady_total : p.releaseReady.total = p.total := rfl
@[simp] theorem releaseReady_send : p.releaseReady.send = p.send := rfl
@[simp] theorem releaseReady_threPend : p.releaseReady.threPend = p.threPend := rfl
@[simp] theorem releaseReady_maskTx : p.releaseReady.maskTx = p.maskTx := rfl
@[simp] theorem releaseReady_maskRx : p.releaseReady.maskRx = p.maskRx := rfl
@[simp] theorem releaseReady_hwOverrun : p.releaseReady.hwOverrun = p.hwOverrun := rfl
@[simp] theorem releaseReady_rxOverrun : p.releaseReady.rxOverrun = p.rxOverrun := rfl
@[simp] theorem releaseReady_room : p.releaseReady.room = p.room := rfl
@[simp] theorem releaseReady_ready : p.releaseReady.ready = p.ready + 1 := rfl
@[simp] theorem releaseReady_txLock : p.releaseReady.txLock = p.txLock := rfl
@[simp] theorem releaseReady_baudDiv : p.releaseReady.baudDiv = p.baudDiv := rfl
@[simp] theorem releaseReady_txLine : p.releaseReady.txLine = p.txLine := rfl
@[simp] theorem freeLock_txRing : p.freeLock.txRing = p.txRing := rfl
@[simp] theorem freeLock_rxRing : p.freeLock.rxRing = p.rxRing := rfl
@[simp] theorem freeLock_stage : p.freeLock.stage = p.stage := rfl
@[simp] theorem freeLock_rxBuf : p.freeLock.rxBuf = p.rxBuf := rfl
@[simp] theorem freeLock_mbox : p.freeLock.mbox = p.mbox := rfl
@[simp] theorem freeLock_txHw : p.freeLock.txHw = p.txHw := rfl
@[simp] theorem freeLock_rxHw : p.freeLock.rxHw = p.rxHw := rfl
@[simp] theorem freeLock_fsm : p.freeLock.fsm = p.fsm := rfl
@[simp] theorem freeLock_pos : p.freeLock.pos = p.pos := rfl
@[simp] theorem freeLock_total : p.freeLock.total = p.total := rfl
@[simp] theorem freeLock_send : p.freeLock.send = p.send := rfl
@[simp] theorem freeLock_threPend : p.freeLock.threPend = p.threPend := rfl
@[simp] theorem freeLock_maskTx : p.freeLock.maskTx = p.maskTx := rfl
@[simp] theorem freeLock_maskRx : p.freeLock.maskRx = p.maskRx := rfl
@[simp] theorem freeLock_hwOverrun : p.freeLock.hwOverrun = p.hwOverrun := rfl
@[simp] theorem freeLock_rxOverrun : p.freeLock.rxOverrun = p.rxOverrun := rfl
@[simp] theorem freeLock_room : p.freeLock.room = p.room := rfl
@[simp] theorem freeLock_ready : p.freeLock.ready = p.ready := rfl
@[simp] theorem freeLock_txLock : p.freeLock.txLock = .free := rfl
@[simp] theorem freeLock_baudDiv : p.freeLock.baudDiv = p.baudDiv := rfl
@[simp] theorem freeLock_txLine : p.freeLock.txLine = p.txLine := rfl
@[simp] theorem fsmReset_txRing : p.fsmReset.txRing = p.txRing := rfl
@[simp] theorem fsmReset_rxRing : p.fsmReset.rxRing = p.rxRing := rfl
@[simp] theorem fsmReset_stage : p.fsmReset.stage = p.stage := rfl
@[simp] theorem fsmReset_rxBuf : p.fsmReset.rxBuf = p.rxBuf := rfl
@[simp] theorem fsmReset_mbox : p.fsmReset.mbox = p.mbox := rfl
@[simp] theorem fsmReset_txHw : p.fsmReset.txHw = p.txHw := rfl
@[simp] theorem fsmReset_rxHw : p.fsmReset.rxHw = p.rxHw := rfl
@[simp] theorem fsmReset_fsm : p.fsmReset.fsm = .waitSync := rfl
@[simp] theorem fsmReset_pos : p.fsmReset.pos = 0 := rfl
@[simp] theorem fsmReset_total : p.fsmReset.total = sentinel := rfl
@[simp] theorem fsmReset_send : p.fsmReset.send = p.send := rfl
@[simp] theorem fsmReset_threPend : p.fsmReset.threPend = p.threPend := rfl
@[simp] theorem fsmReset_maskTx : p.fsmReset.maskTx = p.maskTx := rfl
@[simp] theorem fsmReset_maskRx : p.fsmReset.maskRx = p.maskRx := rfl
@[simp] theorem fsmReset_hwOverrun : p.fsmReset.hwOverrun = p.hwOverrun := rfl
@[simp] theorem fsmReset_rxOverrun : p.fsmReset.rxOverrun = p.rxOverrun := rfl
@[simp] theorem fsmReset_room : p.fsmReset.room = p.room := rfl
@[simp] theorem fsmReset_ready : p.fsmReset.ready = p.ready := rfl
@[simp] theorem fsmReset_txLock : p.fsmReset.txLock = p.txLock := rfl
@[simp] theorem fsmReset_baudDiv : p.fsmReset.baudDiv = p.baudDiv := rfl
@[simp] theorem fsmReset_txLine : p.fsmReset.txLine = p.txLine := rfl

end PortUpdates

end Sys2Proof.Machine
end

