-- ==== Sys2Proof/Laws/Ops.lean ====
section
/-!
SUPPORT. Sys2Proof/Laws/Ops.lean: what the shared operations over the byte arrays and the rings do, said once.
-/

namespace Sys2Proof.Machine

/-! ### Operands -/

@[simp] theorem byteAt_of_getElem? {k j : Nat} {b : List Byte} {x : Byte} (h : b[j]? = some x) : byteAt k b j = x := by
  simp [byteAt, List.getD_eq_getElem?_getD, h]

/-- An operand that is complete holds no free byte. -/
@[simp] theorem operandBytes_of_le {k m : Nat} {b : List Byte} (h : m ≤ b.length) : operandBytes k b m = b.take m := by
  simp [operandBytes, Nat.sub_eq_zero_of_le h]

@[simp] theorem operandBytes_length (k : Nat) (b : List Byte) (m : Nat) : (operandBytes k b m).length = m := by
  simp [operandBytes]
  omega

/-- Byte j of an operand: the byte given, or a free one. -/
theorem operandBytes_getElem? {k m j : Nat} {b : List Byte} (h : j < m) : (operandBytes k b m)[j]? = some (byteAt k b j) := by
  unfold operandBytes byteAt
  by_cases hj : j < b.length
  · rw [List.getElem?_append_left (by simp; omega), List.getElem?_take_of_lt h, List.getElem?_eq_getElem hj]
    simp [hj]
  · rw [List.getElem?_append_right (by simp; omega), List.getElem?_map, List.length_take,
      List.getElem?_range' (by omega)]
    simp [List.getD_eq_getElem?_getD, List.getElem?_eq_none (Nat.not_lt.1 hj)]
    congr 1
    omega

/-- Fewer bytes of an operand are the first of more. -/
theorem operandBytes_take {k m n : Nat} (b : List Byte) (h : m ≤ n) : (operandBytes k b n).take m = operandBytes k b m := by
  apply List.ext_getElem?
  intro i
  by_cases hi : i < m
  · rw [List.getElem?_take_of_lt hi, operandBytes_getElem? hi, operandBytes_getElem? (by omega)]
  · rw [List.getElem?_eq_none (by simp; omega), List.getElem?_eq_none (by simp; omega)]

/-- An operand keeps every byte given. -/
theorem fills_operandBytes (k : Nat) (b : List Byte) (m : Nat) : Fills b m (operandBytes k b m) := by
  refine ⟨operandBytes_length .., fun j h hj => ?_⟩
  rw [operandBytes_getElem? h, byteAt, List.getD_eq_getElem?_getD, List.getElem?_eq_getElem hj]
  rfl

/-! ### Byte arrays -/

@[simp] theorem Memory.lookup_nil (a : Nat) : Memory.lookup [] a = none := rfl

/-- A read after a write: the written byte at its index, every other index as before. -/
theorem Memory.lookup_insert (m : Memory) (a k : Nat) (b : Byte) :
    (m.insert a b).lookup k = if k = a then some b else m.lookup k := by
  induction m with
  | nil => by_cases h : a = k <;> simp [Memory.insert, Memory.lookup, Memory.unlisted, h, eq_comm]
  | cons c rest ih =>
    obtain ⟨x, v⟩ := c
    unfold Memory.insert
    split
    · by_cases h : a = k <;> simp [Memory.lookup, h, eq_comm]
    · split
      · rename_i h1 h2
        subst h2
        by_cases h : a = k <;> simp [Memory.lookup, h, eq_comm]
      · rename_i h1 h2
        by_cases hx : x = k
        · have : ¬ k = a := by omega
          simp [Memory.lookup, hx, this]
        · simp [Memory.lookup, hx, ih]

@[simp] theorem Memory.lookup_insert_self (m : Memory) (a : Nat) (b : Byte) : (m.insert a b).lookup a = some b := by
  simp [Memory.lookup_insert]

/-- The head of an insertion: the new index or the old head. -/
theorem Memory.insert_cons (m : Memory) (a : Nat) (b : Byte) :
    ∃ k v rest, m.insert a b = (k, v) :: rest ∧ (k = a ∨ ∃ w rest', m = (k, w) :: rest') := by
  cases m with
  | nil => exact ⟨a, b, [], rfl, .inl rfl⟩
  | cons c rest =>
    obtain ⟨x, v⟩ := c
    unfold Memory.insert
    split
    · exact ⟨_, _, _, rfl, .inl rfl⟩
    · split
      · exact ⟨_, _, _, rfl, .inl rfl⟩
      · exact ⟨_, _, _, rfl, .inr ⟨_, _, rfl⟩⟩

theorem Memory.wf_cons (k : Nat) (v : Byte) (rest : Memory) :
    Memory.wf ((k, v) :: rest) = true ↔ (∀ k' v' r, rest = (k', v') :: r → k < k') ∧ Memory.wf rest = true := by
  cases rest with
  | nil => simp [Memory.wf, Memory.unlisted]
  | cons c r =>
    obtain ⟨k', v'⟩ := c
    simp [Memory.wf, Memory.unlisted]

/-- Every write keeps the canonical form. -/
theorem Memory.wf_insert (m : Memory) (a : Nat) (b : Byte) (h : Memory.wf m = true) :
    Memory.wf (m.insert a b) = true := by
  induction m with
  | nil => simp [Memory.insert, Memory.wf, Memory.unlisted]
  | cons c rest ih =>
    obtain ⟨x, v⟩ := c
    have h' := (Memory.wf_cons x v rest).1 h
    unfold Memory.insert
    split
    · rename_i hlt
      refine (Memory.wf_cons a b _).2 ⟨?_, h⟩
      intro k' v' r e
      cases e
      exact hlt
    · split
      · rename_i h2
        subst h2
        exact (Memory.wf_cons a b rest).2 h'
      · rename_i h1 h2
        refine (Memory.wf_cons x v _).2 ⟨?_, ih h'.2⟩
        intro k' v' r e
        obtain ⟨k, w, r', e', hk⟩ := Memory.insert_cons rest a b
        rw [e'] at e
        cases e
        rcases hk with rfl | ⟨w', r'', rfl⟩
        · omega
        · exact h'.1 _ _ _ rfl

theorem Memory.read_ok {size : Nat} {m : Memory} {a : Nat} {b : Byte} :
    m.read size a = .ok b ↔ a < size ∧ m.lookup a = some b := by
  unfold Memory.read
  split
  · rename_i h
    cases hm : m.lookup a <;> simp [h]
  · rename_i h
    simp [h]

theorem Memory.write_ok {size : Nat} {m m' : Memory} {a : Nat} {b : Byte} :
    m.write size a b = .ok m' ↔ a < size ∧ m' = m.insert a b := by
  unfold Memory.write
  split
  · rename_i h
    simp [h, eq_comm]
  · rename_i h
    simp [h]

/-- A run of writes that fits succeeds: the run's bytes at their places, every other index as before, canonical form
kept. -/
theorem Memory.writeRun_ok (size : Nat) (bs : List Byte) :
    ∀ (m : Memory) (a : Nat), a + bs.length ≤ size →
      ∃ m', m.writeRun size a bs = .ok m' ∧ (Memory.wf m = true → Memory.wf m' = true) ∧
        (∀ k, m'.lookup k = if a ≤ k ∧ k < a + bs.length then bs[k - a]? else m.lookup k) := by
  induction bs with
  | nil =>
    intro m a _
    refine ⟨m, rfl, id, fun k => ?_⟩
    have : ¬ (a ≤ k ∧ k < a + ([] : List Byte).length) := by simp
    rw [if_neg this]
  | cons b bs ih =>
    intro m a h
    simp only [List.length_cons] at h
    obtain ⟨m', e, hw, hl⟩ := ih (m.insert a b) (a + 1) (by omega)
    have hlt : a < size := by omega
    refine ⟨m', by simp [Memory.writeRun, Memory.write, hlt, e], fun h => hw (Memory.wf_insert _ _ _ h), fun k => ?_⟩
    rw [hl, Memory.lookup_insert]
    simp only [List.length_cons]
    by_cases h1 : k = a
    · subst h1
      simp
    · by_cases h2 : a + 1 ≤ k ∧ k < a + 1 + bs.length
      · have h3 : a ≤ k ∧ k < a + (bs.length + 1) := by omega
        obtain ⟨j, rfl⟩ : ∃ j, k = a + 1 + j := ⟨k - a - 1, by omega⟩
        rw [if_pos h2, if_pos h3]
        have e1 : a + 1 + j - (a + 1) = j := by omega
        have e2 : a + 1 + j - a = j + 1 := by omega
        simp [e1, e2]
      · have h3 : ¬ (a ≤ k ∧ k < a + (bs.length + 1)) := by omega
        rw [if_neg h2, if_neg h3, if_neg h1]

/-- A run of reads of written bytes succeeds and returns them in order. -/
theorem Memory.readRun_ok (size : Nat) (m : Memory) :
    ∀ (k a : Nat), a + k ≤ size → (∀ j, j < k → m.lookup (a + j) ≠ none) →
      ∃ bs, m.readRun size a k = .ok bs ∧ bs.length = k ∧ ∀ j, j < k → bs[j]? = m.lookup (a + j) := by
  intro k
  induction k with
  | zero =>
    intro a _ _
    exact ⟨[], rfl, rfl, fun j h => absurd h (by omega)⟩
  | succ k ih =>
    intro a h hw
    obtain ⟨b, hb⟩ := Option.ne_none_iff_exists'.1 (hw 0 (by omega))
    obtain ⟨bs, e, hl, hj⟩ := ih (a + 1) (by omega) (fun j h => by
      have := hw (j + 1) (by omega)
      rwa [show a + 1 + j = a + (j + 1) by omega])
    have hr : m.read size a = .ok b := Memory.read_ok.2 ⟨by omega, by simpa using hb⟩
    refine ⟨b :: bs, by simp [Memory.readRun, hr, e], by simp [hl], fun j h => ?_⟩
    cases j with
    | zero => simpa using hb.symm
    | succ j =>
      rw [List.getElem?_cons_succ, hj j (by omega), show a + 1 + j = a + (j + 1) by omega]

/-! ### Rings -/

theorem mod_small {x m : Nat} (h : x < 2 * m) : x % m = if x < m then x else x - m := by
  split
  · rename_i h1
    exact Nat.mod_eq_of_lt h1
  · rename_i h1
    rw [Nat.mod_eq_sub_mod (by omega), Nat.mod_eq_of_lt (by omega)]

theorem Ring.count_eq {m : Nat} {r : Ring} (hi : r.inIdx < m) (ho : r.outIdx < m) :
    r.count m = if r.outIdx ≤ r.inIdx then r.inIdx - r.outIdx else r.inIdx + m - r.outIdx := by
  unfold Ring.count
  rw [mod_small (by omega)]
  split <;> split <;> omega

/-- `empty(R)` is `count(R) = 0` (spec/10_state.md R34). -/
theorem Ring.isEmpty_iff {m : Nat} {r : Ring} (hi : r.inIdx < m) (ho : r.outIdx < m) :
    r.isEmpty = true ↔ r.count m = 0 := by
  rw [Ring.count_eq hi ho]
  unfold Ring.isEmpty
  simp only [beq_iff_eq]
  split <;> omega

/-- `full(R)` is `count(R) = m − 1` (R34, R80). -/
theorem Ring.isFull_iff {m : Nat} {r : Ring} (hm : 2 ≤ m) (hi : r.inIdx < m) (ho : r.outIdx < m) :
    r.isFull m = true ↔ r.count m = m - 1 := by
  rw [Ring.count_eq hi ho]
  unfold Ring.isFull
  simp only [beq_iff_eq]
  rw [mod_small (by omega)]
  split <;> split <;> omega

theorem Ring.count_lt {m : Nat} {r : Ring} (hi : r.inIdx < m) (ho : r.outIdx < m) : r.count m < m := by
  rw [Ring.count_eq hi ho]
  split <;> omega

@[simp] theorem Ring.bytes_length (m : Nat) (r : Ring) : (r.bytes m).length = r.count m := by simp [Ring.bytes]

theorem Ring.bytes_getElem? (m : Nat) (r : Ring) (j : Nat) (h : j < r.count m) :
    (r.bytes m)[j]? = some ((r.slotAt m j).getD 0#8) := by simp [Ring.bytes, h]

/-- ENQ into a ring that is not full: one more byte at the young end (R78). -/
theorem Ring.enq_spec {m : Nat} {r : Ring} (hm : 2 ≤ m) (h : r.Ok m) (hf : r.isFull m = false) (b : Byte) :
    ∃ r', r.enq m b = .ok r' ∧ r'.Ok m ∧ r'.bytes m = r.bytes m ++ [b] ∧ r'.count m = r.count m + 1 ∧
      r' = { slots := r.slots.insert r.inIdx b, inIdx := (r.inIdx + 1) % m, outIdx := r.outIdx } := by
  obtain ⟨hi, ho, hlive⟩ := h
  have hnf : r.count m ≠ m - 1 := fun e => by
    have := (Ring.isFull_iff hm hi ho).2 e
    simp [hf] at this
  have hcl := Ring.count_lt hi ho
  have hc := Ring.count_eq hi ho
  set r' : Ring := { slots := r.slots.insert r.inIdx b, inIdx := (r.inIdx + 1) % m, outIdx := r.outIdx } with hr'
  have hi' : r'.inIdx < m := Nat.mod_lt _ (by omega)
  have ho' : r'.outIdx < m := ho
  have hc' : r'.count m = r.count m + 1 := by
    rw [Ring.count_eq hi' ho']
    have : r'.inIdx = if r.inIdx + 1 < m then r.inIdx + 1 else r.inIdx + 1 - m := mod_small (by omega)
    rw [this, hc]
    have : r'.outIdx = r.outIdx := rfl
    rw [this]
    rw [hc] at hnf
    split_ifs at hnf ⊢ <;> omega
  have hidx : (r.outIdx + r.count m) % m = r.inIdx := by
    rw [mod_small (by omega), hc]
    split <;> split <;> omega
  have hold : ∀ j, j < r.count m → r'.slotAt m j = r.slotAt m j := by
    intro j hj
    unfold Ring.slotAt
    rw [hr']
    simp only
    rw [Memory.lookup_insert, if_neg]
    rw [mod_small (by omega)]
    rw [hc] at hj hcl
    split <;> split at hj <;> omega
  have hnew : r'.slotAt m (r.count m) = some b := by
    unfold Ring.slotAt
    rw [hr']
    simp only
    rw [hidx, Memory.lookup_insert_self]
  refine ⟨r', ?_, ⟨hi', ho', ?_⟩, ?_, hc', rfl⟩
  · simp [Ring.enq, Memory.write, hi, hr']
  · intro j hj
    rw [hc'] at hj
    rcases Nat.lt_succ_iff_lt_or_eq.1 hj with h | rfl
    · rw [hold j h]
      exact hlive j h
    · rw [hnew]
      simp
  · unfold Ring.bytes
    rw [hc', List.range_succ, List.map_append]
    congr 1
    · apply List.map_congr_left
      intro j hj
      rw [hold j (List.mem_range.1 hj)]
    · simp [hnew]

/-- DEQ from a ring that is not empty: the oldest byte leaves (R79). -/
theorem Ring.deq_spec {m : Nat} {r : Ring} (h : r.Ok m) (he : r.isEmpty = false) :
    ∃ b r', r.deq m = .ok (b, r') ∧ r'.Ok m ∧ r.bytes m = b :: r'.bytes m ∧ r.count m = r'.count m + 1 ∧
      r.slotAt m 0 = some b ∧ r' = { r with outIdx := (r.outIdx + 1) % m } := by
  obtain ⟨hi, ho, hlive⟩ := h
  have hne : r.count m ≠ 0 := fun e => by
    have := (Ring.isEmpty_iff hi ho).2 e
    simp [he] at this
  have hcl := Ring.count_lt hi ho
  have hc := Ring.count_eq hi ho
  obtain ⟨b, hb⟩ := Option.ne_none_iff_exists'.1 (hlive 0 (by omega))
  set r' : Ring := { r with outIdx := (r.outIdx + 1) % m } with hr'
  have ho' : r'.outIdx < m := Nat.mod_lt _ (by omega)
  have hi' : r'.inIdx < m := hi
  have hoe : r'.outIdx = if r.outIdx + 1 < m then r.outIdx + 1 else r.outIdx + 1 - m := mod_small (by omega)
  have hie : r'.inIdx = r.inIdx := rfl
  have hc' : r.count m = r'.count m + 1 := by
    rw [Ring.count_eq hi' ho', hoe, hc, hie]
    rw [hc] at hne
    split_ifs at hne ⊢ <;> omega
  have hshift : ∀ j, j < r'.count m → r'.slotAt m j = r.slotAt m (j + 1) := by
    intro j hj
    unfold Ring.slotAt
    have : (r'.outIdx + j) % m = (r.outIdx + (j + 1)) % m := by
      rw [hr']
      simp only
      rw [Nat.mod_add_mod]
      congr 1
      omega
    rw [this]
  have hl : r.slots.lookup r.outIdx = some b := by
    have := hb
    unfold Ring.slotAt at this
    rwa [Nat.add_zero, Nat.mod_eq_of_lt ho] at this
  refine ⟨b, r', ?_, ⟨hi', ho', ?_⟩, ?_, hc', hb, rfl⟩
  · simp [Ring.deq, he, Memory.read_ok.2 ⟨ho, hl⟩, hr']
  · intro j hj
    rw [hshift j hj]
    exact hlive _ (by omega)
  · unfold Ring.bytes
    rw [hc', List.range_succ_eq_map, List.map_cons, List.map_map]
    congr 1
    · simp [hb]
    · apply List.map_congr_left
      intro j hj
      simp [hshift j (List.mem_range.1 hj)]

end Sys2Proof.Machine
end

