-- ==== Sys2Proof/Laws/Ports.lean ====
section
/-!
SUPPORT. Sys2Proof/Laws/Ports.lean: what each operation on one transport's state does when the transport's invariant holds: it
succeeds, keeps the invariant, names the fields it writes, and says what becomes of the byte streams.
-/

namespace Sys2Proof.Machine

theorem Port.memWf_iff {p : Port} : p.memWf = true ↔ Memory.wf p.txRing.slots = true ∧ Memory.wf p.rxRing.slots = true ∧
    Memory.wf p.stage = true ∧ Memory.wf p.rxBuf = true := by
  simp [Port.memWf, and_assoc]

theorem Port.FsmOk.congr {p q : Port} (h : p.FsmOk) (h1 : q.fsm = p.fsm) (h2 : q.pos = p.pos) (h3 : q.total = p.total)
    (h4 : q.rxBuf = p.rxBuf) : q.FsmOk := by
  refine ⟨?_, ?_, ?_⟩
  · have := h.shape
    unfold Port.fsmShape at this ⊢
    rwa [h1, h2, h3]
  · rw [h2, h4]
    exact h.written
  · rw [h2, h3, h4]
    exact h.lengthByte

theorem Port.SendOk.congr {p q : Port} (h : p.SendOk) (h1 : q.send = p.send) (h2 : q.stage = p.stage) : q.SendOk := by
  refine ⟨?_, ?_⟩
  · rw [h1]
    exact h.size
  · rw [h1, h2]
    exact h.staged

theorem Port.txClaim_congr {p q : Port} (h : q.send = p.send) : q.txClaim = p.txClaim := by
  unfold Port.txClaim
  rw [h]

/-- Fields outside the invariant, and the mask claim of the reader, may change freely. -/
theorem Port.Ok.congr {c : Params} {p q : Port} (h : p.Ok c) (h1 : q.txRing = p.txRing) (h2 : q.rxRing = p.rxRing)
    (h3 : q.stage = p.stage) (h4 : q.rxBuf = p.rxBuf) (h5 : q.txHw.length ≤ c.txHwDepth)
    (h6 : q.rxHw.length ≤ c.rxHwDepth) (h7 : q.fsm = p.fsm) (h8 : q.pos = p.pos) (h9 : q.total = p.total)
    (h10 : q.send = p.send) (h11 : q.maskTx = p.maskTx) : q.Ok c where
  mem := by
    have := h.mem
    unfold Port.memWf at this ⊢
    rwa [h1, h2, h3, h4]
  tx := h1 ▸ h.tx
  rx := h2 ▸ h.rx
  txHw := h5
  rxHw := h6
  fsm := h.fsm.congr h7 h8 h9 h4
  snd := h.snd.congr h10 h3
  claim := by rw [h11, Port.txClaim_congr h10, h.claim]

/-! ### The transmit side -/

/-- One byte from the ring to the transmit register: the stream out is unchanged (R126, R128). -/
theorem Port.moveTx_spec {c : Params} {p : Port} (h : p.Ok c) (ha : p.txCanAccept c = true)
    (he : p.txRing.isEmpty = false) :
    ∃ b ring, p.moveTx c = .ok { p with txRing := ring, txHw := p.txHw ++ [b] } ∧
      Port.Ok c { p with txRing := ring, txHw := p.txHw ++ [b] } ∧ p.txRing.bytes c.n = b :: ring.bytes c.n ∧
      p.txRing.deq c.n = .ok (b, ring) ∧ ring.slots = p.txRing.slots ∧ p.txRing.count c.n = ring.count c.n + 1 := by
  obtain ⟨b, ring, e, hok, hb, hc, _, hr⟩ := Ring.deq_spec h.tx he
  have hs : ring.slots = p.txRing.slots := by rw [hr]
  have hlt : p.txHw.length < c.txHwDepth := by simpa [Port.txCanAccept] using ha
  refine ⟨b, ring, ?_, ?_, hb, e, hs, hc⟩
  · have : Port.txCanAccept c { p with txRing := ring } = true := ha
    simp [Port.moveTx, e, Port.pushTx, this]
  · exact {
      mem := by
        have := Port.memWf_iff.1 h.mem
        exact Port.memWf_iff.2 ⟨by simpa [hs] using this.1, this.2⟩
      tx := hok
      rx := h.rx
      txHw := by simp; omega
      rxHw := h.rxHw
      fsm := h.fsm.congr rfl rfl rfl rfl
      snd := h.snd.congr rfl rfl
      claim := h.claim }

/-- The drain loop moves the oldest bytes that fit, in order (R128). -/
theorem Port.drain_spec {c : Params} : ∀ (k : Nat) {p : Port}, p.Ok c → c.txHwDepth ≤ p.txHw.length + k →
    ∃ ring hw, p.drain c k = .ok { p with txRing := ring, txHw := hw } ∧
      Port.Ok c { p with txRing := ring, txHw := hw } ∧
      hw = p.txHw ++ (p.txRing.bytes c.n).take (c.txHwDepth - p.txHw.length) ∧
      ring.bytes c.n = (p.txRing.bytes c.n).drop (c.txHwDepth - p.txHw.length) ∧
      ring.slots = p.txRing.slots := by
  intro k
  induction k with
  | zero =>
    intro p h hk
    refine ⟨p.txRing, p.txHw, rfl, h, ?_, ?_, rfl⟩ <;>
      rw [show c.txHwDepth - p.txHw.length = 0 by omega] <;> simp
  | succ k ih =>
    intro p h hk
    by_cases ha : p.txCanAccept c = true
    · by_cases he : p.txRing.isEmpty = true
      · have hz := (Ring.isEmpty_iff h.tx.inLt h.tx.outLt).1 he
        have hb : p.txRing.bytes c.n = [] := List.eq_nil_of_length_eq_zero (by simp [hz])
        exact ⟨p.txRing, p.txHw, by simp [Port.drain, he], h, by simp [hb], by simp [hb], rfl⟩
      · have he' : p.txRing.isEmpty = false := by simpa using he
        obtain ⟨b, ring, e, hok, hb, _, hs, _⟩ := Port.moveTx_spec h ha he'
        have hlt : p.txHw.length < c.txHwDepth := by simpa [Port.txCanAccept] using ha
        obtain ⟨ring', hw', e', hok', h1, h2, h3⟩ := ih hok (by simp; omega)
        refine ⟨ring', hw', ?_, hok', ?_, ?_, h3.trans hs⟩
        · simp only [Port.drain, ha, he', e, Bool.not_false, Bool.and_self, if_true]
          exact e'
        · rw [h1, hb]
          have : c.txHwDepth - p.txHw.length = (c.txHwDepth - (p.txHw ++ [b]).length) + 1 := by simp; omega
          rw [this, List.take_succ_cons]
          simp
        · rw [h2, hb]
          have : c.txHwDepth - p.txHw.length = (c.txHwDepth - (p.txHw ++ [b]).length) + 1 := by simp; omega
          rw [this, List.drop_succ_cons]
    · have hge : ¬ p.txHw.length < c.txHwDepth := by simpa [Port.txCanAccept] using ha
      refine ⟨p.txRing, p.txHw, by simp [Port.drain, ha], h, ?_, ?_, rfl⟩ <;>
        rw [show c.txHwDepth - p.txHw.length = 0 by omega] <;> simp

/-- The body of the TX drain handler (R128, R129). -/
theorem Port.irqTxBody_spec {c : Params} {p : Port} (h : p.Ok c) :
    ∃ q, p.irqTxBody c = .ok q ∧ q.Ok c ∧
      q = { p with txRing := q.txRing, txHw := q.txHw, threPend := false, room := q.room } ∧
      q.txHw = p.txHw ++ (p.txRing.bytes c.n).take (c.txHwDepth - p.txHw.length) ∧
      q.txRing.bytes c.n = (p.txRing.bytes c.n).drop (c.txHwDepth - p.txHw.length) ∧
      q.txRing.slots = p.txRing.slots ∧
      q.room = (if q.txRing.isFull c.n then p.room else p.room + 1) := by
  have h0 : Port.Ok c { p with threPend := false } :=
    h.congr rfl rfl rfl rfl h.txHw h.rxHw rfl rfl rfl rfl rfl
  obtain ⟨ring, hw, e, hok, h1, h2, h3⟩ := Port.drain_spec c.txHwDepth h0 (by simp)
  unfold Port.irqTxBody
  rw [e]
  simp only
  by_cases hf : ring.isFull c.n = true
  · rw [if_pos hf]
    exact ⟨_, rfl, hok, rfl, h1, h2, h3, by simp [hf]⟩
  · rw [if_neg hf]
    exact ⟨_, rfl, hok.congr rfl rfl rfl rfl hok.txHw hok.rxHw rfl rfl rfl rfl rfl, rfl, h1, h2, h3, by simp [hf]⟩

/-- S_STAGE: the bytes are staged, the claim taken, the emptiness sampled (R122, R123). -/
theorem Port.stageBytes_spec {c : Params} {p : Port} (h : p.Ok c) {bytes : List Byte} {n : Nat} (hl : bytes.length = n)
    (hn : n ≤ 255) :
    ∃ m, p.stageBytes bytes n = .ok { p with
        maskTx := true, stage := m, send := some { n := n, i := 0, wasEmpty := p.txRing.isEmpty, phase := .sLoop } } ∧
      Port.Ok c { p with
        maskTx := true, stage := m, send := some { n := n, i := 0, wasEmpty := p.txRing.isEmpty, phase := .sLoop } } ∧
      (∀ k, m.lookup k = if k < n then bytes[k]? else p.stage.lookup k) := by
  obtain ⟨m, e, hw, hlk⟩ := Memory.writeRun_ok stageCap bytes p.stage 0 (by simp [stageCap]; omega)
  have hlk' : ∀ k, m.lookup k = if k < n then bytes[k]? else p.stage.lookup k := by
    intro k
    rw [hlk]
    simp [hl]
  refine ⟨m, by simp [Port.stageBytes, e, Port.claimTx], ?_, hlk'⟩
  exact {
    mem := by
      have := Port.memWf_iff.1 h.mem
      exact Port.memWf_iff.2 ⟨this.1, this.2.1, hw this.2.2.1, this.2.2.2⟩
    tx := h.tx
    rx := h.rx
    txHw := h.txHw
    rxHw := h.rxHw
    fsm := h.fsm.congr rfl rfl rfl rfl
    snd := ⟨by
      intro r hr
      simp only [Option.some.injEq] at hr
      subst hr
      exact ⟨hn, Nat.zero_le _⟩, by
      intro r j hr hj
      simp only [Option.some.injEq] at hr
      subst hr
      simp only at hj ⊢
      rw [hlk' j, if_pos hj]
      simp [hl, hj]⟩
    claim := rfl }

/-- S_LOOP: the three branches (R124). -/
theorem Port.sLoop_spec {c : Params} {p : Port} (hc : c.wf) (h : p.Ok c) {r : SendRec} (hr : p.send = some r)
    (hph : r.phase = .sLoop) :
    (r.i = r.n ∧ p.sLoop c r = .ok { p with send := some { r with phase := .sKick } } ∧
      Port.Ok c { p with send := some { r with phase := .sKick } }) ∨
    (r.i < r.n ∧ p.txRing.isFull c.n = true ∧
      p.sLoop c r = .ok { p with maskTx := false, send := some { r with phase := .sWait } } ∧
      Port.Ok c { p with maskTx := false, send := some { r with phase := .sWait } }) ∨
    (r.i < r.n ∧ p.txRing.isFull c.n = false ∧ ∃ b ring, p.stage.lookup r.i = some b ∧
      p.sLoop c r = .ok { p with txRing := ring, send := some { r with i := r.i + 1 } } ∧
      Port.Ok c { p with txRing := ring, send := some { r with i := r.i + 1 } } ∧
      ring.bytes c.n = p.txRing.bytes c.n ++ [b] ∧ ring.slots = p.txRing.slots.insert p.txRing.inIdx b) := by
  have hm : p.maskTx = true := by
    rw [h.claim]
    simp [Port.txClaim, hr, hph]
  have hsz := h.snd.size r hr
  by_cases hi : r.i = r.n
  · refine .inl ⟨hi, by simp [Port.sLoop, hm, hi], ?_⟩
    exact { mem := h.mem, tx := h.tx, rx := h.rx, txHw := h.txHw, rxHw := h.rxHw, fsm := h.fsm.congr rfl rfl rfl rfl
            snd := ⟨by
              intro r' e
              simp only [Option.some.injEq] at e
              subst e
              exact hsz, by
              intro r' j e hj
              simp only [Option.some.injEq] at e
              subst e
              exact h.snd.staged r j hr hj⟩
            claim := hm }
  · have hlt : r.i < r.n := by omega
    by_cases hf : p.txRing.isFull c.n = true
    · refine .inr (.inl ⟨hlt, hf, by simp [Port.sLoop, hm, hi, hf, Port.dropTx], ?_⟩)
      exact { mem := h.mem, tx := h.tx, rx := h.rx, txHw := h.txHw, rxHw := h.rxHw, fsm := h.fsm.congr rfl rfl rfl rfl
              snd := ⟨by
                intro r' e
                simp only [Option.some.injEq] at e
                subst e
                exact hsz, by
                intro r' j e hj
                simp only [Option.some.injEq] at e
                subst e
                exact h.snd.staged r j hr hj⟩
              claim := rfl }
    · have hf' : p.txRing.isFull c.n = false := by simpa using hf
      obtain ⟨b, hb⟩ := Option.ne_none_iff_exists'.1 (h.snd.staged r r.i hr hlt)
      obtain ⟨ring, e, hok, hby, _, hring⟩ := Ring.enq_spec hc.1 h.tx hf' b
      have hread : p.stage.read stageCap r.i = .ok b := Memory.read_ok.2 ⟨by simp [stageCap]; omega, hb⟩
      refine .inr (.inr ⟨hlt, hf', b, ring, hb, by simp [Port.sLoop, hm, hi, hf', hread, e], ?_, hby, by rw [hring]⟩)
      exact { mem := by
                have := Port.memWf_iff.1 h.mem
                refine Port.memWf_iff.2 ⟨?_, this.2⟩
                simp only [hring]
                exact Memory.wf_insert _ _ _ this.1
              tx := hok, rx := h.rx, txHw := h.txHw, rxHw := h.rxHw, fsm := h.fsm.congr rfl rfl rfl rfl
              snd := ⟨by
                intro r' e
                simp only [Option.some.injEq] at e
                subst e
                exact ⟨hsz.1, hlt⟩, by
                intro r' j e hj
                simp only [Option.some.injEq] at e
                subst e
                exact h.snd.staged r j hr hj⟩
              claim := by simp [hm, Port.txClaim, hph] }

/-- Changing only the phase (and the claim that goes with it) of a send keeps the invariant. -/
theorem Port.Ok.phase {c : Params} {p : Port} (h : p.Ok c) {r : SendRec} (hr : p.send = some r) (ph : SendPhase)
    (m : Bool) (room : Nat) (hm : m = Port.txClaim { p with send := some { r with phase := ph } }) :
    Port.Ok c { p with maskTx := m, room := room, send := some { r with phase := ph } } where
  mem := h.mem
  tx := h.tx
  rx := h.rx
  txHw := h.txHw
  rxHw := h.rxHw
  fsm := h.fsm.congr rfl rfl rfl rfl
  snd := ⟨by
    intro r' e
    simp only [Option.some.injEq] at e
    subst e
    exact h.snd.size r hr, by
    intro r' j e hj
    simp only [Option.some.injEq] at e
    subst e
    exact h.snd.staged r j hr hj⟩
  claim := hm

/-- S_KICK: one byte moves, or none (R126). -/
theorem Port.sKick_spec {c : Params} {p : Port} (h : p.Ok c) {r : SendRec} (hr : p.send = some r)
    (hph : r.phase = .sKick) :
    ∃ ring hw, p.sKick c r = .ok { p with txRing := ring, txHw := hw, send := some { r with phase := .sExit } } ∧
      Port.Ok c { p with txRing := ring, txHw := hw, send := some { r with phase := .sExit } } ∧
      hw ++ ring.bytes c.n = p.txHw ++ p.txRing.bytes c.n ∧ ring.slots = p.txRing.slots ∧
      hw.length = p.txHw.length +
        (if r.wasEmpty && p.txCanAccept c && !p.txRing.isEmpty then 1 else 0) := by
  have hm : p.maskTx = true := by
    rw [h.claim]
    simp [Port.txClaim, hr, hph]
  by_cases hk : (r.wasEmpty && p.txCanAccept c && !p.txRing.isEmpty) = true
  · have hk' : (r.wasEmpty = true ∧ p.txCanAccept c = true) ∧ p.txRing.isEmpty = false := by simpa using hk
    obtain ⟨b, ring, e, hok, hb, _, hs, _⟩ := Port.moveTx_spec h hk'.1.2 hk'.2
    refine ⟨ring, p.txHw ++ [b], ?_, ?_, by simp [hb], hs, by simp [hk]⟩
    · unfold Port.sKick
      rw [if_neg (by simp [hm]), if_pos hk, e]
    · exact Port.Ok.phase hok hr .sExit p.maskTx p.room hm
  · refine ⟨p.txRing, p.txHw, ?_, Port.Ok.phase h hr .sExit p.maskTx p.room hm, rfl, rfl, by simp [hk]⟩
    unfold Port.sKick
    rw [if_neg (by simp [hm]), if_neg hk]

/-- S_EXIT (R127). -/
theorem Port.exit_ok {c : Params} {p : Port} (h : p.Ok c) : Port.Ok c { p.dropTx with send := none } where
  mem := h.mem
  tx := h.tx
  rx := h.rx
  txHw := h.txHw
  rxHw := h.rxHw
  fsm := h.fsm.congr rfl rfl rfl rfl
  snd := ⟨by simp, by simp⟩
  claim := rfl

/-! ### The receive side -/

/-- MAILBOX mode: the last byte stands in the mailbox, one release per byte (R134). -/
theorem Port.rxToMailbox_spec (bs : List Byte) : ∀ (p : Port),
    p.rxToMailbox bs = { p with rxHw := [], mbox := bs.getLastD p.mbox, ready := p.ready + bs.length } := by
  induction bs with
  | nil => intro p; simp [Port.rxToMailbox]
  | cons b bs ih =>
    intro p
    rw [Port.rxToMailbox, ih]
    simp only [Port.mk.injEq, true_and, and_true, List.length_cons]
    refine ⟨?_, by omega⟩
    cases bs <;> simp [List.getLast?_cons]

/-- RING mode: the bytes that fit enter the ring in order, one release each; the flag is set iff some did not fit (R135). -/
theorem Port.rxToRing_spec {c : Params} (hc : c.wf) (bs : List Byte) : ∀ {p : Port}, p.Ok c →
    ∃ q, p.rxToRing c bs = .ok q ∧ q.Ok c ∧
      q = { p with rxHw := [], rxRing := q.rxRing, ready := q.ready, rxOverrun := q.rxOverrun } ∧
      q.rxRing.bytes c.rxn = p.rxRing.bytes c.rxn ++ bs.take (c.rxn - 1 - p.rxRing.count c.rxn) ∧
      q.ready + p.rxRing.count c.rxn = p.ready + q.rxRing.count c.rxn ∧
      q.rxOverrun = (p.rxOverrun || decide (c.rxn - 1 - p.rxRing.count c.rxn < bs.length)) := by
  induction bs with
  | nil =>
    intro p h
    exact ⟨_, rfl, h.congr rfl rfl rfl rfl h.txHw (by simp) rfl rfl rfl rfl rfl, rfl, by simp, rfl, by simp⟩
  | cons b bs ih =>
    intro p h
    have hcl := Ring.count_lt h.rx.inLt h.rx.outLt
    have hfi := Ring.isFull_iff hc.2.1 h.rx.inLt h.rx.outLt
    by_cases hf : p.rxRing.isFull c.rxn = true
    · have h1 : Port.Ok c { p with rxOverrun := true } := h.congr rfl rfl rfl rfl h.txHw h.rxHw rfl rfl rfl rfl rfl
      obtain ⟨q, e, hok, hq, hb, hr, ho⟩ := ih h1
      have hz : c.rxn - 1 - p.rxRing.count c.rxn = 0 := by
        have := hfi.1 hf
        omega
      refine ⟨q, by simp [Port.rxToRing, hf, e], hok, hq, ?_, hr, ?_⟩
      · rw [hb]
        simp [hz]
      · rw [ho]
        simp [hz]
    · have hf' : p.rxRing.isFull c.rxn = false := by simpa using hf
      obtain ⟨ring, e, hrok, hby, hcnt, hring⟩ := Ring.enq_spec hc.2.1 h.rx hf' b
      have h1 : Port.Ok c { p with rxRing := ring, ready := p.ready + 1 } :=
        { mem := by
            have := Port.memWf_iff.1 h.mem
            refine Port.memWf_iff.2 ⟨this.1, ?_, this.2.2⟩
            simp only [hring]
            exact Memory.wf_insert _ _ _ this.2.1
          tx := h.tx, rx := hrok, txHw := h.txHw, rxHw := h.rxHw, fsm := h.fsm.congr rfl rfl rfl rfl
          snd := h.snd.congr rfl rfl, claim := h.claim }
      obtain ⟨q, e', hok, hq, hb, hr, ho⟩ := ih h1
      simp only at hb hr ho
      have hne : p.rxRing.count c.rxn ≠ c.rxn - 1 := fun e => by simp [hfi.2 e] at hf'
      have hstep : c.rxn - 1 - p.rxRing.count c.rxn = (c.rxn - 1 - ring.count c.rxn) + 1 := by omega
      refine ⟨q, by simp [Port.rxToRing, hf', e, e'], hok, hq, ?_, ?_, ?_⟩
      · rw [hb, hby, hstep, List.take_succ_cons]
        simp
      · rw [hcnt] at hr
        omega
      · rw [ho, hstep]
        simp

/-- FSM_STEP keeps the invariant, writes only the reassembler, and never leaves it hunting at another position
(R183, R184). -/
theorem Port.fsmStep_spec {c : Params} {p : Port} (h : p.Ok c) (b : Byte) :
    ∃ q, p.fsmStep b = .ok q ∧ q.Ok c ∧
      q = { p with rxBuf := q.rxBuf, fsm := q.fsm, pos := q.pos, total := q.total } := by
  have hs := h.fsm.shape
  have hmem := Port.memWf_iff.1 h.mem
  have mk : ∀ {q : Port}, q = { p with rxBuf := q.rxBuf, fsm := q.fsm, pos := q.pos, total := q.total } → q.FsmOk →
      Memory.wf q.rxBuf = true → q.Ok c := by
    intro q hq hf hw
    have e1 : q.txRing = p.txRing := by rw [hq]
    have e2 : q.rxRing = p.rxRing := by rw [hq]
    have e3 : q.stage = p.stage := by rw [hq]
    have e4 : q.txHw = p.txHw := by rw [hq]
    have e5 : q.rxHw = p.rxHw := by rw [hq]
    have e6 : q.send = p.send := by rw [hq]
    have e7 : q.maskTx = p.maskTx := by rw [hq]
    exact {
      mem := Port.memWf_iff.2 ⟨e1 ▸ hmem.1, e2 ▸ hmem.2.1, e3 ▸ hmem.2.2.1, hw⟩
      tx := e1 ▸ h.tx
      rx := e2 ▸ h.rx
      txHw := e4 ▸ h.txHw
      rxHw := e5 ▸ h.rxHw
      fsm := hf
      snd := h.snd.congr e6 e3
      claim := by rw [e7, Port.txClaim_congr e6, h.claim] }
  unfold Port.fsmShape at hs
  unfold Port.fsmStep
  cases hfsm : p.fsm with
  | waitSync =>
    rw [hfsm] at hs
    simp only [Port.fsmWaitSync]
    by_cases hb : b = sof
    · rw [if_pos hb]
      simp only [Memory.write, rxBufCap, show (0 : Nat) < 255 by decide, if_true]
      refine ⟨_, rfl, mk rfl ⟨?_, ?_, ?_⟩ (Memory.wf_insert _ _ _ hmem.2.2.2), rfl⟩
      · simp [Port.fsmShape, hs.2]
      · intro j hj
        have : j = 0 := by simp at hj; exact hj
        subst this
        simp
      · intro h5
        simp at h5
    · rw [if_neg hb]
      exact ⟨p, rfl, h, rfl⟩
  | accumulate =>
    rw [hfsm] at hs
    simp only at hs
    simp only [Port.fsmAccumulate]
    have hlt : p.pos < 255 := by omega
    simp only [Memory.write, rxBufCap, hlt, if_true]
    refine ⟨_, rfl, mk rfl ⟨?_, ?_, ?_⟩ (Memory.wf_insert _ _ _ hmem.2.2.2), rfl⟩
    · by_cases h4 : p.pos = 4
      · simp only [h4, if_true, sentinel, Port.fsmShape]
        have hne : ¬ (4 + 1 = min (b.toNat + 6) 255) := by omega
        rw [if_neg hne]
        refine ⟨by omega, by omega, by omega, by omega⟩
      · simp only [h4, if_false, Port.fsmShape]
        by_cases hd : p.pos + 1 = p.total
        · rw [if_pos hd]
          refine ⟨hd, ?_, hs.2.2.1⟩
          by_contra hlt6
          have : p.pos ≤ 4 := by omega
          have := hs.2.2.2 this
          omega
        · rw [if_neg hd]
          refine ⟨by omega, by omega, hs.2.2.1, fun h => hs.2.2.2 (by omega)⟩
    · intro j hj
      simp only at hj
      rw [Memory.lookup_insert]
      split
      · simp
      · exact h.fsm.written j (by omega)
    · intro h5
      simp only at h5
      by_cases h4 : p.pos = 4
      · refine ⟨b, by simp [h4], by simp [h4, sentinel]⟩
      · obtain ⟨l, hl, ht⟩ := h.fsm.lengthByte (by omega)
        refine ⟨l, ?_, by simpa [h4] using ht⟩
        simp only
        rw [Memory.lookup_insert, if_neg (by omega), hl]
  | done => exact ⟨p, rfl, h, rfl⟩

/-- R_ENTER's reset of the reassembler keeps the invariant (R137). -/
theorem Port.fsmReset_ok {c : Params} {p : Port} (h : p.Ok c) : (p.claimRx.fsmReset).Ok c where
  mem := h.mem
  tx := h.tx
  rx := h.rx
  txHw := h.txHw
  rxHw := h.rxHw
  fsm := ⟨⟨rfl, rfl⟩, fun j hj => absurd hj (by simp), fun h5 => absurd h5 (by simp)⟩
  snd := h.snd.congr rfl rfl
  claim := h.claim

/-- The candidate R_EXIT returns (R137, R185). -/
theorem Port.candidate_spec {c : Params} {p : Port} (h : p.Ok c) (hd : p.fsm = .done) :
    ∃ bs, p.rxBuf.readRun rxBufCap 0 p.total = .ok bs ∧ candidateOk bs p.total = true ∧
      ∀ j, j < p.total → bs[j]? = p.rxBuf.lookup j := by
  have hs := h.fsm.shape
  unfold Port.fsmShape at hs
  rw [hd] at hs
  simp only at hs
  obtain ⟨bs, e, hl, hj⟩ := Memory.readRun_ok rxBufCap p.rxBuf p.total 0 (by simp [rxBufCap]; omega)
    (fun j hj => by
      rw [Nat.zero_add]
      exact h.fsm.written j (by omega))
  simp only [Nat.zero_add] at hj
  refine ⟨bs, e, ?_, hj⟩
  obtain ⟨l, hl4, ht⟩ := h.fsm.lengthByte (by omega)
  have h4 : bs[4]? = some l := by rw [hj 4 (by omega), hl4]
  have hdrop : ∃ rest, bs.drop 4 = l :: rest := by
    obtain ⟨hlt, hget⟩ := List.getElem?_eq_some_iff.1 h4
    exact ⟨bs.drop 5, by rw [List.drop_eq_getElem_cons hlt, hget]⟩
  obtain ⟨rest, hrest⟩ := hdrop
  simp [candidateOk, hl, hrest, ← ht]

end Sys2Proof.Machine
end

