-- ==== Sys2Proof/Laws/Invariant.lean ====
section
/-!
SUPPORT. Sys2Proof/Laws/Invariant.lean: the step of each agent answers a next state that meets the invariant `State.Inv`, one
lemma per operation. The helpers say which fields a step has to account for.
-/

namespace Sys2Proof.Machine

/-- The program point is outside READ_LINE, or at its entry. -/
def Ctl.quiet (x : Ctl) : Prop := x.readMasked = false ∧ x.owed = 0 ∧ ∀ ph, x = .read ph → ph = .enter

/-- A task inside the bracket after X_DE_ON holds the lock of RS485. -/
theorem Ctl.driving_holds {x : Ctl} (h : x.driving = true) : x.holds .rs485 = true := by
  cases x with
  | act a =>
    cases a with
    | bus ph _ _ _ => cases ph <;> first | rfl | simp [Ctl.driving] at h
    | cmd _ => simp [Ctl.driving] at h
    | fNet _ _ => simp [Ctl.driving] at h
    | fwd _ _ _ => simp [Ctl.driving] at h
  | read _ => simp [Ctl.driving] at h
  | recv => simp [Ctl.driving] at h
  | candidate _ _ => simp [Ctl.driving] at h
  | idle => simp [Ctl.driving] at h

/-- A task at its send on t holds the lock of t. -/
theorem Ctl.sendsOn_holds {x : Ctl} {t : Transport} (h : x.sendsOn t = true) : x.holds t = true := by
  cases x with
  | act a =>
    cases a with
    | bus ph _ _ _ => cases ph <;> first | exact h | simp [Ctl.sendsOn] at h
    | cmd _ => simp [Ctl.sendsOn] at h
    | fNet _ _ => simp [Ctl.sendsOn] at h
    | fwd _ ph _ => cases ph <;> first | exact h | simp [Ctl.sendsOn] at h
  | read _ => simp [Ctl.sendsOn] at h
  | recv => simp [Ctl.sendsOn] at h
  | candidate _ _ => simp [Ctl.sendsOn] at h
  | idle => simp [Ctl.sendsOn] at h

/-- At most one task holds the lock of t. -/
theorem State.Inv.holder {s : State} (h : s.Inv) {a b : TaskId} {t : Transport} (ha : (s.ctl a).holds t = true)
    (hb : (s.ctl b).holds t = true) : a = b := by
  have h1 := (h.lock t a).2 ha
  have h2 := (h.lock t b).2 hb
  rw [h1] at h2
  simpa using h2

/-- A step that replaces the state of one transport keeps the invariant if these fields agree. -/
theorem State.Inv.of_port {s s' : State} (h : s.Inv) (t : Transport) (q : Port)
    (hp : s'.params = s.params) (hport : ∀ u, s'.port u = if u = t then q else s.port u)
    (hctl : ∀ b, s'.ctl b = s.ctl b) (hde : s'.de = s.de) (hboot : s'.boot = s.boot)
    (hok : q.Ok s.params) (hmr : q.maskRx = (s.port t).maskRx)
    (hrd : s.params.rxMode = .ring → q.ready + (s.port t).rxRing.count s.params.rxn = (s.port t).ready +
        q.rxRing.count s.params.rxn)
    (hf : q.fsm = (s.port t).fsm) (hl : q.txLock = (s.port t).txLock)
    (hs : q.send ≠ none → ∃ a, (s.ctl a).sendsOn t = true) : s'.Inv where
  params := hp ▸ h.params
  ports := by
    intro u
    rw [hport, hp]
    split
    · exact hok
    · exact h.ports u
  readMask := by
    intro u
    rw [hport, hctl]
    split
    · rename_i e
      subst e
      rw [hmr]
      exact h.readMask u
    · exact h.readMask u
  ready := by
    intro hm u
    rw [hp] at hm
    rw [hport, hctl, hp]
    split
    · rename_i e
      subst e
      have := h.ready hm u
      have := hrd hm
      omega
    · exact h.ready hm u
  reader := by
    intro u ph
    rw [hport, hctl]
    split
    · rename_i e
      subst e
      rw [hf]
      exact h.reader u ph
    · exact h.reader u ph
  lock := by
    intro u a
    rw [hport, hctl]
    split
    · rename_i e
      subst e
      rw [hl]
      exact h.lock u a
    · exact h.lock u a
  sender := by
    intro u
    rw [hport]
    simp only [hctl]
    split
    · rename_i e
      subst e
      exact hs
    · exact h.sender u
  tasks := by intro a; rw [hctl]; exact h.tasks a
  drive := by rw [hde]; simp only [hctl]; exact h.drive
  start := by rw [hboot]; simp only [hctl]; exact h.start

/-- A step of task `a` between program points outside READ_LINE, with the state of one transport replaced, keeps the
invariant. -/
theorem State.Inv.of_act {s s' : State} (h : s.Inv) (t : Transport) (q : Port) (a : TaskId) (x : Ctl)
    (hp : s'.params = s.params) (hport : ∀ u, s'.port u = if u = t then q else s.port u)
    (hctl : ∀ b, s'.ctl b = if b = a then x else s.ctl b) (hboot : s'.boot = s.boot) (hrun : s.boot = .running)
    (hy : (s.ctl a).quiet) (hx : x.quiet) (hxok : x.okFor a = true)
    (hok : q.Ok s.params) (hmr : q.maskRx = (s.port t).maskRx)
    (hrd : q.ready = (s.port t).ready) (hrx : q.rxRing = (s.port t).rxRing)
    (hf : q.fsm = (s.port t).fsm)
    (hl : ∀ b, q.txLock = .held b ↔ (if b = a then x else s.ctl b).holds t = true)
    (hl' : ∀ u, u ≠ t → x.holds u = (s.ctl a).holds u)
    (hs : q.send ≠ none → ∃ b, (if b = a then x else s.ctl b).sendsOn t = true)
    (hs' : ∀ u, u ≠ t → (s.ctl a).sendsOn u = true → x.sendsOn u = true)
    (hd : s'.de = .write ↔ ∃ b, (if b = a then x else s.ctl b).driving = true) : s'.Inv where
  params := hp ▸ h.params
  ports := by
    intro u
    rw [hport, hp]
    split
    · exact hok
    · exact h.ports u
  readMask := by
    intro u
    have h1 := h.readMask u
    have h2 : (s'.port u).maskRx = (s.port u).maskRx := by
      rw [hport]
      split
      · rename_i e
        subst e
        exact hmr
      · rfl
    rw [h2, hctl, h1]
    split
    · rename_i e
      subst e
      rw [hx.1, hy.1]
    · rfl
  ready := by
    intro hm u
    rw [hp] at hm
    have h1 := h.ready hm u
    have h2 : (s'.port u).ready = (s.port u).ready ∧ (s'.port u).rxRing = (s.port u).rxRing := by
      rw [hport]
      split
      · rename_i e
        subst e
        exact ⟨hrd, hrx⟩
      · exact ⟨rfl, rfl⟩
    rw [h2.1, h2.2, hp, hctl, ← h1]
    split
    · rename_i e
      subst e
      rw [hx.2.1, hy.2.1]
    · rfl
  reader := by
    intro u ph
    have h2 : (s'.port u).fsm = (s.port u).fsm := by
      rw [hport]
      split
      · rename_i e
        subst e
        exact hf
      · rfl
    rw [h2, hctl]
    split
    · intro e1 e2
      exact absurd (hx.2.2 ph e1) e2
    · exact h.reader u ph
  lock := by
    intro u b
    rw [hport, hctl]
    split
    · rename_i e
      subst e
      exact hl b
    · rename_i e
      rw [h.lock u b]
      split
      · rename_i e2
        subst e2
        rw [hl' u e]
      · rfl
  sender := by
    intro u
    rw [hport]
    simp only [hctl]
    split
    · rename_i e
      subst e
      exact hs
    · rename_i e
      intro hne
      obtain ⟨b, hb⟩ := h.sender u hne
      refine ⟨b, ?_⟩
      split
      · rename_i e2
        subst e2
        exact hs' u e hb
      · exact hb
  tasks := by
    intro b
    rw [hctl]
    split
    · rename_i e
      subst e
      exact hxok
    · exact h.tasks b
  drive := by simp only [hctl]; exact hd
  start := by rw [hboot]; intro e; exact absurd hrun e

/-- A step of the listener of t from a phase of READ_LINE keeps the invariant. -/
theorem State.Inv.of_read {s s' : State} (h : s.Inv) (t : Transport) (q : Port) (x : Ctl) (ph0 : ReadPhase)
    (hp : s'.params = s.params) (hport : ∀ u, s'.port u = if u = t then q else s.port u)
    (hctl : ∀ b, s'.ctl b = if b = .listener (.serial t) then x else s.ctl b) (hboot : s'.boot = s.boot) (hrun :
        s.boot = .running)
    (hde : s'.de = s.de)
    (hy : s.ctl (.listener (.serial t)) = .read ph0) (hx : (∃ ph, x = .read ph) ∨ ∃ c n, x = .candidate c n) (hxok :
        x.okFor (.listener (.serial t)) = true)
    (hok : q.Ok s.params) (hmr : q.maskRx = x.readMasked)
    (hrd : s.params.rxMode = .ring → q.ready + x.owed = q.rxRing.count s.params.rxn)
    (hrdr : ∀ ph, x = .read ph → ph ≠ .enter → (q.fsm = .done ↔ ph = .exit))
    (hl : q.txLock = (s.port t).txLock)
    (hs : q.send = (s.port t).send) : s'.Inv := by
  have hh : ∀ u, x.holds u = false ∧ x.sendsOn u = false := by
    intro u
    rcases hx with ⟨ph, rfl⟩ | ⟨c, n, rfl⟩ <;> exact ⟨rfl, rfl⟩
  have hdr : x.driving = false := by
    rcases hx with ⟨ph, rfl⟩ | ⟨c, n, rfl⟩ <;> rfl
  refine ⟨hp ▸ h.params, ?_, ?_, ?_, ?_, ?_, ?_, ?_, ?_, ?_⟩
  · intro u
    rw [hport, hp]
    split
    · exact hok
    · exact h.ports u
  · intro u
    rw [hport, hctl]
    by_cases e : u = t
    · subst e
      simp [hmr]
    · simp [e, h.readMask u]
  · intro hm u
    rw [hp] at hm
    rw [hport, hctl, hp]
    by_cases e : u = t
    · subst e
      simp [hrd hm]
    · simp [e, h.ready hm u]
  · intro u ph
    rw [hport, hctl]
    by_cases e : u = t
    · subst e
      simp
      exact hrdr ph
    · simp [e]
      exact h.reader u ph
  · intro u b
    rw [hport, hctl]
    have h1 := h.lock u b
    have h2 : (if u = t then q else s.port u).txLock = (s.port u).txLock := by
      split
      · rename_i e
        subst e
        exact hl
      · rfl
    rw [h2, h1]
    split
    · rename_i e
      subst e
      rw [hy, (hh u).1]
      simp [Ctl.holds]
    · rfl
  · intro u
    have h2 : (s'.port u).send = (s.port u).send := by
      rw [hport]
      split
      · rename_i e
        subst e
        exact hs
      · rfl
    rw [h2]
    intro hne
    obtain ⟨b, hb⟩ := h.sender u hne
    refine ⟨b, ?_⟩
    rw [hctl]
    split
    · rename_i e
      subst e
      rw [hy] at hb
      simp [Ctl.sendsOn] at hb
    · exact hb
  · intro b
    rw [hctl]
    split
    · rename_i e
      subst e
      exact hxok
    · exact h.tasks b
  · rw [hde, h.drive]
    constructor
    · rintro ⟨b, hb⟩
      refine ⟨b, ?_⟩
      rw [hctl]
      split
      · rename_i e
        subst e
        rw [hy] at hb
        simp [Ctl.driving] at hb
      · exact hb
    · rintro ⟨b, hb⟩
      refine ⟨b, ?_⟩
      rw [hctl] at hb
      split at hb
      · rw [hdr] at hb
        simp at hb
      · exact hb
  · rw [hboot]
    intro e
    exact absurd hrun e

/-- The outcome is a next state of the invariant. -/
abbrev Keeps (o : Out) : Prop := ∃ s', o = .next s' ∧ s'.Inv

/-- Fields the invariant does not read may change freely. -/
theorem State.Inv.of_aux {s s' : State} (h : s.Inv) (hp : s'.params = s.params) (hport : ∀ u, s'.port u = s.port u)
    (hctl : ∀ b, s'.ctl b = s.ctl b) (hde : s'.de = s.de) (hboot : s'.boot = s.boot) : s'.Inv := by
  refine State.Inv.of_port h .rs485 (s.port .rs485) hp ?_ hctl hde hboot (h.ports _) rfl (fun _ => rfl) rfl rfl
      (h.sender _)
  intro u
  rw [hport]
  split
  · rename_i e
    subst e
    rfl
  · rfl

/-- An agent without a step. -/
theorem keeps_noStep {s : State} (h : s.Inv) : Keeps (noStep s) := ⟨s, rfl, h⟩

/-- LINE_IN (R166). -/
theorem keeps_lineIn {s : State} (h : s.Inv) (t b) : Keeps (execLineIn t b s) := by
  unfold execLineIn
  dsimp only
  split
  · rename_i hlt
    refine ⟨_, rfl, State.Inv.of_port h t _ (by simp) (fun u => port_setPort ..) (by simp) (by simp) (by simp) ?_ rfl
        (fun _ => rfl) rfl rfl (h.sender t)⟩
    exact (h.ports t).congr rfl rfl rfl rfl (h.ports t).txHw (by simp; omega) rfl rfl rfl rfl rfl
  · refine ⟨_, rfl, State.Inv.of_port h t _ (by simp) (fun u => port_setPort ..) (by simp) (by simp) (by simp) ?_ rfl
        (fun _ => rfl) rfl rfl (h.sender t)⟩
    exact (h.ports t).congr rfl rfl rfl rfl (h.ports t).txHw (h.ports t).rxHw rfl rfl rfl rfl rfl

/-- UART_TX (R164). -/
theorem keeps_uartTx {s : State} (h : s.Inv) (t) : Keeps (execUartTx t s) := by
  unfold execUartTx
  dsimp only
  split
  · exact keeps_noStep h
  · rename_i b rest e
    refine ⟨_, rfl, State.Inv.of_port h t _ (by simp) (fun u => port_setPort ..) (by simp) (by simp) (by simp) ?_ rfl
        (fun _ => rfl) rfl rfl (h.sender t)⟩
    refine (h.ports t).congr rfl rfl rfl rfl ?_ (h.ports t).rxHw rfl rfl rfl rfl rfl
    have := (h.ports t).txHw
    rw [e] at this
    simp at this ⊢
    omega

/-- IRQ_TX (R128). -/
theorem keeps_irqTx {s : State} (h : s.Inv) (t) : Keeps (execIrqTx t s) := by
  unfold execIrqTx takeInterrupt
  split
  · obtain ⟨q, e, hok, hq, _⟩ := Port.irqTxBody_spec (h.ports t)
    dsimp only
    rw [e]
    refine ⟨_, rfl, State.Inv.of_port h t q (by simp) (fun u => port_setPort ..) (by simp) (by simp) (by simp) hok ?_
        ?_ ?_ ?_ ?_⟩
    · rw [hq]
    · intro _
      rw [hq]
    · rw [hq]
    · rw [hq]
    · have : q.send = (s.port t).send := by rw [hq]
      rw [this]
      exact h.sender t
  · exact keeps_noStep h

/-- IRQ_RX, MAILBOX mode (R134). -/
theorem keeps_irqRxMailbox {s : State} (h : s.Inv) (t) : Keeps (execIrqRxMailbox t s) := by
  unfold execIrqRxMailbox takeInterrupt
  split
  · rename_i hm
    dsimp only
    rw [Port.rxToMailbox_spec]
    refine ⟨_, rfl, State.Inv.of_port h t _ (by simp) (fun u => port_setPort ..) (by simp) (by simp) (by simp) ?_ rfl
        ?_ rfl rfl (h.sender t)⟩
    · exact (h.ports t).congr rfl rfl rfl rfl (h.ports t).txHw (by simp) rfl rfl rfl rfl rfl
    · intro hr
      simp [hr] at hm
  · exact keeps_noStep h

/-- IRQ_RX, RING mode (R135). -/
theorem keeps_irqRxRing {s : State} (h : s.Inv) (t) : Keeps (execIrqRxRing t s) := by
  unfold execIrqRxRing takeInterrupt
  split
  · obtain ⟨q, e, hok, hq, _, hr, _⟩ := Port.rxToRing_spec h.params (s.port t).rxHw (h.ports t)
    dsimp only
    rw [e]
    refine ⟨_, rfl, State.Inv.of_port h t q (by simp) (fun u => port_setPort ..) (by simp) (by simp) (by simp) hok ?_
        (fun _ => hr) ?_ ?_ ?_⟩
    · rw [hq]
    · rw [hq]
    · rw [hq]
    · have : q.send = (s.port t).send := by rw [hq]
      rw [this]
      exact h.sender t
  · exact keeps_noStep h

/-- A wait that succeeds. -/
theorem waitReady_some {p q : Port} (h : p.waitReady = some q) : q = {p with ready := p.ready - 1} ∧ 0 < p.ready := by
  unfold Port.waitReady at h
  split at h
  · simp at h
  · simp at h; exact ⟨h.symm, by omega⟩
/-- A wait that succeeds. -/
theorem waitRoom_some {p q : Port} (h : p.waitRoom = some q) : q = {p with room := p.room - 1} ∧ 0 < p.room := by
  unfold Port.waitRoom at h
  split at h
  · simp at h
  · simp at h; exact ⟨h.symm, by omega⟩

/-- READ_LINE, in every phase (R137, R138). -/
theorem keeps_readLine {s : State} (h : s.Inv) (hrun : s.boot = .running) (t) : Keeps (execReadLine t s) := by
  unfold execReadLine
  split
  case h_1 ph hy =>
    have hp := h.ports t
    have hm := h.readMask t
    have hrd : s.params.rxMode = .ring → _ := fun e => h.ready e t
    have hrr := h.reader t ph hy
    rw [hy] at hm hrd
    have hport : ∀ (q : Port) (x : Ctl) (u : Transport), ((s.setPort t q).setCtl (.listener (.serial t)) x).port u =
        if u = t then q else s.port u := by
      intro q x u
      simp [port_setPort]
    have hctl : ∀ (q : Port) (x : Ctl) (b), ((s.setPort t q).setCtl (.listener (.serial t)) x).ctl b = if b =
        .listener (.serial t) then x else s.ctl b := by
      intro q x u
      simp [ctl_setCtl]
    cases ph with
    | enter =>
      refine ⟨_, rfl, State.Inv.of_read h t _ (.read .unmask) _ (by simp) (hport _ _) (hctl _ _) (by simp) hrun
          (by simp) hy (.inl ⟨_, rfl⟩) rfl (Port.fsmReset_ok hp) rfl ?_ ?_ rfl rfl⟩
      · intro e
        simpa [Ctl.owed] using hrd e
      · intro ph e _
        cases e
        simp
    | unmask =>
      refine ⟨_, rfl, State.Inv.of_read h t _ (.read .wait) _ (by simp) (hport _ _) (hctl _ _) (by simp) hrun
          (by simp) hy (.inl ⟨_, rfl⟩) rfl (hp.congr rfl rfl rfl rfl hp.txHw hp.rxHw rfl rfl rfl rfl rfl) rfl ?_ ?_
          rfl rfl⟩
      · intro e
        simpa [Ctl.owed] using hrd e
      · intro ph e _
        cases e
        simpa using hrr
    | wait =>
      simp only [readStep]
      split
      · rename_i q e
        obtain ⟨rfl, hpos⟩ := waitReady_some e
        refine ⟨_, rfl, State.Inv.of_read h t _ (.read .remask) _ (by simp) (hport _ _) (hctl _ _) (by simp) hrun
            (by simp) hy (.inl ⟨_, rfl⟩) rfl (hp.congr rfl rfl rfl rfl hp.txHw hp.rxHw rfl rfl rfl rfl rfl) hm ?_ ?_
            rfl rfl⟩
        · intro e
          have := hrd e
          simp [Ctl.owed] at this ⊢
          omega
        · intro ph e _
          cases e
          simpa using hrr
      · exact keeps_noStep h
    | remask =>
      refine ⟨_, rfl, State.Inv.of_read h t _ (.read .take) _ (by simp) (hport _ _) (hctl _ _) (by simp) hrun
          (by simp) hy (.inl ⟨_, rfl⟩) rfl (hp.congr rfl rfl rfl rfl hp.txHw hp.rxHw rfl rfl rfl rfl rfl) rfl ?_ ?_
          rfl rfl⟩
      · intro e
        simpa [Ctl.owed] using hrd e
      · intro ph e _
        cases e
        simpa using hrr
    | take =>
      have htake : ∃ b q0, (s.port t).takeByte s.params = .ok (b, q0) ∧ q0.Ok s.params ∧ q0 = {s.port t with rxRing
          := q0.rxRing} ∧
          (s.params.rxMode = .ring → (s.port t).rxRing.count s.params.rxn = q0.rxRing.count s.params.rxn + 1) := by
        unfold Port.takeByte
        cases hmode : s.params.rxMode with
        | mailbox => exact ⟨_, _, rfl, hp, rfl, by simp⟩
        | ring =>
          have he : (s.port t).rxRing.isEmpty = false := by
            have := hrd hmode
            simp [Ctl.owed] at this
            by_contra hc
            simp at hc
            have := (Ring.isEmpty_iff hp.rx.inLt hp.rx.outLt).1 hc
            omega
          obtain ⟨b, r', e, hok, hb, hc, _, hr⟩ := Ring.deq_spec hp.rx he
          refine ⟨b, {s.port t with rxRing := r'}, by simp [e], ?_, rfl, fun _ => hc⟩
          exact { mem := by
                    have := Port.memWf_iff.1 hp.mem
                    exact Port.memWf_iff.2 ⟨this.1, by simpa [hr] using this.2.1, this.2.2⟩
                  tx := hp.tx, rx := hok, txHw := hp.txHw, rxHw := hp.rxHw, fsm := hp.fsm.congr rfl rfl rfl rfl,
                  snd := hp.snd.congr rfl rfl, claim := hp.claim }
      obtain ⟨b, q0, e0, hok0, hq0, hc0⟩ := htake
      obtain ⟨q, e1, hok1, hq1⟩ := Port.fsmStep_spec hok0 b
      have hmt : (s.port t).maskRx = true := hm
      have e2 : (s.port t).rTake s.params = .ok q := by simp [Port.rTake, hmt, e0, e1]
      simp only [readStep, e2]
      have x1 : q.rxRing = q0.rxRing := by rw [hq1]
      have x2 : q.ready = (s.port t).ready := by rw [hq1, hq0]
      refine ⟨_, rfl, State.Inv.of_read h t q _ _ (by simp) (hport _ _) (hctl _ _) (by simp) hrun (by simp) hy (.inl
          ⟨_, rfl⟩) rfl hok1 ?_ ?_ ?_ ?_ ?_⟩
      · rw [hq1, hq0]
        simp only
        rw [hmt]
        split <;> rfl
      · intro e
        have y := hrd e
        have z := hc0 e
        rw [x1, x2]
        have : (Ctl.read (if q.fsm = .done then .exit else .unmask)).owed = 0 := by split <;> rfl
        rw [this]
        simp [Ctl.owed] at y
        omega
      · intro ph e _
        cases e
        by_cases hdn : q.fsm = .done <;> simp [hdn]
      · rw [hq1, hq0]
      · rw [hq1, hq0]
    | exit =>
      have hd : (s.port t).fsm = .done := by simpa using hrr
      obtain ⟨bs, e, hc, _⟩ := Port.candidate_spec hp hd
      simp only [readStep, e]
      refine ⟨_, rfl, State.Inv.of_read h t _ _ _ (by simp) (hport _ _) (hctl _ _) (by simp) hrun (by simp) hy (.inr
          ⟨_, _, rfl⟩) hc (hp.congr rfl rfl rfl rfl hp.txHw hp.rxHw rfl rfl rfl rfl rfl) rfl ?_ ?_ rfl rfl⟩
      · intro e
        simpa [Ctl.owed] using hrd e
      · intro ph e
        cases e
  all_goals exact keeps_noStep h

/-- The label after a command is outside READ_LINE. -/
theorem doneLabel_quiet (a) : (doneLabel a).quiet := by cases a <;> exact ⟨rfl, rfl, by intro ph h; cases h⟩
/-- L_ACT is outside READ_LINE. -/
theorem act_quiet (x) : (Ctl.act x).quiet := ⟨rfl, rfl, by intro ph h; cases h⟩
/-- Every task may be at its done label. -/
theorem doneLabel_ok (a) : (doneLabel a).okFor a = true := by rcases a with ⟨_ | _⟩ | _ <;> rfl
/-- Every task may be in L_ACT with operands in their domain. -/
theorem act_okFor {a : TaskId} {x : Act} : Ctl.okFor a (.act x) = x.ok := by rcases a with ⟨_ | _⟩ | _ <;> rfl

/-- the ctl of task a moves between points that hold nothing and drive nothing and no port changes -/
theorem State.Inv.of_ctl {s s' : State} (h : s.Inv) (a : TaskId) (x : Ctl) (hrun : s.boot = .running)
    (hp : s'.params = s.params) (hport : ∀ u, s'.port u = s.port u)
    (hctl : ∀ b, s'.ctl b = if b = a then x else s.ctl b) (hboot : s'.boot = s.boot) (hde : s'.de = s.de)
    (hy : (s.ctl a).quiet) (hx : x.quiet) (hxok : x.okFor a = true)
    (hyh : ∀ u, x.holds u = (s.ctl a).holds u) (hys : ∀ u, x.sendsOn u = (s.ctl a).sendsOn u ∨ (s.port u).send =
        none) (hyd : x.driving = (s.ctl a).driving) : s'.Inv := by
  have key : ∀ u, (∀ b, (s.port u).txLock = .held b ↔ (if b = a then x else s.ctl b).holds u = true) := by
    intro u b
    rw [h.lock u b]
    split
    · rename_i e
      subst e
      rw [hyh]
    · rfl
  have snd : ∀ u, (s.port u).send ≠ none → ∃ b, (if b = a then x else s.ctl b).sendsOn u = true := by
    intro u hne
    obtain ⟨b, hb⟩ := h.sender u hne
    refine ⟨b, ?_⟩
    split
    · rename_i e
      subst e
      rcases hys u with e | e
      · rw [e]
        exact hb
      · exact absurd e hne
    · exact hb
  have hdr : s'.de = .write ↔ ∃ b, (if b = a then x else s.ctl b).driving = true := by
    rw [hde, h.drive]
    apply exists_congr
    intro b
    split
    · rename_i e
      subst e
      rw [hyd]
    · rfl
  constructor
  · exact hp ▸ h.params
  · intro u
    rw [hport, hp]
    exact h.ports u
  · intro u
    rw [hport, hctl, h.readMask]
    split
    · rename_i e
      subst e
      rw [hx.1, hy.1]
    · rfl
  · intro hm u
    rw [hp] at hm
    rw [hport, hctl, hp, ← h.ready hm u]
    split
    · rename_i e
      subst e
      rw [hx.2.1, hy.2.1]
    · rfl
  · intro u ph
    rw [hport, hctl]
    split
    · intro e1 e2
      exact absurd (hx.2.2 ph e1) e2
    · exact h.reader u ph
  · intro u b
    rw [hport, hctl]
    exact key u b
  · intro u
    rw [hport]
    simp only [hctl]
    exact snd u
  · intro b
    rw [hctl]
    split
    · rename_i e
      subst e
      exact hxok
    · exact h.tasks b
  · simp only [hctl]
    exact hdr
  · rw [hboot]
    intro e
    exact absurd hrun e

/-- A task that holds nothing moves to a program point that holds nothing, other fields outside the invariant changing. -/
theorem keeps_done {s s0 : State} (h : s.Inv) (hrun : s.boot = .running) (a : TaskId) (hp : s0.params = s.params)
    (hport : ∀ u, s0.port u = s.port u)
    (hctl : ∀ b, s0.ctl b = s.ctl b) (hboot : s0.boot = s.boot) (hde : s0.de = s.de)
    (hy : (s.ctl a).quiet) (hh : ∀ u, (s.ctl a).holds u = false) (hs : ∀ u, (s.ctl a).sendsOn u = false) (hd : (s.ctl
        a).driving = false)
    (x : Ctl) (hx : x.quiet) (hxok : x.okFor a = true) (hxh : ∀ u, x.holds u = false) (hxs : ∀ u, x.sendsOn u =
        false) (hxd : x.driving = false) :
    (s0.setCtl a x).Inv := by
  refine State.Inv.of_ctl h a x hrun (by simp [hp]) (fun u => by simp [hport]) (fun b => by rw [ctl_setCtl, hctl])
      (by simp [hboot]) (by simp [hde]) hy hx hxok ?_ ?_ ?_
  · intro u
    rw [hxh, hh]
  · intro u
    left
    rw [hxs, hs]
  · rw [hxd, hd]

/-- An acquire that succeeds found the lock free. -/
theorem acquire_some {p q : Port} {a} (h : p.acquire a = some q) : p.txLock = .free ∧ q = {p with txLock := .held a}
    := by
  unfold Port.acquire at h
  split at h
  · rename_i e
    simp at h
    exact ⟨e, h.symm⟩
  · simp at h

/-- Taking a lock (R75). -/
theorem keeps_acquire {s : State} (h : s.Inv) (hrun : s.boot = .running) (a : TaskId) (t : Transport) (q : Port) (x :
    Ctl)
    (hq : (s.port t).acquire a = some q) (hy : (s.ctl a).quiet) (hh : ∀ u, (s.ctl a).holds u = false) (hd : (s.ctl
        a).driving = false)
    (hx : x.quiet) (hxok : x.okFor a = true) (hxh : ∀ u, x.holds u = (t == u)) (hxd : x.driving = false) :
    ((s.setPort t q).setCtl a x).Inv := by
  obtain ⟨hf, rfl⟩ := acquire_some hq
  have hp := h.ports t
  have hs0 : ∀ u, (s.ctl a).sendsOn u = true → False := by
    intro u e
    have := Ctl.sendsOn_holds e
    simp [hh] at this
  have hnos : (s.port t).send = none := by
    by_contra hne
    obtain ⟨b, hb⟩ := h.sender t hne
    have := (h.lock t b).2 (Ctl.sendsOn_holds hb)
    simp [hf] at this
  refine State.Inv.of_act h t { s.port t with txLock := .held a } a x (by simp) (fun u => by simp [port_setPort])
      (fun b => by simp [ctl_setCtl]) (by simp) hrun hy hx hxok
    (hp.congr rfl rfl rfl rfl hp.txHw hp.rxHw rfl rfl rfl rfl rfl) rfl rfl rfl rfl ?_ ?_ ?_ ?_ ?_
  · intro b
    by_cases e : b = a
    · subst e
      simp [hxh]
    · rw [if_neg e]
      constructor
      · intro e2
        simp at e2
        exact absurd e2.symm e
      · intro hb
        have := (h.lock t b).2 hb
        simp [hf] at this
  · intro u e; rw [hxh, hh]; have : t ≠ u := fun h => e h.symm; simp [this]
  · intro hne
    exact absurd hnos hne
  · intro u _ e
    exact (hs0 u e).elim
  · simp only [setCtl_de, setPort_de]
    rw [h.drive]
    apply exists_congr
    intro b
    split
    · rename_i e
      subst e
      rw [hxd, hd]
    · rfl

/-- Freeing a lock (R75). -/
theorem keeps_free {s : State} (h : s.Inv) (hrun : s.boot = .running) (a : TaskId) (t : Transport) (x : Ctl)
    (hy : (s.ctl a).quiet) (hh : ∀ u, (s.ctl a).holds u = (t == u)) (hns : ∀ u, (s.ctl a).sendsOn u = false) (hd :
        (s.ctl a).driving = false)
    (hx : x.quiet) (hxok : x.okFor a = true) (hxh : ∀ u, x.holds u = false) (hxd : x.driving = false) :
    ((s.setPort t (s.port t).freeLock).setCtl a x).Inv := by
  have hp := h.ports t
  have hnos : (s.port t).send = none := by
    by_contra hne
    obtain ⟨b, hb⟩ := h.sender t hne
    have : b = a := h.holder (Ctl.sendsOn_holds hb) (by rw [hh]; simp)
    subst this
    simp [hns] at hb
  refine State.Inv.of_act h t (s.port t).freeLock a x (by simp) (fun u => by simp [port_setPort]) (fun b => by simp
      [ctl_setCtl]) (by simp) hrun hy hx hxok
    (hp.congr rfl rfl rfl rfl hp.txHw hp.rxHw rfl rfl rfl rfl rfl) rfl rfl rfl rfl ?_ ?_ ?_ ?_ ?_
  · intro b
    simp only [freeLock_txLock]
    constructor
    · intro e
      cases e
    · intro hb
      exfalso
      split at hb
      · simp [hxh] at hb
      · rename_i e
        exact e (h.holder hb (by rw [hh]; simp))
  · intro u e; rw [hxh, hh]; have : t ≠ u := fun h => e h.symm; simp [this]
  · intro hne
    exact absurd hnos hne
  · intro u _ e
    simp [hns] at e
  · simp only [setCtl_de, setPort_de]
    rw [h.drive]
    apply exists_congr
    intro b
    split
    · rename_i e
      subst e
      rw [hxd, hd]
    · rfl

/-- A step of a send changes only the state of its transport. -/
theorem State.Inv.of_sendPort {s : State} (h : s.Inv) (t : Transport) (q : Port) (a : TaskId) (ha : (s.ctl a).sendsOn
    t = true)
    (hok : q.Ok s.params) (hmr : q.maskRx = (s.port t).maskRx)
    (hrd : q.ready = (s.port t).ready) (hrx : q.rxRing = (s.port t).rxRing)
    (hf : q.fsm = (s.port t).fsm) (hl : q.txLock = (s.port t).txLock) : (s.setPort t q).Inv := by
  refine State.Inv.of_port h t q (by simp) (fun u => port_setPort ..) (by simp) (by simp) (by simp) hok hmr ?_ hf hl
      (fun _ => ⟨a, ha⟩)
  intro _
  rw [hrd, hrx]

/-- The operand check of SEND_LINE reads only the declared bytes. -/
theorem sendLineOk_take {f : List Byte} {n : Nat} (h : sendLineOk f n = true) : sendLineOk (f.take n) n = true := by
  unfold sendLineOk at h ⊢
  split at h
  · cases h
  · rename_i l hl
    simp at h
    rw [List.getElem?_take_of_lt (by omega), hl]
    simp [h]
    omega

/-- SEND_LINE by the holder of the lock (R122). -/
theorem keeps_sendLine {s : State} (h : s.Inv) (t) (f : List Byte) (n : Nat) (a : TaskId) (ha : (s.ctl a).sendsOn t =
    true)
    (hok : sendLineOk f n = true) : Keeps (execSendLine t f n s) := by
  have hp := h.ports t
  have hn : n ≤ f.length := by
    unfold sendLineOk at hok
    split at hok
    · cases hok
    · simp at hok; exact hok.2
  unfold execSendLine
  simp only [operandBytes_of_le hn, Nat.not_lt.2 hn, decide_false, draw_false, sendLineOk_take hok, if_true]
  split
  · unfold sendLineOk at hok
    split at hok
    · simp at hok
    · rename_i l hl
      simp at hok
      obtain ⟨⟨h1, h2⟩, h3⟩ := hok
      have hlen : (f.take n).length = n := by simp; omega
      obtain ⟨m, e, hw, hlk⟩ := Memory.writeRun_ok stageCap (f.take n) (s.port t).stage 0 (by simp [stageCap]; omega)
      rw [e]
      have h4 : m.lookup 4 = some l := by
        rw [hlk, if_pos ⟨by omega, by omega⟩, List.getElem?_take, if_pos (by omega)]; exact hl
      have hr : m.read stageCap 4 = .ok l := Memory.read_ok.2 ⟨by simp [stageCap], h4⟩
      simp only [hr]
      obtain ⟨m', e', hok', _⟩ := Port.stageBytes_spec hp (bytes := f.take n) (n := l.toNat + 6) (by omega) (by omega)
      rw [e']
      exact ⟨_, rfl, State.Inv.of_sendPort h t _ a ha hok' rfl rfl rfl rfl rfl⟩
  · exact keeps_noStep h

/-- SEND_RAW by the holder of the lock (R123). -/
theorem keeps_sendRaw {s : State} (h : s.Inv) (t) (f : List Byte) (n : Nat) (a : TaskId) (ha : (s.ctl a).sendsOn t =
    true)
    (hok : sendRawOk f n = true) : Keeps (execSendRaw t f n s) := by
  have hp := h.ports t
  simp [sendRawOk] at hok
  unfold execSendRaw
  simp only [maxPayload, hok.1, operandBytes_of_le hok.2, Nat.not_lt.2 hok.2, decide_false, draw_false, if_true]
  split
  · obtain ⟨m', e', hok', _⟩ := Port.stageBytes_spec hp (bytes := f.take n) (n := n) (by simp; omega) (by omega)
    rw [e']
    exact ⟨_, rfl, State.Inv.of_sendPort h t _ a ha hok' rfl rfl rfl rfl rfl⟩
  · exact keeps_noStep h

/-- Every later step of a send (R124 to R127). -/
theorem keeps_sendPhase {s : State} (h : s.Inv) (hrun : s.boot = .running) (t) (a : TaskId) (ha : (s.ctl a).sendsOn t
    = true) {r} (hr : (s.port t).send = some r) :
    Keeps (sendPhaseStep t r.phase s) := by
  have hp := h.ports t
  unfold sendPhaseStep
  cases hph : r.phase with
  | sLoop =>
    simp only [execSendSLoop, hr, hph, if_true]
    rcases Port.sLoop_spec h.params hp hr hph with ⟨_, e, hok⟩ | ⟨_, _, e, hok⟩ | ⟨_, _, b, ring, _, e, hok, _⟩ <;>
        rw [e] <;>
    exact ⟨_, rfl, State.Inv.of_sendPort h t _ a ha hok rfl rfl rfl rfl rfl⟩
  | sWait =>
    simp only [execSendSWait, hr, hph]
    split
    · rename_i q e
      obtain ⟨rfl, _⟩ := waitRoom_some e
      have hm : (s.port t).maskTx = false := by rw [hp.claim]; simp [Port.txClaim, hr, hph]
      exact ⟨_, rfl, State.Inv.of_sendPort h t _ a ha (Port.Ok.phase hp hr .sRemask (s.port t).maskTx _ hm) rfl rfl
          rfl rfl rfl⟩
    · exact keeps_noStep h
  | sRemask =>
    simp only [execSendSWait, hr, hph]
    exact ⟨_, rfl, State.Inv.of_sendPort h t _ a ha (Port.Ok.phase hp hr .sLoop true _ rfl) rfl rfl rfl rfl rfl⟩
  | sKick =>
    simp only [execSendSKick, hr, hph, if_true]
    obtain ⟨ring, hw, e, hok, _⟩ := Port.sKick_spec hp hr hph
    rw [e]
    exact ⟨_, rfl, State.Inv.of_sendPort h t _ a ha hok rfl rfl rfl rfl rfl⟩
  | sExit =>
    simp only [execSendSExit, hr, hph, if_true]
    have hl := (h.lock t a).2 (Ctl.sendsOn_holds ha)
    have hsend : ∀ (x : Ctl), x.quiet → x.okFor a = true → (s.ctl a).quiet → (∀ u, x.holds u = (s.ctl a).holds u) →
        (∀ u, u ≠ t → (s.ctl a).sendsOn u = true → x.sendsOn u = true) →
        x.driving = (s.ctl a).driving → ((s.setPort t { (s.port t).dropTx with send := none }).setCtl a x).Inv := by
      intro x hx hxok hy hxh hxs hxd
      refine State.Inv.of_act h t { (s.port t).dropTx with send := none } a x (by simp) (fun u => by simp
          [port_setPort]) (fun b => by simp [ctl_setCtl]) (by simp) hrun hy hx hxok
        (Port.exit_ok hp) rfl rfl rfl rfl ?_ ?_ ?_ hxs ?_
      · intro b
        have := h.lock t b
        simp only [dropTx_txLock]
        rw [this]
        split
        · rename_i e
          subst e
          rw [hxh]
        · rfl
      · intro u _
        exact hxh u
      · intro hne
        exact absurd rfl hne
      · simp only [setCtl_de, setPort_de]
        rw [h.drive]
        apply exists_congr
        intro b
        split
        · rename_i e
          subst e
          rw [hxd]
        · rfl
    refine ⟨_, rfl, ?_⟩
    have hql : ({ (s.port t).dropTx with send := none } : Port).txLock = .held a := hl
    generalize ({ (s.port t).dropTx with send := none } : Port) = q at hsend hql ⊢
    unfold State.returnFromSend
    simp only [port_setPort_self, hql, ctl_setPort]
    have hta := h.tasks a
    cases hc : s.ctl a with
    | act x =>
      rw [hc] at ha hta hsend
      rw [act_okFor] at hta
      cases x with
      | fwd u ph b =>
        cases ph with
        | send =>
          have hu : u = t := by simpa [Ctl.sendsOn] using ha
          subst hu
          simp only [if_true]
          refine hsend (.act (.fwd u .free b)) (act_quiet _) (by rw [act_okFor]; exact hta) (act_quiet _) (fun _ =>
              rfl) ?_ rfl
          intro v hv e
          simp [Ctl.sendsOn] at e
          exact absurd e.symm hv
        | free => simp [Ctl.sendsOn] at ha
      | bus ph k b m =>
        cases ph with
        | send =>
          have hu : t = .rs485 := by simpa [Ctl.sendsOn] using ha
          subst hu
          simp only [if_true]
          refine hsend (.act (.bus .post k b m)) (act_quiet _) (by rw [act_okFor]; cases k <;> exact hta) (act_quiet
              _) (fun _ => rfl) ?_ rfl
          intro v hv e
          simp [Ctl.sendsOn] at e
          exact absurd e hv
        | _ => simp [Ctl.sendsOn] at ha
      | _ => simp [Ctl.sendsOn] at ha
    | _ => rw [hc] at ha; simp [Ctl.sendsOn] at ha

/-- A holder of the lock that is not at its send has no send in progress. -/
theorem no_send {s : State} (h : s.Inv) {a t} (hh : (s.ctl a).holds t = true) (hs : (s.ctl a).sendsOn t = false) :
    (s.port t).send = none := by
  by_contra hne
  obtain ⟨b, hb⟩ := h.sender t hne
  have : b = a := h.holder (Ctl.sendsOn_holds hb) hh
  subst this
  simp [hs] at hb

/-- A write of `DE` inside the bracket (R213). -/
theorem State.Inv.of_de {s : State} (h : s.Inv) (hrun : s.boot = .running) (a : TaskId) (d : Dir) (x : Ctl)
  (hy : (s.ctl a).quiet) (hx : x.quiet) (hxok : x.okFor a = true) (hyh : ∀ u, x.holds u = (s.ctl a).holds u)
  (hsn : ∀ u, x.sendsOn u = (s.ctl a).sendsOn u) (ha : (s.ctl a).holds .rs485 = true) (hd : d = .write ↔ x.driving =
      true) :
   ((s.setDe d).setCtl a x).Inv := by
  refine State.Inv.of_act h .rs485 (s.port .rs485) a x (by simp) (fun u => ?_) (fun b => by simp [ctl_setCtl])
      (by simp) hrun hy hx hxok (h.ports _) rfl rfl rfl rfl ?_ ?_ ?_ ?_ ?_
  · simp only [port_setCtl, port_setDe]
    split
    · rename_i e
      subst e
      rfl
    · rfl
  · intro b
    rw [h.lock]
    split
    · rename_i e
      subst e
      rw [hyh]
    · rfl
  · intro u _
    exact hyh u
  · intro hne
    obtain ⟨b, hb⟩ := h.sender _ hne
    refine ⟨b, ?_⟩
    split
    · rename_i e
      subst e
      rw [hsn]
      exact hb
    · exact hb
  · intro u _ e
    rw [hsn]
    exact e
  · have : ((s.setDe d).setCtl a x).de = d := by simp
    rw [this, hd]
    constructor
    · intro e; exact ⟨a, by simp [e]⟩
    · rintro ⟨b, hb⟩
      split at hb
      · exact hb
      · rename_i e
        exact absurd (h.holder (Ctl.driving_holds hb) ha) e

/-- X_LOCK. -/
theorem keeps_busLock {s : State} (h : s.Inv) (hrun : s.boot = .running) (a k b m) (hok : (Act.bus .deOn k b m).ok =
    true)
   (hy : (s.ctl a).quiet) (hh : ∀ u, (s.ctl a).holds u = false) (hd : (s.ctl a).driving = false) : Keeps (busLock a k
       b m s) := by
  unfold busLock
  split
  · rename_i p e
    refine ⟨_, rfl, keeps_acquire h hrun a .rs485 p _ e hy hh hd (act_quiet _) (by rw [act_okFor]; exact hok) ?_ rfl⟩
    intro u
    cases u <;> rfl
  · exact keeps_noStep h

/-- Every step of the bracket (R213). -/
theorem keeps_bus {s : State} (h : s.Inv) (hrun : s.boot = .running) {a ph k b m} (hc : s.ctl a = .act (.bus ph k b
    m)) : Keeps (busStep a ph k b m s) := by
  have hta := h.tasks a
  rw [hc, act_okFor] at hta
  have hok : ∀ ph', (Act.bus ph' k b m).ok = true := by intro ph'; cases k <;> exact hta
  have hq : (s.ctl a).quiet := by rw [hc]; exact act_quiet _
  unfold busStep
  cases ph with
  | lock => exact keeps_busLock h hrun a k b m (hok _) hq (by intro u; rw [hc]; rfl) (by rw [hc]; rfl)
  | deOn => exact ⟨_, rfl, State.Inv.of_de h hrun a _ _ hq (act_quiet _) (by rw [act_okFor]; exact hok _)
      (by intro u; rw [hc]; rfl) (by intro u; rw [hc]; rfl) (by rw [hc]; rfl) (by simp [Ctl.driving])⟩
  | pre =>
    refine ⟨_, rfl, State.Inv.of_ctl h a _ hrun (by simp) (by simp) (fun b => by rw [ctl_setCtl]) (by simp) (by simp)
        hq (act_quiet _) (by rw [act_okFor]; exact hok _) (by intro u; rw [hc]; rfl) ?_ (by rw [hc]; rfl)⟩
    intro u
    by_cases e : u = .rs485
    · subst e; right; exact no_send h (a := a) (by rw [hc]; rfl) (by rw [hc]; rfl)
    · left
      rw [hc]
      cases u <;> first | rfl | exact absurd rfl e
  | send =>
    simp only [busSend]
    have hs : (s.ctl a).sendsOn .rs485 = true := by rw [hc]; rfl
    split
    · rename_i r hr
      exact keeps_sendPhase h hrun _ a hs hr
    · cases k with
      | frame => exact keeps_sendLine h _ _ _ a hs (hok .lock)
      | raw => exact keeps_sendRaw h _ _ _ a hs (hok .lock)
  | post =>
    exact ⟨_, rfl, State.Inv.of_ctl h a _ hrun (by simp) (by simp) (fun b => by rw [ctl_setCtl]) (by simp) (by simp)
        hq (act_quiet _) (by rw [act_okFor]; exact hok _) (by intro u; rw [hc]; rfl) (by intro u; left; rw [hc]; rfl)
        (by rw [hc]; rfl)⟩
  | deOff => exact ⟨_, rfl, State.Inv.of_de h hrun a _ _ hq (act_quiet _) (by rw [act_okFor]; exact hok _)
      (by intro u; rw [hc]; rfl) (by intro u; rw [hc]; rfl) (by rw [hc]; rfl) (by simp [Ctl.driving])⟩
  | unlock =>
    refine ⟨_, rfl, keeps_free h hrun a .rs485 _ hq ?_ (by intro u; rw [hc]; rfl) (by rw [hc]; rfl) (doneLabel_quiet
        a) (doneLabel_ok a) ?_ ?_⟩
    · intro u
      rw [hc]
      cases u <;> rfl
    · intro u
      cases a <;> rfl
    · cases a <;> rfl

/-- Every step of W.RS232 under its lock (R208). -/
theorem keeps_forward {s : State} (h : s.Inv) (hrun : s.boot = .running) {a u ph b} (hc : s.ctl a = .act (.fwd u ph
    b)) : Keeps (forwardStep a u ph b s) := by
  have hta := h.tasks a
  rw [hc, act_okFor] at hta
  have hq : (s.ctl a).quiet := by rw [hc]; exact act_quiet _
  unfold forwardStep
  cases ph with
  | send =>
    have hs : (s.ctl a).sendsOn u = true := by rw [hc]; simp [Ctl.sendsOn]
    simp only
    split
    · rename_i r hr
      exact keeps_sendPhase h hrun _ a hs hr
    · refine keeps_sendRaw h _ _ _ a hs ?_
      simp [Act.ok] at hta
      simp [sendRawOk, hta]
  | free =>
    refine ⟨_, rfl, keeps_free h hrun a u _ hq (by intro v; rw [hc]; rfl) (by intro v; rw [hc]; rfl)
        (by rw [hc]; rfl) (doneLabel_quiet a) (doneLabel_ok a) ?_ ?_⟩
    · intro u
      cases a <;> rfl
    · cases a <;> rfl

/-- A command that ends at once. -/
theorem keeps_commandDone {s s0 : State} (h : s.Inv) (hrun : s.boot = .running) {pf} (hc : s.ctl s.cur = .act (.cmd
    pf))
  (hp : s0.params = s.params) (hport : ∀ u, s0.port u = s.port u)
    (hctl : ∀ b, s0.ctl b = s.ctl b) (hboot : s0.boot = s.boot) (hde : s0.de = s.de) (hcur : s0.cur = s.cur) : Keeps
        (.next (commandDone s0)) := by
  refine ⟨_, rfl, ?_⟩
  unfold commandDone
  rw [hcur]
  refine keeps_done h hrun _ hp hport hctl hboot hde (by rw [hc]; exact act_quiet _) (by intro u; rw [hc]; rfl)
      (by intro u; rw [hc]; rfl) (by rw [hc]; rfl) _ (doneLabel_quiet _) (doneLabel_ok _) ?_ ?_ ?_
  all_goals cases s.cur
  all_goals first | rfl | (intro u; rfl)

/-- The first step of every command (R204 to R212). -/
theorem keeps_cmd {s : State} (h : s.Inv) (hrun : s.boot = .running) {pf} (hc : s.ctl s.cur = .act (.cmd pf)) (hpf :
    pf.ok = true) : Keeps (exec (instrOf pf) s) := by
  have hq : (s.ctl s.cur).quiet := by rw [hc]; exact act_quiet _
  have hdone : Keeps (.next (commandDone s)) := keeps_commandDone h hrun hc rfl (fun _ => rfl) (fun _ => rfl) rfl rfl
      rfl
  have hlen : pf.payload.length ≤ 249 := by simp [ParsedFrame.ok, payloadOk] at hpf; exact hpf.1
  unfold instrOf
  split
  · unfold route
    dsimp only
    split_ifs
    · exact hdone
    · exact hdone
    · show Keeps (execWRelay pf.deviceID pf.channel pf.payload s)
      unfold execWRelay
      split
      · exact hdone
      · dsimp only
        split
        · exact hdone
        · refine ⟨_, rfl, ?_⟩
          refine keeps_done h hrun s.cur (by simp) (by simp) (by simp) (by simp) (by simp) hq
              (by intro u; rw [hc]; rfl) (by intro u; rw [hc]; rfl) (by rw [hc]; rfl) _ (act_quiet _)
              (by rw [act_okFor]; rfl) (fun _ => rfl) (fun _ => rfl) rfl
    · show Keeps (execWRs232 pf.deviceID pf.channel pf.payload s)
      unfold execWRs232
      split
      · exact hdone
      · rename_i u hu
        have hu' : u ≠ .rs485 := by
          unfold rs232Port at hu
          split at hu
          · cases hu
            simp
          · split at hu <;> cases hu
            simp
        split
        · rename_i p e
          refine ⟨_, rfl, keeps_acquire h hrun _ u p _ e hq (by intro u; rw [hc]; rfl) (by rw [hc]; rfl) (act_quiet
              _) (by rw [act_okFor]; simp [Act.ok, hlen]; exact hu') (fun v => rfl) rfl⟩
        · exact keeps_noStep h
    · show Keeps (execWIr pf.deviceID pf.channel pf.payload s)
      unfold execWIr
      split
      · exact hdone
      · exact keeps_commandDone h hrun hc (by simp) (by simp) (by simp) (by simp) (by simp) (by simp)
    · exact keeps_busLock h hrun _ _ _ _ (by simp [Act.ok, sendRawOk, hlen]) hq (by intro u; rw [hc]; rfl)
          (by rw [hc]; rfl)
    · exact hdone
  · split <;> exact hdone

/-- F_NET (R215). -/
theorem keeps_fanout {s : State} (h : s.Inv) (hrun : s.boot = .running) (a ch v) (hq : (s.ctl a).quiet) (hh : ∀ u,
    (s.ctl a).holds u = false) (hs : ∀ u, (s.ctl a).sendsOn u = false) (hd : (s.ctl a).driving = false) :
   (fanoutNet a ch v s).Inv := by
  unfold fanoutNet
  refine keeps_done h hrun a (by simp) (by simp) (by simp) (by simp) (by simp) hq hh hs hd _ (act_quiet _)
      (by rw [act_okFor]; simp [Act.ok, statusFrame, frameBytes, sendLineOk]) (fun _ => rfl) (fun _ => rfl) rfl

/-- Every step in L_ACT. -/
theorem keeps_act {s : State} (h : s.Inv) (hrun : s.boot = .running) {x} (hc : s.ctl s.cur = .act x) : Keeps (actStep
    s.cur x s) := by
  have hta := h.tasks s.cur
  rw [hc, act_okFor] at hta
  cases x with
  | cmd pf => exact keeps_cmd h hrun hc hta
  | fNet ch v => exact ⟨_, rfl, keeps_fanout h hrun _ _ _ (by rw [hc]; exact act_quiet _) (by intro u; rw [hc]; rfl)
      (by intro u; rw [hc]; rfl) (by rw [hc]; rfl)⟩
  | fwd u ph b => exact keeps_forward h hrun hc
  | bus ph k b m =>
    show Keeps (execRs485Tx k b m s)
    unfold execRs485Tx
    rw [hc]
    simp only [and_self, if_true]
    exact keeps_bus h hrun hc

/-- The length byte of a candidate of READ_LINE, and its length. -/
theorem candidate_byte {x : List Byte} {n} (h : candidateOk x n = true) :
    ∃ l, x[4]? = some l ∧ x.length = min (l.toNat + 6) 255 := by
  simp [candidateOk] at h
  obtain ⟨h1, h2⟩ := h
  split at h2
  · rename_i l r e
    refine ⟨l, ?_, by simp at h2; omega⟩
    have := congrArg (·[0]?) e
    simpa using this
  · cases h2

/-- The bytes VALIDATE reads are there in every candidate of READ_LINE. -/
theorem candidate_reads {c : List Byte} {n} (h : candidateOk c n = true) (k : Nat) : validateReads k c ≤ c.length := by
  obtain ⟨l, h4, hc⟩ := candidate_byte h
  simp only [validateReads, byteAt_of_getElem? h4, maxPayload]
  split <;> omega

/-- PARSE answers a payload of as many bytes as its length byte says. -/
theorem parse_ok {k : Nat} {x : List Byte} {l : Byte} (h4 : x[4]? = some l) (hl : l.toNat ≤ 249) :
    (parseFrame k x).ok = true := by
  simp [parseFrame, ParsedFrame.ok, payloadOk, h4]
  omega

/-- An accepted candidate can be parsed. -/
theorem validate_ok {k c n} (h : candidateOk c n = true) (hv : validateCandidate k c = true) :
    (parseFrame k c).ok = true := by
  obtain ⟨l, h4, -⟩ := candidate_byte h
  simp [validateCandidate, byteAt_of_getElem? h4, maxPayload] at hv
  exact parse_ok h4 hv.1

/-- An accepted datagram can be parsed. -/
theorem net_ok {k : Nat} {c : List Byte} (hv : netValidate c = true) : (parseFrame k c).ok = true := by
  unfold netValidate at hv
  split at hv
  · simp [maxPayload] at hv
    exact parse_ok rfl (of_decide_eq_true hv.1.1.2)
  · cases hv

/-- L_DECIDE and N_DECIDE (R222, R223). -/
theorem keeps_decide {s : State} (h : s.Inv) (hrun : s.boot = .running) {p c n} (hc : s.ctl (.listener p) =
    .candidate c n) : Keeps (decideStep p c s) := by
  have hta := h.tasks (.listener p)
  rw [hc] at hta
  have hg : ∀ x : Ctl, x.quiet → x.okFor (.listener p) = true → (∀ u, x.holds u = false) → (∀ u, x.sendsOn u = false)
      → x.driving = false → (s.setCtl (.listener p) x).Inv := by
    intro x h1 h2 h3 h4 h5
    exact keeps_done h hrun _ rfl (fun _ => rfl) (fun _ => rfl) rfl rfl
        (by rw [hc]; exact ⟨rfl, rfl, by intro ph h; cases h⟩) (by intro u; rw [hc]; rfl) (by intro u; rw [hc]; rfl)
        (by rw [hc]; rfl) x h1 h2 h3 h4 h5
  have hidle : (s.setCtl (.listener p) .idle).Inv := hg _ ⟨rfl, rfl, by intro ph h; cases h⟩ (by cases p <;> rfl)
      (fun _ => rfl) (fun _ => rfl) rfl
  refine ⟨_, rfl, ?_⟩
  have hd : readsBeyond s.tick p c = false := by
    cases p with
    | net => rfl
    | serial t => simpa [readsBeyond] using candidate_reads hta s.tick
  rw [hd, draw_false]
  split
  · rename_i ha
    simp only [Bool.and_eq_true] at ha
    refine hg _ (act_quiet _) ?_ (fun _ => rfl) (fun _ => rfl) rfl
    rw [act_okFor]
    cases p with
    | net => exact net_ok ha.1
    | serial t => exact validate_ok hta ha.1
  · exact hidle

/-- Every step of a task. -/
theorem keeps_task {s : State} (h : s.Inv) (hrun : s.boot = .running) : Keeps (taskStep s.cur s) := by
  unfold taskStep
  have hta := h.tasks s.cur
  split
  · split
    · rename_i t e
      exact keeps_readLine h hrun t
    · exact keeps_noStep h
    · exact keeps_noStep h
  · exact keeps_noStep h
  · rename_i c n hc
    split
    · rename_i p e
      rw [e] at hc
      exact keeps_decide h hrun hc
    · exact keeps_noStep h
  · rename_i x hc
    exact keeps_act h hrun hc
  · rename_i hc
    refine ⟨_, rfl, keeps_done h hrun _ rfl (fun _ => rfl) (fun _ => rfl) rfl rfl
        (by rw [hc]; exact ⟨rfl, rfl, by intro ph h; cases h⟩) (by intro u; rw [hc]; rfl) (by intro u; rw [hc]; rfl)
        (by rw [hc]; rfl) (firstLabel s.cur) ?_ ?_ ?_ ?_ ?_⟩
    all_goals rcases s.cur with ⟨_ | t⟩ | _
    all_goals first | rfl | (intro u; rfl) | exact ⟨rfl, rfl, by intro ph h; cases h; try rfl⟩

/-- The step of every agent. -/
theorem keeps_choice {s : State} (h : s.Inv) (hrun : s.boot = .running) (c) : Keeps (choiceStep c s) := by
  unfold choiceStep
  split
  · exact keeps_lineIn h _ _
  · exact keeps_uartTx h _
  · exact keeps_irqTx h _
  · unfold irqRxInstr
    split
    · exact keeps_irqRxRing h _
    · exact keeps_irqRxMailbox h _
  · rename_i a
    split
    · exact keeps_noStep h
    · exact keeps_task (s := {s with cur := a}) (State.Inv.of_aux h rfl (fun u => by cases u <;> rfl) (fun b => by
          rcases b with ⟨_ | ⟨_ | _ | _⟩⟩ | _ <;> rfl) rfl rfl) hrun
  · rename_i d
    show Keeps (execNetRecv d d.length s)
    unfold execNetRecv
    simp only [Nat.lt_irrefl, decide_false, draw_false, operandBytes_of_le (Nat.le_refl _), List.take_length]
    split
    · rename_i hc
      refine ⟨_, rfl, keeps_done h hrun _ rfl (fun _ => rfl) (fun _ => rfl) rfl rfl
          (by rw [hc]; exact ⟨rfl, rfl, by intro ph h; cases h⟩) (by intro u; rw [hc]; rfl)
          (by intro u; rw [hc]; rfl) (by rw [hc]; rfl) _ ⟨rfl, rfl, by intro ph h; cases h⟩ (by simp [Ctl.okFor])
          (fun _ => rfl) (fun _ => rfl) rfl⟩
    · exact keeps_noStep h
  · rename_i g v
    show Keeps (execGpioEvt _ _ _)
    unfold execGpioEvt
    rw [if_pos ⟨by omega, by omega⟩]
    split
    · rename_i hc
      exact ⟨_, rfl, keeps_fanout h hrun _ _ _ (by rw [hc]; exact ⟨rfl, rfl, by intro ph h; cases h⟩)
          (by intro u; rw [hc]; rfl) (by intro u; rw [hc]; rfl) (by rw [hc]; rfl)⟩
    · exact keeps_noStep h

/-- A step of the start sequence. -/
theorem State.Inv.of_boot {s s' : State} (h : s.Inv) (hp : s'.params = s.params) (hport : ∀ u, ∃ d, s'.port u =
    {s.port u with baudDiv := d})
    (hctl : ∀ b, s'.ctl b = s.ctl b) (hde : s'.de = s.de) (hne : s.boot ≠ .running) : s'.Inv := by
  have hp' : ∀ u, (s'.port u).maskRx = (s.port u).maskRx ∧ (s'.port u).ready = (s.port u).ready ∧ (s'.port u).rxRing
      = (s.port u).rxRing ∧ (s'.port u).fsm = (s.port u).fsm ∧ (s'.port u).txLock = (s.port u).txLock ∧ (s'.port
      u).send = (s.port u).send := by
    intro u
    obtain ⟨d, hd⟩ := hport u
    rw [hd]
    exact ⟨rfl, rfl, rfl, rfl, rfl, rfl⟩
  constructor
  · rw [hp]
    exact h.params
  · intro u
    obtain ⟨d, hd⟩ := hport u
    rw [hd, hp]
    exact (h.ports u).congr rfl rfl rfl rfl (h.ports u).txHw (h.ports u).rxHw rfl rfl rfl rfl rfl
  · intro u
    rw [(hp' u).1, hctl]
    exact h.readMask u
  · intro hm u
    rw [hp] at hm
    rw [(hp' u).2.1, (hp' u).2.2.1, hctl, hp]
    exact h.ready hm u
  · intro u ph
    rw [(hp' u).2.2.2.1, hctl]
    exact h.reader u ph
  · intro u b
    rw [(hp' u).2.2.2.2.1, hctl]
    exact h.lock u b
  · intro u
    rw [(hp' u).2.2.2.2.2]
    simp only [hctl]
    exact h.sender u
  · intro b
    rw [hctl]
    exact h.tasks b
  · rw [hde]
    simp only [hctl]
    exact h.drive
  · intro _ b
    rw [hctl]
    exact h.start hne b

end Sys2Proof.Machine
end

