-- ==== Sys2Proof/Laws/Codec.lean ====
section
/-!
SUPPORT. Sys2Proof/Laws/Codec.lean: lemmas about the frame codec (checksum, validation, parsing, the decoder on encoded frames,
feeding the reassembler) and the index forms of the two handlers that move several bytes.
-/

namespace Sys2Proof.Machine

/-- The sum does not depend on the order of the bytes. -/
theorem checksum_perm {a b : List Byte} {m} (h : (a.take m).Perm (b.take m)) : checksum a m = checksum b m := by
  unfold checksum
  rw [(h.map _).sum_eq]

/-- Adding in 8 bits from `a` is adding the sum modulo 256. -/
theorem foldl_byte (l : List Byte) : ∀ a : Byte, l.foldl (fun acc x => acc + x) a = a + BitVec.ofNat 8 ((l.map (fun x
    => x.toNat)).sum) := by
  induction l with
  | nil => intro a; simp
  | cons x l ih =>
    intro a
    simp only [List.foldl_cons, ih, List.map_cons, List.sum_cons, BitVec.ofNat_add]
    simp [BitVec.add_assoc]

/-- The checksum as a fold in 8 bits (R180). -/
theorem checksum_foldl (b : List Byte) (m) : checksum b m = (b.take m).foldl (fun acc x => acc + x) 0#8 := by
  rw [foldl_byte]
  simp [checksum]

/-- A fold of additions from `a`. -/
theorem foldl_start (l : List Byte) (a : Byte) : l.foldl (fun acc x => acc + x) a = a + l.foldl (fun acc x => acc +
    x) 0#8 := by
  rw [foldl_byte, foldl_byte l 0#8]
  simp

/-- Flipping one bit adds a non-zero byte. -/
theorem flip_ne (x : Byte) (j : Nat) (h : j < 8) : ∃ d : Byte, d ≠ 0#8 ∧ x ^^^ (1#8 <<< j) = x + d := by
  refine ⟨(x ^^^ (1#8 <<< j)) - x, ?_, by simp⟩
  intro h0
  have : x ^^^ (1#8 <<< j) = x := by
    have := congrArg (· + x) h0
    simpa using this
  have h2 : (1#8 <<< j) = 0#8 := by
    have := congrArg (x ^^^ ·) this
    simpa [← BitVec.xor_assoc] using this
  interval_cases j <;> exact absurd h2 (by decide)

/-- Flipping one bit of one byte changes the sum. -/
theorem foldl_modify (l : List Byte) : ∀ (k : Nat) (j : Nat) , k < l.length → j < 8 → (l.modify k (fun x => x ^^^
    (1#8 <<< j))).foldl (fun acc x => acc + x) 0#8 ≠ l.foldl (fun acc x => acc + x) 0#8 := by
  induction l with
  | nil => intro k j h; simp at h
  | cons x l ih =>
    intro k j hk hj
    cases k with
    | zero =>
      simp only [List.modify_zero_cons, List.foldl_cons]
      obtain ⟨d, hd, e⟩ := flip_ne x j hj
      rw [e, foldl_start, foldl_start l (0#8 + x)]
      intro h
      apply hd
      have := congrArg (fun z => z - (x + l.foldl (fun acc x => acc + x) 0#8)) h
      simp at this
      have h2 : x + d + List.foldl (fun acc x => acc + x) 0#8 l - (x + List.foldl (fun acc x => acc + x) 0#8 l) = d
          := by
        generalize List.foldl (fun acc x => acc + x) 0#8 l = z
        bv_omega
      exact this
    | succ k =>
      simp only [List.modify_succ_cons, List.foldl_cons]
      rw [foldl_start, foldl_start l]
      intro h
      apply ih k j (by simpa using hk) hj
      generalize List.foldl (fun acc x => acc + x) 0#8 l = z at *
      generalize List.foldl (fun acc x => acc + x) 0#8 (l.modify k _) = y at *
      have := congrArg (fun z => z - (0#8+x)) h
      have e1 : 0#8 + x + y - (0#8 + x) = y := by bv_omega
      have e2 : 0#8 + x + z - (0#8 + x) = z := by bv_omega
      simp only [e1, e2] at this
      exact this

/-- A frame has six bytes beside its payload (R90). -/
theorem frameBytes_length (id ty ch p) : (frameBytes id ty ch p).length = p.length + 6 := by simp [frameBytes]

/-- The checksum reads only its first `m` bytes. -/
theorem checksum_append (a b : List Byte) (m) (h : m ≤ a.length) : checksum (a ++ b) m = checksum a m := by
  unfold checksum
  rw [List.take_append_of_le_length h]

/-- The last byte of a frame is its checksum (R181). -/
theorem frameBytes_last (id ty ch) (p : List Byte) : (frameBytes id ty ch p)[5 + p.length]? = some (checksum
    (frameBytes id ty ch p) (5 + p.length)) := by
  unfold frameBytes
  rw [checksum_append _ _ _ (by simp; omega)]
  rw [List.getElem?_append_right (by simp; omega)]
  simp [show 5 + p.length - (p.length + 1 + 1 + 1 + 1 + 1) = 0 by omega]

/-- What VALIDATE answers on a candidate whose bytes it reads are there (R186). -/
theorem validate_eq {k : Nat} {x : List Byte} {l : Byte} (h4 : x[4]? = some l) (hn : l.toNat ≤ 249 → l.toNat + 6 ≤ x.length) :
    validateCandidate k x =
      (decide (l.toNat ≤ 249) && x[5 + l.toNat]? == some (checksum x (5 + l.toNat))) := by
  simp only [validateCandidate, byteAt_of_getElem? h4, maxPayload]
  by_cases hl : l.toNat ≤ 249
  · have hc := hn hl
    have h5 : x[5 + l.toNat]? = some x[5 + l.toNat] := List.getElem?_eq_getElem (by omega)
    rw [operandBytes_of_le (by omega), byteAt_of_getElem? h5, h5]
    simp [checksum, List.take_take]
  · simp [hl]

/-- VALIDATE accepts an encoded frame. -/
theorem validate_frame (k : Nat) (id ty ch) (p : List Byte) (h : p.length ≤ 249) :
    validateCandidate k (frameBytes id ty ch p) = true := by
  have hm : p.length % 256 = p.length := by omega
  rw [validate_eq (l := BitVec.ofNat 8 p.length) rfl (by simp [frameBytes_length]; omega)]
  simp [hm, h, frameBytes_last]

/-- NET_VALIDATE by its conditions. -/
theorem net_eq {d : List Byte} (h4 : ∃ l, d[4]? = some l ∧ 6 ≤ d.length) :
    netValidate d = (d[0]? == some sof &&
      (match d[4]? with
      | some l => decide (l.toNat ≤ 249) && decide (l.toNat + 6 ≤ d.length) &&
          d[5 + l.toNat]? == some (checksum d (5 + l.toNat))
      | none => false)) := by
  obtain ⟨l, h4, h6⟩ := h4
  match d, h4, h6 with
  | a0 :: a1 :: a2 :: a3 :: a4 :: a5 :: rest, h4, h6 =>
    simp [netValidate, maxPayload, Bool.and_assoc]
    rfl

/-- What NET_VALIDATE accepts (R188). -/
theorem net_iff (d : List Byte) : netValidate d = true ↔ 6 ≤ d.length ∧ d[0]? = some 62#8 ∧ ∃ l, d[4]? = some l ∧
    l.toNat ≤ 249 ∧ l.toNat + 6 ≤ d.length ∧
        d[5 + l.toNat]? = some (checksum d (5 + l.toNat)) := by
  by_cases h : 6 ≤ d.length
  · have h4 : ∃ l, d[4]? = some l := ⟨d[4], by simp⟩
    obtain ⟨l, h4⟩ := h4
    rw [net_eq ⟨l, h4, h⟩]
    simp [h4, h, sof, and_assoc]
  · match d, h with
    | [], h => simp [netValidate]
    | [_], h => simp [netValidate]
    | [_, _], h => simp [netValidate]
    | [_, _, _], h => simp [netValidate]
    | [_, _, _, _], h => simp [netValidate]
    | [_, _, _, _, _], h => simp [netValidate]
    | _ :: _ :: _ :: _ :: _ :: _ :: _, h => simp at h

/-- NET_VALIDATE accepts an encoded frame. -/
theorem net_frame (id ty ch) (p : List Byte) (h : p.length ≤ 249) : netValidate (frameBytes id ty ch p) = true := by
  rw [net_iff]
  have hm : p.length % 256 = p.length := by omega
  refine ⟨by simp [frameBytes], rfl, BitVec.ofNat 8 p.length, rfl, by simp [hm, h], by simp [hm, frameBytes], ?_⟩
  simp [hm, frameBytes_last]

/-- What PARSE answers where the bytes it reads are there (R189). -/
theorem parse_eq {k : Nat} {a0 a1 a2 a3 l : Byte} {rest : List Byte} (h : l.toNat ≤ rest.length) :
    parseFrame k (a0 :: a1 :: a2 :: a3 :: l :: rest) =
      { deviceID := a1, dataType := a2, channel := a3, length := l, payload := rest.take l.toNat } := by
  have e : 5 + l.toNat = l.toNat + 1 + 1 + 1 + 1 + 1 := by omega
  unfold parseFrame
  rw [byteAt_of_getElem? (j := 4) (x := l) rfl, operandBytes_of_le (by simp; omega), e]
  rfl

/-- PARSE of an encoded frame. -/
theorem parse_frame (k : Nat) (id ty ch) (p : List Byte) (h : p.length ≤ 249) : parseFrame k (frameBytes id ty ch p) =
      { deviceID := id, dataType := ty, channel := ch, length := BitVec.ofNat 8 p.length, payload := p } := by
  have hm : p.length % 256 = p.length := by omega
  unfold frameBytes
  simp only [List.cons_append]
  rw [parse_eq (by simp [hm])]
  simp [hm]

/-- PARSE ignores the bytes after the frame. -/
theorem parse_take (k : Nat) (d : List Byte) (l) (h4 : d[4]? = some l) (h : l.toNat + 6 ≤ d.length) :
    parseFrame k d = parseFrame k (d.take (l.toNat + 6)) := by
  match d, h4, h with
  | a0 :: a1 :: a2 :: a3 :: a4 :: rest, h4, h =>
    simp at h4 h
    subst h4
    rw [show a4.toNat + 6 = a4.toNat + 1 + 1 + 1 + 1 + 1 + 1 by omega]
    simp only [List.take_succ_cons]
    rw [parse_eq (by omega), parse_eq (by simp; omega)]
    simp [List.take_take]
  | [], h4, h => simp at h4
  | [_], h4, h => simp at h4
  | [_,_], h4, h => simp at h4
  | [_,_,_], h4, h => simp at h4
  | [_,_,_,_], h4, h => simp at h4

/-- A channel in a list. -/
theorem channelIn_iff {a b c} : channelIn a b c = true ↔ a ≤ c.toNat ∧ c.toNat ≤ b := by simp [channelIn]

/-- The decoder on an encoded frame followed by other bytes. -/
theorem decode_frame (id ty ch) (p rest : List Byte) (h : p.length ≤ 249) : decode (frameBytes id ty ch p ++ rest) =
    .ok (instrOf { deviceID := id, dataType := ty, channel := ch, length := BitVec.ofNat 8 p.length, payload := p },
    rest) := by
  have hm : p.length % 256 = p.length := by omega
  have hcs : checksum (frameBytes id ty ch p ++ rest) (5 + p.length) = checksum (sof :: id :: ty :: ch ::
      BitVec.ofNat 8 p.length :: p) (5 + p.length) := by
    rw [checksum_append _ _ _ (by simp [frameBytes]; omega)]
    unfold frameBytes; rw [checksum_append _ _ _ (by simp; omega)]
  have e : frameBytes id ty ch p ++ rest = sof :: id :: ty :: ch :: BitVec.ofNat 8 p.length :: (p ++ checksum (sof ::
      id :: ty :: ch :: BitVec.ofNat 8 p.length :: p) (5 + p.length) :: rest) := by simp [frameBytes]
  rw [e] at hcs ⊢
  unfold decode
  simp [maxPayload, hm, show ¬ 249 < p.length by omega]
  simp [hcs]

/-- What a decoded candidate satisfies. -/
theorem decode_parse {x : List Byte} {i rest} (h : decode x = .ok (i, rest)) (k : Nat) : instrOf (parseFrame k x) = i ∧
    x[1]? = some (parseFrame k x).deviceID ∧ validateCandidate k x = true ∧ validateReads k x ≤ x.length ∧
    netValidate x = true := by
  unfold decode at h
  split at h
  · rename_i b0 id ty ch l r
    split at h
    · cases h
    · rename_i hs
      simp at hs
      split at h
      · cases h
      · rename_i hl
        split at h
        · cases h
        · rename_i k hk
          split at h
          · rename_i hkk
            cases h
            have hlen : l.toNat < r.length := (List.getElem?_eq_some_iff.1 hk).1
            have hk5 : (b0 :: id :: ty :: ch :: l :: r)[5 + l.toNat]? = some k := by
              rw [show 5 + l.toNat = l.toNat + 1 + 1 + 1 + 1 + 1 by omega]; simpa using hk
            simp [maxPayload] at hl
            refine ⟨by rw [parse_eq hlen.le], by rw [parse_eq hlen.le]; rfl, ?_, ?_, ?_⟩
            · rw [validate_eq (l := l) rfl (by simp; omega)]
              simp [hl, hk5, hkk]
            · simp [validateReads, byteAt, maxPayload, hl]
              omega
            · rw [net_iff]
              exact ⟨by simp; omega, by simpa [sof] using hs, l, rfl, hl, by simp; omega, by rw [hk5, hkk]⟩
          · cases h
  · cases h

/-- NET_VALIDATE rejects what the decoder rejects. -/
theorem decode_err_net {x : List Byte} {e} (h : decode x = .error e) : netValidate x = false := by
  by_contra hc
  simp at hc
  rw [net_iff] at hc
  obtain ⟨h6, h0, l, h4, hl, hn, hk⟩ := hc
  match x, h6, h0, h4, hn, hk with
  | b0 :: id :: ty :: ch :: l' :: r, h6, h0, h4, hn, hk =>
    simp at h0 h4
    subst h4
    subst h0
    rw [show 5 + l'.toNat = l'.toNat + 1 + 1 + 1 + 1 + 1 by omega] at hk
    have hk' : r[l'.toNat]? = some (checksum (62#8 :: id :: ty :: ch :: l' :: r) (5 + l'.toNat)) := by
      rw [show 5 + l'.toNat = l'.toNat + 1 + 1 + 1 + 1 + 1 by omega]; simpa using hk
    simp only [decode, sof, ne_eq, not_true, if_false, maxPayload, hk', if_true] at h
    rw [if_neg (by omega)] at h
    cases h
  | [], h6, _, _, _, _ => simp at h6
  | [_], h6, _, _, _, _ => simp at h6
  | [_,_], h6, _, _, _, _ => simp at h6
  | [_,_,_], h6, _, _, _, _ => simp at h6
  | [_,_,_,_], h6, _, _, _, _ => simp at h6

/-- VALIDATE rejects a candidate the decoder rejects. -/
theorem decode_err_serial {x : List Byte} {e n} (hc : candidateOk x n = true) (h0 : x[0]? = some 62#8) (h : decode x
    = .error e) (k : Nat) : validateCandidate k x = false := by
  obtain ⟨l, h4, hn⟩ := candidate_byte hc
  rw [validate_eq h4 (by omega), Bool.eq_false_iff]
  intro hv
  simp at hv
  have := (net_iff x).2 ⟨by omega, h0, l, h4, hv.1, by omega, hv.2⟩
  rw [decode_err_net h] at this
  cases this

/-- The frame a header word stands for. -/
theorem word_frame (id ty ch : Byte) : wordFrame (62 * 16777216 + id.toNat * 65536 + ty.toNat * 256 + ch.toNat) =
    frameBytes id ty ch [] := by
  have h0 : headerBytes (62 * 16777216 + id.toNat * 65536 + ty.toNat * 256 + ch.toNat) = [62#8, id, ty, ch] := by
    have := id.isLt
    have := ty.isLt
    have := ch.isLt
    unfold headerBytes
    simp only [List.cons.injEq, and_true]
    refine ⟨?_, ?_, ?_, ?_⟩ <;> apply BitVec.eq_of_toNat_eq <;> simp <;> omega
  simp [wordFrame, h0, frameBytes, sof]

/-- The checksum of a status frame. -/
theorem sum_status (i ch v : Byte) : checksum [62#8, i, 83#8, ch, 1#8, v] 6 = 62#8 + i + 83#8 + ch + 1#8 + v := by
  rw [checksum_foldl]
  simp

/-- A status frame byte by byte (R214). -/
theorem status_frame (i ch v : Byte) : statusFrame i ch v = [62#8, i, 83#8, ch, 1#8, v, 62#8 + i + 83#8 + ch + 1#8 +
    v] := by
  have := sum_status i ch v
  simp [statusFrame, frameBytes, sof, tyStatus, this]

/-- A relay after a write of a relay. -/
theorem relay_set (s : State) (j k : Nat) (v : Byte) (hj : 1 ≤ j) (hj9 : j ≤ 9) (hk : 1 ≤ k) (hk9 : k ≤ 9) :
    (s.setRelay j v).relay k = if k = j then v else s.relay k := by
  unfold State.setRelay State.relay Vector.getD
  have h1 : j - 1 < 9 := by omega
  have h2 : k - 1 < 9 := by omega
  simp only [Array.getD, Vector.toArray_setIfInBounds, Array.size_setIfInBounds, Vector.size_toArray, h2, dif_pos,
      Array.getElem_setIfInBounds, Array.getInternal_eq_getElem]
  by_cases h : k = j
  · subst h
    simp
  · rw [if_neg (by omega), if_neg h]

/-- FSM_STEP completes while `POS` is inside the buffer. -/
theorem fsm_total (p : Port) (b : Byte) (h : p.fsm = .accumulate → p.pos ≤ 254) : ∃ q, p.fsmStep b = .ok q := by
  unfold Port.fsmStep
  cases hf : p.fsm with
  | waitSync => simp [Port.fsmWaitSync, Memory.write, rxBufCap]; split <;> exact ⟨_, rfl⟩
  | accumulate => have := h hf; simp [Port.fsmAccumulate, Memory.write, rxBufCap, show p.pos < 255 by omega]
  | done => exact ⟨_, rfl⟩

/-- One byte outside DONE. -/
theorem feed_one (t : Transport) (b : Byte) (s : State) (q : Port) (h : (s.port t).fsmStep b = .ok q) (hd : (s.port
    t).fsm ≠ .done) : exec (fsmInstr s t b) s = .next (s.setPort t q) := by
  unfold fsmInstr
  unfold Port.fsmStep at h
  cases hf : (s.port t).fsm with
  | waitSync => rw [hf] at h; simp only [] at h; simp [exec, execFsmStepWaitSync, hf, h, State.onPort]
  | accumulate => rw [hf] at h; simp only [] at h; simp [exec, execFsmStepAccumulate, hf, h, State.onPort]
  | done => exact absurd hf hd

/-- Feeding one byte is one FSM_STEP. -/
theorem feed_single (t : Transport) (b : Byte) (s : State) (q : Port) (h : (s.port t).fsmStep b = .ok q) : feed t [b]
    s = .next (s.setPort t q) := by
  by_cases hd : (s.port t).fsm = .done
  · simp only [Port.fsmStep, hd] at h
    cases h
    simp [feed, fsmInstr, hd, exec, execFsmStepAccumulate, noStep]
  · rw [feed, feed_one t b s q h hd]
    rfl

/-- Feeding a byte and then the rest. -/
theorem feed_cons (t : Transport) (b : Byte) (bs) (s : State) (q : Port) (h : (s.port t).fsmStep b = .ok q) (hd :
    (s.port t).fsm ≠ .done) : feed t (b :: bs) s = feed t bs (s.setPort t q) := by
  rw [feed, feed_one t b s q h hd]

/-- A transport inside a frame: buffer, position, total and label replaced. -/
def midPort (p0 : Port) (m : Memory) (k : Nat) (total : Nat) (fsm : Fsm) : Port :=
  { p0 with rxBuf := m, fsm := fsm, pos := k, total := total }

/-- Feeding the first k bytes of a frame from WAIT_SYNC. -/
theorem feed_mid (t : Transport) (f : List Byte) (L : Nat) (hL : L ≤ 249) (hlen : f.length = L + 6) (h0 : f[0]? =
    some 62#8) (h4 : f[4]? = some (BitVec.ofNat 8 L)) (s : State) (hh : (s.port t).hunting) :
  ∀ k, k ≤ L + 6 → ∃ m, feed t (f.take k) s = .next (s.setPort t (midPort (s.port t) m k (if 5 ≤ k then L + 6 else
      255) (if k = 0 then .waitSync else if k = L + 6 then .done else .accumulate))) ∧
     ∀ a, m.lookup a = if a < k then f[a]? else (s.port t).rxBuf.lookup a := by
  have happ : ∀ (l1 l2 : List Byte) (s0 s1 : State), feed t l1 s0 = .next s1 → feed t (l1 ++ l2) s0 = feed t l2 s1 :=
      by
    intro l1 l2
    induction l1 with
    | nil => intro s0 s1 h; simp [feed] at h; simp [h]
    | cons b l ih =>
      intro s0 s1 h
      simp only [List.cons_append, feed] at h ⊢
      split at h
      · rename_i s' e
        exact ih _ _ h
      · simp at h
      · simp at h
  intro k
  induction k with
  | zero =>
    intro _
    refine ⟨(s.port t).rxBuf, ?_, fun a => by simp⟩
    simp [feed, midPort]
    obtain ⟨e1, e2, e3⟩ := hh
    have : s.port t = { s.port t with fsm := .waitSync, pos := 0, total := 255} := by
      cases hp : s.port t
      simp [hp] at e1 e2 e3
      simp [e1, e2, e3]
    rw [← this]
    simp
  | succ k ih =>
    intro hk
    obtain ⟨m, e, hm⟩ := ih (by omega)
    have hb : ∃ b, f[k]? = some b := ⟨f[k]'(by omega), by simp⟩
    obtain ⟨b, hb⟩ := hb
    have htake : f.take (k+1) = f.take k ++ [b] := by
      rw [List.take_add_one, hb]
      rfl
    rw [htake, happ _ _ _ _ e]
    refine ⟨m.insert k b, ?_, ?_⟩
    · have hne : k ≠ L + 6 := by omega
      rw [feed_cons (q := midPort (s.port t) (m.insert k b) (k+1) (if 5 ≤ k + 1 then L + 6 else 255) (if k + 1 = 0
          then .waitSync else if k + 1 = L + 6 then .done else .accumulate))]
      · simp [feed]
      · simp only [port_setPort_self]
        by_cases hz : k = 0
        · subst hz
          rw [h0] at hb
          simp at hb
          subst hb
          simp [Port.fsmStep, midPort, Port.fsmWaitSync, sof, Memory.write, rxBufCap]
        · simp only [Port.fsmStep, midPort, hz, hne, if_false, Port.fsmAccumulate, Memory.write, rxBufCap, show k <
              255 by omega, if_true, sentinel]
          by_cases h44 : k = 4
          · subst h44
            rw [h4] at hb
            simp at hb
            subst hb
            simp
            omega
          · simp [h44]
            have : (5 ≤ k) ↔ (5 ≤ k + 1) := by omega
            by_cases h5 : 5 ≤ k
            · simp [h5, show 4 ≤ k by omega]
            · simp [h5, show ¬ 4 ≤ k by omega]
              rw [if_neg (by omega), if_neg (by omega)]
      · simp [midPort, hne]
        by_cases hz : k = 0 <;> simp [hz]
    · intro a
      rw [Memory.lookup_insert]
      by_cases ha : a = k
      · subst ha
        simp [hb]
      · rw [if_neg ha, hm]
        have : (a < k) ↔ (a < k + 1) := by omega
        simp [this]

/-- The drain of the TX ring by its indices (R128). -/
theorem drain_idx {c : Params} : ∀ (f : Nat) {p : Port}, p.Ok c → c.txHwDepth ≤ p.txHw.length + f →
    p.drain c f = .ok { p with
      txHw := p.txHw ++ (p.txRing.bytes c.n).take (min (c.txHwDepth - p.txHw.length) (p.txRing.count c.n))
      txRing := { p.txRing with outIdx := (p.txRing.outIdx + min (c.txHwDepth - p.txHw.length) (p.txRing.count c.n))
          % c.n } } := by
  intro f
  induction f with
  | zero =>
    intro p h hf
    have : c.txHwDepth - p.txHw.length = 0 := by omega
    simp [Port.drain, this, Nat.mod_eq_of_lt h.tx.outLt]
  | succ f ih =>
    intro p h hf
    unfold Port.drain
    by_cases hc : (p.txCanAccept c && !p.txRing.isEmpty) = true
    · rw [if_pos hc]
      simp at hc
      obtain ⟨b, ring, e, hok, hb, hdq, hs, hcnt⟩ := Port.moveTx_spec h hc.1 hc.2
      obtain ⟨b', ring', hd', _, _, _, _, hr'⟩ := Ring.deq_spec h.tx hc.2
      rw [hdq] at hd'
      have hr : ring = { p.txRing with outIdx := (p.txRing.outIdx + 1) % c.n } := by
        cases hd'
        exact hr'
      rw [e]
      dsimp only
      have hlt : p.txHw.length < c.txHwDepth := by simpa [Port.txCanAccept] using hc.1
      rw [ih hok (by simp; omega)]
      simp only [List.length_append, List.length_singleton]
      have hring : ring.outIdx = (p.txRing.outIdx + 1) % c.n := by rw [hr]
      have hin : ring.inIdx = p.txRing.inIdx := by rw [hr]
      have hmin : min (c.txHwDepth - p.txHw.length) (p.txRing.count c.n) = min (c.txHwDepth - (p.txHw.length + 1))
          (ring.count c.n) + 1 := by omega
      rw [hmin, hb, List.take_succ_cons]
      simp [hs, hring, hin]
      congr 1
      omega
    · rw [if_neg hc]
      have h0 : min (c.txHwDepth - p.txHw.length) (p.txRing.count c.n) = 0 := by
        simp at hc
        by_cases ha : p.txCanAccept c = true
        · have := (Ring.isEmpty_iff h.tx.inLt h.tx.outLt).1 (hc ha)
          omega
        · simp [Port.txCanAccept] at ha
          omega
      rw [h0]
      simp [Nat.mod_eq_of_lt h.tx.outLt]

/-- The bytes left after `out` has advanced. -/
theorem count_out {m : Nat} {r : Sys2Proof.Machine.Ring} {k} (hi : r.inIdx < m) (ho : r.outIdx < m) (hk : k ≤ r.count
    m) : ({ r with outIdx := (r.outIdx + k) % m } : Sys2Proof.Machine.Ring).count m = r.count m - k := by
  have := Ring.count_lt hi ho
  have h0 := Ring.count_eq hi ho
  rw [Ring.count_eq (by exact hi) (by exact Nat.mod_lt _ (by omega))]
  simp only
  rw [mod_small (by omega)]
  rw [h0] at hk this ⊢
  split_ifs at hk this ⊢ <;> omega

/-- The RX handler in RING mode by its indices (R135). -/
theorem rxToRing_idx {c : Params} (hc : c.wf) (bs : List Byte) : ∀ {p : Port}, p.Ok c →
   ∃ m, p.rxToRing c bs = .ok { p with
        rxHw := []
        rxRing :=
          { slots := m
            inIdx := (p.rxRing.inIdx + min bs.length (c.rxn - 1 - p.rxRing.count c.rxn)) % c.rxn
            outIdx := p.rxRing.outIdx }
        ready := p.ready + min bs.length (c.rxn - 1 - p.rxRing.count c.rxn)
        rxOverrun := p.rxOverrun || decide (min bs.length (c.rxn - 1 - p.rxRing.count c.rxn) < bs.length) } ∧
      (∀ j, j < min bs.length (c.rxn - 1 - p.rxRing.count c.rxn) → m.lookup ((p.rxRing.inIdx + j) % c.rxn) = bs[j]?) ∧
      ∀ a, (∀ j, j < min bs.length (c.rxn - 1 - p.rxRing.count c.rxn) → a ≠ (p.rxRing.inIdx + j) % c.rxn) → m.lookup
          a = p.rxRing.slots.lookup a := by
  induction bs with
  | nil =>
    intro p h
    refine ⟨p.rxRing.slots, by simp [Port.rxToRing, Nat.mod_eq_of_lt h.rx.inLt], by simp, fun _ _ => rfl⟩
  | cons b bs ih =>
    intro p h
    have hcl := Ring.count_lt h.rx.inLt h.rx.outLt
    have hfi := Ring.isFull_iff hc.2.1 h.rx.inLt h.rx.outLt
    by_cases hf : p.rxRing.isFull c.rxn = true
    · have h1 : Port.Ok c { p with rxOverrun := true } := h.congr rfl rfl rfl rfl h.txHw h.rxHw rfl rfl rfl rfl rfl
      obtain ⟨m, e, hj, ha⟩ := ih h1
      have hz : c.rxn - 1 - p.rxRing.count c.rxn = 0 := by have := hfi.1 hf; omega
      simp only [hz, Nat.min_zero] at e hj ha ⊢
      exact ⟨m, by simp [Port.rxToRing, hf, e], fun j hj => absurd hj (by omega), ha⟩
    · have hf' : p.rxRing.isFull c.rxn = false := by simpa using hf
      obtain ⟨ring, e, hrok, hby, hcnt, hring⟩ := Ring.enq_spec hc.2.1 h.rx hf' b
      have h1 : Port.Ok c { p with rxRing := ring, ready := p.ready + 1 } :=
        { mem := by
            have := Port.memWf_iff.1 h.mem
            refine Port.memWf_iff.2 ⟨this.1, ?_, this.2.2⟩
            simp only [hring]
            exact Memory.wf_insert _ _ _ this.2.1
          tx := h.tx, rx := hrok, txHw := h.txHw, rxHw := h.rxHw, fsm := h.fsm.congr rfl rfl rfl rfl
          snd := h.snd.congr rfl rfl, claim := h.claim }
      obtain ⟨m, e', hj, ha⟩ := ih h1
      simp only at e' hj ha
      have hne : p.rxRing.count c.rxn ≠ c.rxn - 1 := fun e => by simp [hfi.2 e] at hf'
      have hstep : min (b :: bs).length (c.rxn - 1 - p.rxRing.count c.rxn) = min bs.length (c.rxn - 1 - ring.count
          c.rxn) + 1 := by
        simp only [List.length_cons]
        omega
      have hin : ring.inIdx = (p.rxRing.inIdx + 1) % c.rxn := by rw [hring]
      have hsl : ring.slots = p.rxRing.slots.insert p.rxRing.inIdx b := by rw [hring]
      have hout : ring.outIdx = p.rxRing.outIdx := by rw [hring]
      have hadd : ∀ j, (ring.inIdx + j) % c.rxn = (p.rxRing.inIdx + (j+1)) % c.rxn := by
        intro j
        rw [hin, Nat.mod_add_mod]
        congr 1
        omega
      rw [hstep]
      refine ⟨m, ?_, ?_, ?_⟩
      · simp only [Port.rxToRing, hf', e, e']
        simp [hadd, hout, Nat.add_assoc, Nat.add_comm 1]
      · intro j hjl
        cases j with
        | zero =>
          rw [Nat.add_zero, Nat.mod_eq_of_lt h.rx.inLt, ha]
          · rw [hsl]
            simp
          · intro i hi heq
            rw [Nat.lt_min] at hi
            rw [hadd, mod_small (by have := h.rx.inLt; omega)] at heq
            have := h.rx.inLt
            split at heq <;> omega
        | succ j =>
          rw [← hadd, hj j (by omega)]; simp
      · intro a hna
        rw [ha a (fun j hj => by rw [hadd]; exact hna _ (by omega)), hsl, Memory.lookup_insert, if_neg]
        have := hna 0 (by omega)
        rwa [Nat.add_zero, Nat.mod_eq_of_lt h.rx.inLt] at this

end Sys2Proof.Machine
end

