-- ==== Sys2Proof/Laws/Inversion.lean ====
section
/-!
SUPPORT. Sys2Proof/Laws/Inversion.lean: everything one step can do, said once (`PortStep`, `GlobalStep`, `Effect`), one lemma per
operation up to `step`, the fields each operation writes (`*_form`), and the canonical form of the arrays under each (`*_wf`).
-/

namespace Sys2Proof.Machine

/-- What one step can do to the state of a transport `t`. `x` is the program point of its listener, `d` the bus direction,
`started` whether the block runs, `o` the operation the step executes (none for a step outside `exec`). -/
inductive PortStep (c : Params) (d : Dir) (x : Ctl) (started : Bool) (t : Transport) (o : Option Instr) (p : Port) :
    Port → Prop where
  | same : PortStep c d x started t o p p
  | acquire (a : TaskId) (h : p.txLock = .free) : PortStep c d x started t o p { p with txLock := .held a }
  | free : PortStep c d x started t o p { p with txLock := .free }
  | baud (n : Nat) (h : started = false) : PortStep c d x started t o p { p with baudDiv := n }
  | lineIn (b : Byte) (ho : o = some (.lineIn t b)) (h : p.rxHw.length < c.rxHwDepth) :
    PortStep c d x started t o p { p with rxHw := p.rxHw ++ [b] }
  | overrun (b : Byte) (ho : o = some (.lineIn t b)) : PortStep c d x started t o p { p with hwOverrun := true }
  | uartTx (b : Byte) (rest : List Byte) (ho : o = some (.uartTx t)) (h : p.txHw = b :: rest) :
    PortStep c d x started t o p
      { p with
        txHw := rest
        txLine := p.txLine ++ [(b, d)]
        threPend := if rest = [] then true else p.threPend }
  | irqTx (q : Port) (ho : o = some (.irqTx t)) (h : p.irqTxEnabled = true) (e : p.irqTxBody c = .ok q) :
    PortStep c d x started t o p q
  | mailbox (ho : o = some (.irqRxMailbox t)) (h : p.irqRxEnabled = true) (m : c.rxMode = .mailbox) :
    PortStep c d x started t o p (p.rxToMailbox p.rxHw)
  | ring (q : Port) (ho : o = some (.irqRxRing t)) (h : p.irqRxEnabled = true) (m : c.rxMode = .ring)
    (e : p.rxToRing c p.rxHw = .ok q) :
    PortStep c d x started t o p q
  | stage (q : Port) (bs : List Byte) (n : Nat) (h : p.canStage = true) (e : p.stageBytes bs n = .ok q) :
    PortStep c d x started t o p q
  | sLoop (q : Port) (r : SendRec) (h : p.send = some r) (ph : r.phase = .sLoop) (e : p.sLoop c r = .ok q) :
    PortStep c d x started t o p q
  | sWait (r : SendRec) (h : p.send = some r) (ph : r.phase = .sWait) :
    PortStep c d x started t o p { p with room := p.room - 1, send := some { r with phase := .sRemask } }
  | sRemask (r : SendRec) (h : p.send = some r) (ph : r.phase = .sRemask) :
    PortStep c d x started t o p { p with maskTx := true, send := some { r with phase := .sLoop } }
  | sKick (q : Port) (r : SendRec) (h : p.send = some r) (ph : r.phase = .sKick) (e : p.sKick c r = .ok q) :
    PortStep c d x started t o p q
  | sExit (r : SendRec) (h : p.send = some r) (ph : r.phase = .sExit) :
    PortStep c d x started t o p { p with maskTx := false, send := none }
  | fsm (q : Port) (b : Byte) (e : p.fsmStep b = .ok q) : PortStep c d x started t o p q
  | rEnter : PortStep c d x started t o p { p with maskRx := true, fsm := .waitSync, pos := 0, total := 255 }
  | rMask (m : Bool) : PortStep c d x started t o p { p with maskRx := m }
  | rWait : PortStep c d x started t o p { p with ready := p.ready - 1 }
  | rTake (q : Port) (ho : o = some (.readLine t)) (h : x = .read .take) (e : p.rTake c = .ok q) :
    PortStep c d x started t o p q

/-- What one step can do to the state outside the transports and the program points. -/
inductive GlobalStep (o : Option Instr) (s : State) : State → Prop where
  | same : GlobalStep o s s
  | draw (u : Bool) : GlobalStep o s (s.draw u)
  | ret (u : Bool) (r : Ret) : GlobalStep o s ((s.draw u).setRet r)
  | relay (id ch : Byte) (p : List Byte) (v : Byte) (ho : o = some (.wRelay id ch p))
    (hk : channelIndex relayOffset ch ≤ s.params.numRelays) :
    GlobalStep o s (s.setRelay (channelIndex relayOffset ch) v)
  | ir (k : Nat) (v : Byte) : GlobalStep o s (s.irTrigger k v)
  | net (f : List Byte) : GlobalStep o s (s.netSend f)
  | deOn (k : TxKind) (b : List Byte) (m : Nat) (h : s.ctl s.cur = .act (.bus .deOn k b m)) :
    GlobalStep o s (s.setDe .write)
  | deOff (k : TxKind) (b : List Byte) (m : Nat) (h : s.ctl s.cur = .act (.bus .deOff k b m)) :
    GlobalStep o s (s.setDe .read)

/-- One step: a part outside the transports, one transport, and at most one program point. -/
def Effect (o : Option Instr) (s s' : State) : Prop :=
  ∃ s0 t q, GlobalStep o s s0 ∧ PortStep s.params s.de (s.ctl (.listener (.serial t))) (s.boot == .running) t o (s.port t)
      q ∧
    (s' = s0.setPort t q ∨ ∃ a x, s' = (s0.setPort t q).setCtl a x)

/-- A step of one transport: its state, at most one program point, and the counter of free values if it used one. -/
def PortEffect (t : Transport) (o : Option Instr) (s s' : State) : Prop :=
  ∃ u q, PortStep s.params s.de (s.ctl (.listener (.serial t))) (s.boot == .running) t o (s.port t) q ∧
    (s' = (s.draw u).setPort t q ∨ ∃ a x, s' = ((s.draw u).setPort t q).setCtl a x)

/-- A step of one transport is a step. -/
theorem PortEffect.eff {t o s s'} (h : PortEffect t o s s') : Effect o s s' := by
  obtain ⟨u, q, h1, h2⟩ := h
  exact ⟨_, t, q, .draw u, h1, h2⟩

/-- A step of one transport that uses no free value. -/
theorem PortEffect.of {t o} {s s' : State} {q}
    (h : PortStep s.params s.de (s.ctl (.listener (.serial t))) (s.boot == .running) t o (s.port t) q)
    (hs : s' = s.setPort t q ∨ ∃ a x, s' = (s.setPort t q).setCtl a x) : PortEffect t o s s' :=
  ⟨false, q, h, hs⟩

/-- An agent that does not step. -/
theorem PortEffect.refl (t) {o} (s : State) : PortEffect t o s s := .of .same (.inl (by simp))

/-- A step outside the transports. -/
theorem Effect.ofGlobal {o} {s s0 : State} (h : GlobalStep o s s0) : Effect o s s0 := by
  refine ⟨s0, .rs485, s.port .rs485, h, .same, .inl ?_⟩
  cases h <;> first | simp | rfl

/-- A step outside the transports that moves one task. -/
theorem Effect.ofGlobalCtl {o} {s s0 : State} (h : GlobalStep o s s0) (a x) : Effect o s (s0.setCtl a x) := by
  refine ⟨s0, .rs485, s.port .rs485, h, .same, .inr ⟨a, x, ?_⟩⟩
  cases h <;> first | simp | rfl

/-- An operation lifted from the state of a transport, after a free value that was used or not. -/
theorem onPort_draw {u : Bool} {s s' : State} {t o} {r : Except Fault Port} (h : (s.draw u).onPort t r = .next s')
    (hp : ∀ q, r = .ok q →
      PortStep s.params s.de (s.ctl (.listener (.serial t))) (s.boot == .running) t o (s.port t) q) :
    PortEffect t o s s' := by
  unfold State.onPort at h
  cases r with
  | error f => cases h
  | ok q => cases h; exact ⟨u, q, hp q rfl, .inl rfl⟩

/-- An operation lifted from the state of a transport. -/
theorem onPort_eff {s s' : State} {t o} {r : Except Fault Port} (h : s.onPort t r = .next s')
    (hp : ∀ q, r = .ok q →
      PortStep s.params s.de (s.ctl (.listener (.serial t))) (s.boot == .running) t o (s.port t) q) :
    PortEffect t o s s' := onPort_draw (u := false) h hp

/-- An agent that is not enabled. -/
theorem noStep_eff {s s' : State} (t) {o} (h : noStep s = .next s') : PortEffect t o s s' := by
  cases h
  exact .refl t s

/-- SEND_LINE (R122). -/
theorem eff_sendLine {t o f n s s'} (h : execSendLine t f n s = .next s') : PortEffect t o s s' := by
  unfold execSendLine at h
  dsimp only at h
  split at h
  · split at h
    · rename_i hc
      split at h
      · cases h
      · split at h
        · cases h
        · exact onPort_draw h (fun q hq => .stage q _ _ hc hq)
    · exact noStep_eff t h
  · cases h

/-- SEND_RAW (R123). -/
theorem eff_sendRaw {t o f n s s'} (h : execSendRaw t f n s = .next s') : PortEffect t o s s' := by
  unfold execSendRaw at h
  dsimp only at h
  split at h
  · split at h
    · rename_i hc
      exact onPort_draw h (fun q hq => .stage q _ _ hc hq)
    · exact noStep_eff t h
  · cases h

/-- S_LOOP (R124). -/
theorem eff_sLoop {t o s s'} (h : execSendSLoop t s = .next s') : PortEffect t o s s' := by
  unfold execSendSLoop at h
  split at h
  · rename_i r hr
    split at h
    · rename_i hph
      exact onPort_eff h (fun q hq => .sLoop q r hr hph hq)
    · exact noStep_eff t h
  · exact noStep_eff t h

/-- S_WAIT and S_REMASK (R125). -/
theorem eff_sWait {t o s s'} (h : execSendSWait t s = .next s') : PortEffect t o s s' := by
  unfold execSendSWait at h
  split at h
  · rename_i r hr
    split at h
    · rename_i hph
      split at h
      · rename_i p hp
        obtain ⟨rfl, _⟩ := waitRoom_some hp
        cases h
        exact .of (.sWait r hr hph) (.inl rfl)
      · exact noStep_eff t h
    · rename_i hph
      cases h
      exact .of (.sRemask r hr hph) (.inl rfl)
    all_goals exact noStep_eff t h
  · exact noStep_eff t h

/-- S_KICK (R126). -/
theorem eff_sKick {t o s s'} (h : execSendSKick t s = .next s') : PortEffect t o s s' := by
  unfold execSendSKick at h
  split at h
  · rename_i r hr
    split at h
    · rename_i hph
      exact onPort_eff h (fun q hq => .sKick q r hr hph hq)
    · exact noStep_eff t h
  · exact noStep_eff t h

/-- The return of a send moves at most one task. -/
theorem returnFromSend_eff (s : State) (t) : s.returnFromSend t = s ∨ ∃ a x, s.returnFromSend t = s.setCtl a x := by
  unfold State.returnFromSend
  split
  · exact .inl rfl
  · split
    · split
      · exact .inr ⟨_, _, rfl⟩
      · exact .inl rfl
    · split
      · exact .inr ⟨_, _, rfl⟩
      · exact .inl rfl
    · exact .inl rfl

/-- S_EXIT (R127). -/
theorem eff_sExit {t o s s'} (h : execSendSExit t s = .next s') : PortEffect t o s s' := by
  unfold execSendSExit at h
  split at h
  · rename_i r hr
    split at h
    · rename_i hph
      cases h
      exact .of (q := { s.port t with maskTx := false, send := none }) (.sExit r hr hph) (returnFromSend_eff _ t)
    · exact noStep_eff t h
  · exact noStep_eff t h

/-- The step of a send in progress. -/
theorem eff_sendPhase {t o ph s s'} (h : sendPhaseStep t ph s = .next s') : PortEffect t o s s' := by
  unfold sendPhaseStep at h
  cases ph with
  | sLoop => exact eff_sLoop h
  | sWait => exact eff_sWait h
  | sRemask => exact eff_sWait h
  | sKick => exact eff_sKick h
  | sExit => exact eff_sExit h

/-- IRQ_TX (R128). -/
theorem eff_irqTx {t s s'} (h : execIrqTx t s = .next s') : PortEffect t (some (.irqTx t)) s s' := by
  unfold execIrqTx takeInterrupt at h
  split at h
  · rename_i he; exact onPort_eff h (fun q hq => .irqTx q rfl he hq)
  · exact noStep_eff t h

/-- IRQ_RX, MAILBOX mode (R134). -/
theorem eff_irqRxMailbox {t s s'} (h : execIrqRxMailbox t s = .next s') : PortEffect t (some (.irqRxMailbox t)) s s' := by
  unfold execIrqRxMailbox takeInterrupt at h
  split at h
  · rename_i he
    simp at he
    exact onPort_eff h (fun q hq => by cases hq; exact .mailbox rfl he.1 he.2)
  · exact noStep_eff t h

/-- IRQ_RX, RING mode (R135). -/
theorem eff_irqRxRing {t s s'} (h : execIrqRxRing t s = .next s') : PortEffect t (some (.irqRxRing t)) s s' := by
  unfold execIrqRxRing takeInterrupt at h
  split at h
  · rename_i he
    simp at he
    exact onPort_eff h (fun q hq => .ring q rfl he.1 he.2 hq)
  · exact noStep_eff t h

/-- READ_LINE (R137). -/
theorem eff_readLine {t s s'} (h : execReadLine t s = .next s') : PortEffect t (some (.readLine t)) s s' := by
  unfold execReadLine at h
  split at h
  · rename_i ph hc
    unfold readStep at h
    cases ph with
    | enter => cases h; exact .of (.rEnter) (.inr ⟨_, _, rfl⟩)
    | unmask => cases h; exact .of (.rMask false) (.inr ⟨_, _, rfl⟩)
    | wait =>
      dsimp only at h
      split at h
      · rename_i q hq
        obtain ⟨rfl, _⟩ := waitReady_some hq
        cases h
        exact .of (.rWait) (.inr ⟨_, _, rfl⟩)
      · exact noStep_eff t h
    | remask => cases h; exact .of (.rMask true) (.inr ⟨_, _, rfl⟩)
    | take =>
      dsimp only at h
      split at h
      · cases h
      · rename_i q hq
        cases h
        exact .of (.rTake q rfl hc hq) (.inr ⟨_, _, rfl⟩)
    | exit =>
      dsimp only at h
      split at h
      · cases h
      · cases h
        exact .of (.rMask false) (.inr ⟨_, _, rfl⟩)
  all_goals exact noStep_eff t h

/-- UART_TX (R164). -/
theorem eff_uartTx {t s s'} (h : execUartTx t s = .next s') : PortEffect t (some (.uartTx t)) s s' := by
  unfold execUartTx at h
  dsimp only at h
  split at h
  · exact noStep_eff t h
  · rename_i b rest hb
    cases h
    exact .of (.uartTx b rest rfl hb) (.inl rfl)

/-- LINE_IN (R166). -/
theorem eff_lineIn {t b s s'} (h : execLineIn t b s = .next s') : PortEffect t (some (.lineIn t b)) s s' := by
  unfold execLineIn at h
  dsimp only at h
  split at h
  · rename_i hl
    cases h
    exact .of (.lineIn b rfl hl) (.inl rfl)
  · cases h
    exact .of (.overrun b rfl) (.inl rfl)

/-- BAUD_LOAD (R161). -/
theorem eff_baudLoad {t o s s'} (h : execBaudLoad t s = .next s') : PortEffect t o s s' := by
  unfold execBaudLoad at h
  split at h
  · cases h
  · rename_i hb; cases h; exact .of (.baud _ (by simpa using hb)) (.inl rfl)

/-- FSM_STEP in WAIT_SYNC (R183). -/
theorem eff_fsmWait {t o b s s'} (h : execFsmStepWaitSync t b s = .next s') : PortEffect t o s s' := by
  unfold execFsmStepWaitSync at h
  split at h
  · rename_i hf; exact onPort_eff h (fun q hq => .fsm q b (by simp [Port.fsmStep, hf, hq]))
  · exact noStep_eff t h

/-- FSM_STEP in ACCUMULATE (R184). -/
theorem eff_fsmAcc {t o b s s'} (h : execFsmStepAccumulate t b s = .next s') : PortEffect t o s s' := by
  unfold execFsmStepAccumulate at h
  split at h
  · rename_i hf; exact onPort_eff h (fun q hq => .fsm q b (by simp [Port.fsmStep, hf, hq]))
  · exact noStep_eff t h

/-- Taking a lock (R75). -/
theorem eff_acquire {a t o q x} {s : State} (h : (s.port t).acquire a = some q) :
    Effect o s ((s.setPort t q).setCtl a x)
    := by
  obtain ⟨hf, rfl⟩ := acquire_some h
  exact PortEffect.eff (.of (.acquire a hf) (.inr ⟨_, _, rfl⟩))

/-- X_LOCK (R213). -/
theorem eff_busLock {o a k b m s s'} (h : busLock a k b m s = .next s') : Effect o s s' := by
  unfold busLock at h
  split at h
  · rename_i p hp
    cases h
    exact eff_acquire hp
  · exact (noStep_eff .rs485 h).eff

/-- A step of the bracket (R213). -/
theorem eff_bus {o ph k b m s s'} (hc : s.ctl s.cur = .act (.bus ph k b m)) (h : busStep s.cur ph k b m s = .next s') :
    Effect o s s' := by
  unfold busStep at h
  cases ph with
  | lock => exact eff_busLock h
  | deOn => cases h; exact Effect.ofGlobalCtl (.deOn k b m hc) _ _
  | pre => cases h; exact Effect.ofGlobalCtl .same _ _
  | send =>
    simp only [busSend] at h
    split at h
    · exact (eff_sendPhase h).eff
    · cases k with
      | frame => exact (eff_sendLine h).eff
      | raw => exact (eff_sendRaw h).eff
  | post => cases h; exact Effect.ofGlobalCtl .same _ _
  | deOff => cases h; exact Effect.ofGlobalCtl (.deOff k b m hc) _ _
  | unlock => cases h; exact PortEffect.eff (.of .free (.inr ⟨_, _, rfl⟩))

/-- A value returned to the caller. -/
theorem eff_ret {o} {s s' : State} {u r} (h : returnValue s u r = .next s') : Effect o s s' := by
  cases h
  exact Effect.ofGlobal (.ret u r)

/-- A command without effect. -/
theorem eff_done {o} (s : State) : Effect o s (commandDone s) := Effect.ofGlobalCtl .same _ _

/-- Everything an operation can do. -/
theorem eff_exec {i s s'} (h : exec i s = .next s') : Effect (some i) s s' := by
  cases i with
  | wSys id ch p => cases h; exact eff_done s
  | wGpio id ch p => cases h; exact eff_done s
  | wRelay id ch p =>
    replace h : execWRelay id ch p s = .next s' := h
    unfold execWRelay at h
    dsimp only at h
    split at h
    · cases h
      exact eff_done s
    · split at h
      · cases h
        exact eff_done s
      · cases h; exact Effect.ofGlobalCtl (.relay id ch p _ rfl (by omega)) _ _
  | wRs232 id ch p =>
    replace h : execWRs232 id ch p s = .next s' := h
    unfold execWRs232 at h
    split at h
    · cases h
      exact eff_done s
    · split at h
      · rename_i q hq
        cases h
        exact eff_acquire hq
      · cases h
        exact (PortEffect.refl .rs485 s).eff
  | wIr id ch p =>
    replace h : execWIr id ch p s = .next s' := h
    unfold execWIr at h
    split at h
    · cases h
      exact eff_done s
    · cases h
      exact Effect.ofGlobalCtl (.ir _ _) _ _
  | wRs485 id p => exact eff_busLock h
  | wIgnore id ch p => cases h; exact eff_done s
  | sIgnore id ch p => cases h; exact eff_done s
  | xIgnore id ty ch p => cases h; exact eff_done s
  | sStatus ch v => cases h; exact Effect.ofGlobal (.ret false _)
  | sendLine t f n => exact (eff_sendLine h).eff
  | sendRaw t b m => exact (eff_sendRaw h).eff
  | sendSLoop t => exact (eff_sLoop h).eff
  | sendSWait t => exact (eff_sWait h).eff
  | sendSKick t => exact (eff_sKick h).eff
  | sendSExit t => exact (eff_sExit h).eff
  | irqTx t => exact (eff_irqTx h).eff
  | irqRxMailbox t => exact (eff_irqRxMailbox h).eff
  | irqRxRing t => exact (eff_irqRxRing h).eff
  | readLine t => exact (eff_readLine h).eff
  | uartTx t => exact (eff_uartTx h).eff
  | lineIn t b => exact (eff_lineIn h).eff
  | baudLoad t => exact (eff_baudLoad h).eff
  | checksum b m =>
    replace h : execChecksum b m s = .next s' := h
    unfold execChecksum at h
    split at h <;> exact eff_ret h
  | encode id ty ch p l =>
    replace h : execEncode id ty ch p l s = .next s' := h
    unfold execEncode at h
    split at h <;> exact eff_ret h
  | fsmStepWaitSync t b => exact (eff_fsmWait h).eff
  | fsmStepAccumulate t b => exact (eff_fsmAcc h).eff
  | validate c n => exact eff_ret h
  | netValidate d n => exact eff_ret h
  | parse c => exact eff_ret h
  | filter pf p => cases h; exact Effect.ofGlobal (.ret false _)
  | dispatch pf => cases h; exact Effect.ofGlobal (.ret false _)
  | rs485Tx k b m =>
    replace h : execRs485Tx k b m s = .next s' := h
    unfold execRs485Tx at h
    split at h
    · rename_i ph k' b' m' hc
      split at h
      · rename_i he
        obtain ⟨rfl, rfl, rfl⟩ := he
        exact eff_bus hc h
      · cases h
        exact (PortEffect.refl .rs485 s).eff
    · exact eff_busLock h
  | statusFanout ch v => cases h; exact Effect.ofGlobalCtl (.net _) _ _
  | gpioEvt g v =>
    replace h : execGpioEvt g v s = .next s' := h
    unfold execGpioEvt at h
    split at h
    · split at h
      · cases h
        exact Effect.ofGlobalCtl (.net _) _ _
      · cases h
        exact (PortEffect.refl .rs485 s).eff
    · cases h
  | netRecv d n =>
    replace h : execNetRecv d n s = .next s' := h
    unfold execNetRecv at h
    split at h
    · cases h
      exact Effect.ofGlobalCtl (.draw _) _ _
    · cases h
      exact (PortEffect.refl .rs485 s).eff

/-- The operations a step of the chosen agent can execute: those of the hardware, the environment and the handlers only when
that agent is chosen, READ_LINE only for its listener, W.RELAY only for a task whose command it is. -/
structure OpOf (w : Choice) (s : State) (o : Option Instr) : Prop where
  lineIn : ∀ t b, o = some (.lineIn t b) → w = .lineIn t b
  uartTx : ∀ t, o = some (.uartTx t) → w = .uartTx t
  irqTx : ∀ t, o = some (.irqTx t) → w = .irqTx t
  irqRxRing : ∀ t, o = some (.irqRxRing t) → w = .irqRx t
  irqRxMailbox : ∀ t, o = some (.irqRxMailbox t) → w = .irqRx t
  readLine : ∀ t, o = some (.readLine t) → w = .task (.listener (.serial t))
  wRelay : ∀ id ch p, o = some (.wRelay id ch p) →
    ∃ a pf, w = .task a ∧ s.ctl a = .act (.cmd pf) ∧ instrOf pf = .wRelay id ch p

/-- A step outside `exec` executes none of them. -/
theorem OpOf.none (w : Choice) (s : State) : OpOf w s none := by constructor <;> nofun

/-- A received frame is one of the nine received rows. -/
theorem instrOf_op {w : Choice} {s : State} {a : TaskId} {pf : ParsedFrame} (hw : w = .task a)
    (hc : s.ctl a = .act (.cmd pf)) : OpOf w s (some (instrOf pf)) := by
  have key : ∀ i : Instr, instrOf pf = i → (∃ id ch p, i = .wRelay id ch p) ∨ OpOf w s (some i) := by
    intro i e
    unfold instrOf route at e
    dsimp only at e
    split_ifs at e <;> subst e <;> first
      | exact .inl ⟨_, _, _, rfl⟩
      | (right; constructor <;> nofun)
  rcases key _ rfl with ⟨id, ch, p, e⟩ | h
  · rw [e]
    constructor <;> first
      | (intros; rename_i e'; cases e'; done)
      | exact fun _ _ _ e' => by cases e'; exact ⟨a, pf, hw, hc, e⟩
  · exact h

/-- Everything a step of a task can do. -/
theorem eff_task {a s s'} (h : taskStep a s = .next s') (ha : s.cur = a) : ∃ o, Effect o s s' ∧ OpOf (.task a) s o := by
  have hno : ∀ {s s' : State}, noStep s = .next s' → ∃ o, Effect o s s' ∧ OpOf (.task a) s o :=
    fun h => ⟨none, (noStep_eff .rs485 h).eff, .none _ _⟩
  unfold taskStep at h
  split at h
  · split at h
    · exact ⟨_, eff_exec h, by constructor <;> first | (intros; rename_i e; cases e; done) | (intro t e; cases e; rfl)⟩
    · exact hno h
    · exact hno h
  · exact hno h
  · split at h
    · cases h
      exact ⟨none, Effect.ofGlobalCtl (.draw _) _ _, .none _ _⟩
    · exact hno h
  · rename_i act hc
    unfold actStep at h
    split at h
    · exact ⟨_, eff_exec h, instrOf_op rfl hc⟩
    · exact ⟨_, eff_exec h, by constructor <;> nofun⟩
    · unfold forwardStep at h
      split at h
      · split at h
        · exact ⟨none, (eff_sendPhase h).eff, .none _ _⟩
        · exact ⟨_, eff_exec h, by constructor <;> nofun⟩
      · cases h
        exact ⟨none, PortEffect.eff (.of .free (.inr ⟨_, _, rfl⟩)), .none _ _⟩
    · exact ⟨_, eff_exec h, by constructor <;> nofun⟩
  · cases h
    exact ⟨none, Effect.ofGlobalCtl .same _ _, .none _ _⟩

/-- Everything a step of the chosen agent can do, beside the current task. -/
theorem eff_choice {w : Choice} {s s' : State} (h : choiceStep w s = .next s') :
    ∃ a o, Effect o { s with cur := a } s' ∧ OpOf w s o := by
  unfold choiceStep at h
  split at h
  · exact ⟨s.cur, _, eff_exec h, by constructor <;> first | (intros; rename_i e; cases e; done) | (intro _ _ e; cases e; rfl)⟩
  · exact ⟨s.cur, _, eff_exec h, by constructor <;> first | (intros; rename_i e; cases e; done) | (intro _ e; cases e; rfl)⟩
  · exact ⟨s.cur, _, eff_exec h, by constructor <;> first | (intros; rename_i e; cases e; done) | (intro _ e; cases e; rfl)⟩
  · refine ⟨s.cur, _, eff_exec h, ?_⟩
    unfold irqRxInstr
    split <;> constructor <;> first | (intros; rename_i e; cases e; done) | (intro _ e; cases e; rfl)
  · rename_i a
    split at h
    · exact ⟨s.cur, none, (noStep_eff .rs485 h).eff, .none _ _⟩
    · obtain ⟨o, he, ho⟩ := eff_task h rfl
      refine ⟨a, o, he, ⟨ho.1, ho.2, ho.3, ho.4, ho.5, ho.6, fun id ch p e => ?_⟩⟩
      obtain ⟨a', pf, hw, hc, hi⟩ := ho.7 id ch p e
      exact ⟨a', pf, hw, hc ▸ by rcases a' with ⟨_ | ⟨_ | _ | _⟩⟩ | _ <;> rfl, hi⟩
  · exact ⟨s.cur, _, eff_exec h, by constructor <;> nofun⟩
  · exact ⟨s.cur, _, eff_exec h, by constructor <;> nofun⟩

/-- Taking a choice touches the schedule and the counter of free choices only. -/
theorem afterChoice_form (s : State) : ∃ l n, s.afterChoice = { s with sched := l, tick := n } := by
  unfold State.afterChoice
  split <;> exact ⟨_, _, rfl⟩

/-- A step of a started block is the step of the chosen agent. -/
theorem step_running {s : State} (hb : s.boot = .running) : step s = choiceStep s.chosen s.afterChoice := by
  simp only [step, machineStep, hb, runStep, State.chosen, State.afterChoice]
  cases s.sched <;> rfl

/-- Everything a step of a started block can do, beside the schedule and the current task. -/
theorem eff_step {s s'} (hb : s.boot = .running) (h : step s = .next s') :
    ∃ (s0 : State) (o : Option Instr), (∃ l n a, s0 = { s with sched := l, tick := n, cur := a }) ∧
      Effect o s0 s' ∧ OpOf s.chosen s o := by
  have hop : ∀ {w : Choice} {s0 : State} {o : Option Instr}, (∀ a, s0.ctl a = s.ctl a) → OpOf w s0 o → OpOf w s o := by
    intro w s0 o hc ho
    refine ⟨ho.1, ho.2, ho.3, ho.4, ho.5, ho.6, fun id ch p e => ?_⟩
    obtain ⟨a', pf, hw, hc', hi⟩ := ho.7 id ch p e
    exact ⟨a', pf, hw, hc a' ▸ hc', hi⟩
  rw [step_running hb] at h
  obtain ⟨l, n, hc⟩ := afterChoice_form s
  obtain ⟨a, o, he, ho⟩ := eff_choice h
  rw [hc] at he ho
  exact ⟨_, o, ⟨l, n, a, rfl⟩, he, hop (fun b => by rcases b with ⟨_ | ⟨_ | _ | _⟩⟩ | _ <;> rfl) ho⟩

/-- Everything a step of the start sequence can do that claims speak of. -/
theorem step_boot {s s'} (hb : s.boot ≠ .running) (h : step s = .next s') :
    s'.params = s.params ∧ s'.de = s.de ∧ s'.deLog = s.deLog ∧ s'.relays = s.relays ∧
      ∀ t, ∃ n, s'.port t = { s.port t with baudDiv := n } := by
  unfold step machineStep at h
  cases hbb : s.boot with
  | readCfg =>
    rw [hbb] at h
    cases h
    exact ⟨rfl, rfl, rfl, rfl, fun t => ⟨(s.port t).baudDiv, by cases t <;> rfl⟩⟩
  | startTasks =>
    rw [hbb] at h
    cases h
    exact ⟨rfl, rfl, rfl, rfl, fun t => ⟨(s.port t).baudDiv, by cases t <;> rfl⟩⟩
  | baudLoad u =>
    rw [hbb] at h
    simp only [bootBaud, exec, execBaudLoad, hbb] at h
    cases h
    refine ⟨by cases u <;> rfl, by cases u <;> rfl, by cases u <;> rfl, by cases u <;> rfl, fun t => ?_⟩
    by_cases e : t = u
    · subst e; exact ⟨baudDivisor s.params (s.baudOf t), by cases t <;> rfl⟩
    · exact ⟨(s.port t).baudDiv, by cases u <;> cases t <;> first | rfl | exact absurd rfl e⟩
  | running => exact absurd hbb hb

/-- A step outside the transports leaves these fields. -/
theorem global_port {o s s0} (h : GlobalStep o s s0) : (∀ t, s0.port t = s.port t) ∧ s0.params = s.params ∧ s0.localId =
    s.localId ∧ s0.baud485 = s.baud485 ∧ s0.baud232 = s.baud232 ∧ s0.cfgIn = s.cfgIn ∧ s0.boot = s.boot ∧ (∀ a,
    s0.ctl a = s.ctl a) := by
  cases h <;> simp

/-- One step by its fields. -/
theorem eff_port {o s s'} (h : Effect o s s') :
    (∃ t q,
      PortStep s.params s.de (s.ctl (.listener (.serial t))) (s.boot == .running) t o (s.port t) q ∧
      ∀ u, s'.port u = if u = t then q else s.port u) ∧
    s'.params = s.params ∧ s'.localId = s.localId ∧ s'.baud485 = s.baud485 ∧ s'.baud232 = s.baud232 ∧
    s'.cfgIn = s.cfgIn ∧ s'.boot = s.boot ∧
    ∃ s0, GlobalStep o s s0 ∧ s'.de = s0.de ∧ s'.deLog = s0.deLog ∧ s'.relays = s0.relays := by
  obtain ⟨s0, t, q, hg, hp, hs⟩ := h
  obtain ⟨g1, g2, g3, g4, g5, g6, g7, g8⟩ := global_port hg
  rcases hs with rfl | ⟨a, x, rfl⟩
  · exact ⟨⟨t, q, hp, fun u => by rw [port_setPort, g1]⟩, by simp [g2], by simp [g3], by simp [g4], by simp [g5], by
        simp [g6], by simp [g7], s0, hg, by simp, by simp, by simp⟩
  · exact ⟨⟨t, q, hp, fun u => by simp [port_setPort, g1]⟩, by simp [g2], by simp [g3], by simp [g4], by simp [g5],
        by simp [g6], by simp [g7], s0, hg, by simp, by simp, by simp⟩

/-- Program points do not depend on the schedule. -/
theorem ctl_upd (s : State) (l n a b) : ({ s with sched := l, tick := n, cur := a } : State).ctl b = s.ctl b := by
  rcases b with ⟨_ | ⟨_ | _ | _⟩⟩ | _ <;> rfl

/-- Transports do not depend on the schedule. -/
theorem port_upd (s : State) (l n a t) : ({ s with sched := l, tick := n, cur := a } : State).port t = s.port t := by
  cases t <;> rfl

/-- What a step of a started block does to one transport, and which operation it can be. -/
theorem step_portStep {s s'} (hb : s.boot = .running) (h : step s = .next s') (t) :
    ∃ o, PortStep s.params s.de (s.ctl (.listener (.serial t))) true t o (s.port t) (s'.port t) ∧ OpOf s.chosen s o := by
  obtain ⟨s0, o, ⟨l, n, a, rfl⟩, he, ho⟩ := eff_step hb h
  obtain ⟨⟨u, q, hp, hport⟩, _⟩ := eff_port he
  refine ⟨o, ?_, ho⟩
  rw [hport]
  split
  · rename_i e
    subst e
    simp only [hb] at hp
    exact hp
  · rw [port_upd]
    exact .same

/-- No step changes the parameters. -/
theorem step_params {s s'} (h : step s = .next s') : s'.params = s.params := by
  by_cases hb : s.boot = .running
  · obtain ⟨s0, o, ⟨l, n, a, rfl⟩, he, _⟩ := eff_step hb h
    exact (eff_port he).2.1
  · exact (step_boot hb h).1

/-- A step of one transport leaves everything else. -/
theorem port_relays {t o s s'} (h : PortEffect t o s s') : (∀ u, u ≠ t → s'.port u = s.port u) ∧ s'.relays = s.relays ∧
    s'.de = s.de ∧ s'.deLog = s.deLog ∧ s'.netOut = s.netOut ∧ s'.irLog = s.irLog := by
  obtain ⟨v, q, _, rfl | ⟨a, x, rfl⟩⟩ := h
  · exact ⟨fun u hu => by rw [port_setPort_ne _ _ _ _ hu, port_draw], by simp⟩
  · exact ⟨fun u hu => by rw [port_setCtl, port_setPort_ne _ _ _ _ hu, port_draw], by simp⟩

/-- A write keeps the canonical form. -/
theorem write_wf {size m a b m'} (h : Memory.write size m a b = .ok m') (hw : Memory.wf m = true) : Memory.wf m' =
    true := by
  obtain ⟨_, rfl⟩ := Memory.write_ok.1 h
  exact Memory.wf_insert _ _ _ hw

/-- A run of writes keeps the canonical form. -/
theorem writeRun_wf {size} (bs : List Byte) : ∀ {m a m'}, Memory.writeRun size m a bs = .ok m' → Memory.wf m = true →
    Memory.wf m' = true := by
  induction bs with
  | nil => intro m a m' h hw; cases h; exact hw
  | cons b bs ih =>
    intro m a m' h hw
    unfold Memory.writeRun at h
    split at h
    · cases h
    · rename_i e
      exact ih h (write_wf e hw)

/-- ENQ keeps the canonical form. -/
theorem enq_wf {m : Nat} {r r' : Sys2Proof.Machine.Ring} {b} (h : r.enq m b = .ok r') (hw : Memory.wf r.slots = true)
    : Memory.wf r'.slots = true := by
  unfold Ring.enq at h
  split at h
  · cases h
  · rename_i e; cases h; exact write_wf e hw

/-- DEQ changes no slot. -/
theorem deq_slots {m : Nat} {r r' : Sys2Proof.Machine.Ring} {b} (h : r.deq m = .ok (b, r')) : r'.slots = r.slots := by
  unfold Ring.deq at h
  split at h
  · cases h
  · split at h
    · cases h
    · cases h
      rfl

/-- Moving a byte keeps the canonical form. -/
theorem moveTx_wf {c p q} (h : Port.moveTx c p = .ok q) (hw : p.memWf = true) : q.memWf = true := by
  unfold Port.moveTx at h
  split at h
  · cases h
  · rename_i b r e
    unfold Port.pushTx at h
    split at h
    · cases h
      simpa [Port.memWf, deq_slots e] using hw
    · cases h

/-- The drain keeps the canonical form. -/
theorem drain_wf {c} (k : Nat) : ∀ {p q}, Port.drain c k p = .ok q → p.memWf = true → q.memWf = true := by
  induction k with
  | zero => intro p q h hw; cases h; exact hw
  | succ k ih =>
    intro p q h hw
    unfold Port.drain at h
    split at h
    · split at h
      · cases h
      · rename_i e
        exact ih h (moveTx_wf e hw)
    · cases h
      exact hw

/-- The RX handler keeps the canonical form. -/
theorem rxToRing_wf {c} (bs : List Byte) : ∀ {p q}, Port.rxToRing c p bs = .ok q → p.memWf = true → q.memWf = true :=
    by
  induction bs with
  | nil => intro p q h hw; cases h; exact hw
  | cons b bs ih =>
    intro p q h hw
    unfold Port.rxToRing at h
    split at h
    · exact ih h hw
    · split at h
      · cases h
      · rename_i r e
        refine ih h ?_
        have := Port.memWf_iff.1 hw
        exact Port.memWf_iff.2 ⟨this.1, enq_wf e this.2.1, this.2.2⟩

/-- FSM_STEP keeps the canonical form. -/
theorem fsmStep_wf {p q b} (h : Port.fsmStep p b = .ok q) (hw : p.memWf = true) : q.memWf = true := by
  have := Port.memWf_iff.1 hw
  unfold Port.fsmStep at h
  split at h
  · unfold Port.fsmWaitSync at h
    split at h
    · split at h
      · cases h
      · rename_i e; cases h; exact Port.memWf_iff.2 ⟨this.1, this.2.1, this.2.2.1, write_wf e this.2.2.2⟩
    · cases h
      exact hw
  · unfold Port.fsmAccumulate at h
    split at h
    · cases h
    · rename_i e; cases h; exact Port.memWf_iff.2 ⟨this.1, this.2.1, this.2.2.1, write_wf e this.2.2.2⟩
  · cases h
    exact hw

/-- Every step of a transport keeps the canonical form. -/
theorem portStep_wf {c d x st t o p q} (h : PortStep c d x st t o p q) (hw : p.memWf = true) : q.memWf = true := by
  have hm := Port.memWf_iff.1 hw
  cases h with
  | irqTx q ho h e =>
    unfold Port.irqTxBody at e
    split at e
    · cases e
    · rename_i q0 e0
      have := drain_wf _ e0 hw
      split at e <;> cases e <;> exact this
  | mailbox => rw [Port.rxToMailbox_spec]; exact hw
  | ring q ho h m e => exact rxToRing_wf _ e hw
  | stage q bs n h e =>
    unfold Port.stageBytes at e
    split at e
    · cases e
    · rename_i m e0
      cases e
      exact Port.memWf_iff.2 ⟨hm.1, hm.2.1, writeRun_wf _ e0 hm.2.2.1, hm.2.2.2⟩
  | sLoop q r h ph e =>
    unfold Port.sLoop at e
    split at e
    · cases e
    · split at e
      · cases e
        exact hw
      · split at e
        · cases e
          exact hw
        · split at e
          · cases e
          · split at e
            · cases e
            · rename_i e0
              cases e
              exact Port.memWf_iff.2 ⟨enq_wf e0 hm.1, hm.2⟩
  | sKick q r h ph e =>
    unfold Port.sKick at e
    split at e
    · cases e
    · split at e
      · split at e
        · cases e
        · rename_i e0
          cases e
          have := moveTx_wf e0 hw
          exact this
      · cases e
        exact hw
  | fsm q b e => exact fsmStep_wf e hw
  | rTake q ho h e =>
    unfold Port.rTake at e
    split at e
    · cases e
    · split at e
      · cases e
      · rename_i b q0 e0
        refine fsmStep_wf e ?_
        unfold Port.takeByte at e0
        split at e0
        · cases e0
          exact hw
        · split at e0
          · cases e0
          · rename_i e1
            cases e0
            simpa [Port.memWf, deq_slots e1] using hw
  | _ => exact hw

/-- The canonical form of the block is that of its transports. -/
theorem memWf_iff {s : State} : s.memWf = true ↔ ∀ t, (s.port t).memWf = true := by
  unfold State.memWf
  constructor
  · intro h t
    simp at h
    cases t <;> simp [h]
  · intro h
    simp [h]

/-- The fields that moving a byte writes; the register grows at the young end. -/
theorem moveTx_form {c p q} (h : Port.moveTx c p = .ok q) :
    ∃ r w, q = { p with txRing := r, txHw := p.txHw ++ w } := by
  unfold Port.moveTx at h
  split at h
  · cases h
  · unfold Port.pushTx at h
    split at h
    · cases h
      exact ⟨_, _, rfl⟩
    · cases h

/-- The fields the drain writes. -/
theorem drain_form {c} (k : Nat) :
    ∀ {p q}, Port.drain c k p = .ok q → ∃ r w, q = { p with txRing := r, txHw := p.txHw ++ w } := by
  induction k with
  | zero => intro p q h; cases h; exact ⟨p.txRing, [], by simp⟩
  | succ k ih =>
    intro p q h
    unfold Port.drain at h
    split at h
    · split at h
      · cases h
      · rename_i e
        obtain ⟨r, w, rfl⟩ := moveTx_form e
        obtain ⟨r', w', rfl⟩ := ih h
        exact ⟨r', w ++ w', by simp⟩
    · cases h
      exact ⟨p.txRing, [], by simp⟩

/-- The fields IRQ_TX writes. -/
theorem irqTxBody_form {c p q} (h : Port.irqTxBody c p = .ok q) :
    ∃ r w n, q = { p with txRing := r, txHw := p.txHw ++ w, threPend := false, room := n } := by
  unfold Port.irqTxBody at h
  split at h
  · cases h
  · rename_i e
    obtain ⟨r, w, rfl⟩ := drain_form _ e
    split at h <;> cases h <;> exact ⟨_, _, _, rfl⟩

/-- The fields IRQ_RX writes in RING mode. -/
theorem rxToRing_form {c} (bs : List Byte) :
    ∀ {p q}, Port.rxToRing c p bs = .ok q →
      ∃ r n o, q = { p with rxHw := [], rxRing := r, ready := n, rxOverrun := o } := by
  induction bs with
  | nil => intro p q h; cases h; exact ⟨_, _, _, rfl⟩
  | cons b bs ih =>
    intro p q h
    unfold Port.rxToRing at h
    split at h
    · obtain ⟨r, n, o, rfl⟩ := ih h
      exact ⟨_, _, _, rfl⟩
    · split at h
      · cases h
      · obtain ⟨r, n, o, rfl⟩ := ih h
        exact ⟨_, _, _, rfl⟩

/-- The fields S_STAGE writes. -/
theorem stage_form {p q bs n} (h : Port.stageBytes p bs n = .ok q) :
    ∃ m, q = { p with
      maskTx := true
      stage := m
      send := some { n := n, i := 0, wasEmpty := p.txRing.isEmpty, phase := .sLoop } } := by
  unfold Port.stageBytes at h
  split at h
  · cases h
  · cases h
    exact ⟨_, rfl⟩

/-- The fields S_LOOP writes. -/
theorem sLoop_form {c p q r} (h : Port.sLoop c p r = .ok q) :
    ∃ ring m s, q = { p with txRing := ring, maskTx := m, send := some s } := by
  unfold Port.sLoop at h
  split at h
  · cases h
  · split at h
    · cases h
      exact ⟨_, _, _, rfl⟩
    · split at h
      · cases h
        exact ⟨_, _, _, rfl⟩
      · split at h
        · cases h
        · split at h
          · cases h
          · cases h
            exact ⟨_, _, _, rfl⟩

/-- The fields S_KICK writes. -/
theorem sKick_form {c p q r} (h : Port.sKick c p r = .ok q) :
    ∃ ring w, q = { p with txRing := ring, txHw := p.txHw ++ w, send := some { r with phase := .sExit } } := by
  unfold Port.sKick at h
  split at h
  · cases h
  · split at h
    · split at h
      · cases h
      · rename_i e
        obtain ⟨ring, w, rfl⟩ := moveTx_form e
        cases h
        exact ⟨_, _, rfl⟩
    · cases h
      exact ⟨p.txRing, [], by simp⟩

/-- The fields FSM_STEP writes. -/
theorem fsm_form {p q b} (h : Port.fsmStep p b = .ok q) :
    ∃ m f n t, q = { p with rxBuf := m, fsm := f, pos := n, total := t } := by
  unfold Port.fsmStep at h
  split at h
  · unfold Port.fsmWaitSync at h
    split at h
    · split at h
      · cases h
      · cases h
        exact ⟨_, _, _, _, rfl⟩
    · cases h
      exact ⟨_, _, _, _, rfl⟩
  · unfold Port.fsmAccumulate at h
    split at h
    · cases h
    · cases h
      exact ⟨_, _, _, _, rfl⟩
  · cases h
    exact ⟨_, _, _, _, rfl⟩

/-- The fields R_TAKE writes. -/
theorem rTake_form {c p q} (h : Port.rTake c p = .ok q) :
    ∃ r m f n t, q = { p with rxRing := r, rxBuf := m, fsm := f, pos := n, total := t } := by
  unfold Port.rTake at h
  split at h
  · cases h
  · split at h
    · cases h
    · rename_i b q0 e0
      obtain ⟨m, f, n, t, rfl⟩ := fsm_form h
      unfold Port.takeByte at e0
      split at e0
      · cases e0
        exact ⟨_, _, _, _, _, rfl⟩
      · split at e0
        · cases e0
        · cases e0
          exact ⟨_, _, _, _, _, rfl⟩

end Sys2Proof.Machine
end

