-- ==== Sys2Proof/Laws/PerInstr.lean ====
section
/-!
SUPPORT. Sys2Proof/Laws/PerInstr.lean: one lemma per constructor of `Instr`. `FrameSize`: the encoding of a well-formed instruction
is a frame of 6 to 255 bytes that begins with SOF (spec/30_encoding.md R90, R92, R96); a port operation has none (R103).
-/

namespace Sys2Proof.Laws.FrameSize

open Sys2Proof.Machine (frameBytes_length channelIn_iff)

/-- The encoding of a well-formed instruction, where it has one, is 6 to 255 bytes long and begins with 62. -/
def Statement (i : Instr) : Prop :=
  i.wellFormed = true → ∀ localId f, encode localId i = some f → 6 ≤ f.length ∧ f.length ≤ 255 ∧ f[0]? = some 62#8

/-- A frame with at most 249 payload bytes. -/
theorem of_payload {id ty ch : Byte} {p f : List Byte} (hp : payloadOk p = true) (h : some (frameBytes id ty ch p) = some f) :
    6 ≤ f.length ∧ f.length ≤ 255 ∧ f[0]? = some 62#8 := by
  cases h
  simp only [payloadOk, decide_eq_true_eq] at hp
  refine ⟨by rw [frameBytes_length]; omega, by rw [frameBytes_length]; omega, rfl⟩

/-- W.SYS. -/
theorem wSys (id : Byte) (ch : Byte) (payload : List Byte) : Statement (.wSys id ch payload) :=
  fun h _ _ e => of_payload (Bool.and_eq_true_iff.1 h).2 e

/-- W.GPIO. -/
theorem wGpio (id : Byte) (ch : Byte) (payload : List Byte) : Statement (.wGpio id ch payload) :=
  fun h _ _ e => of_payload (Bool.and_eq_true_iff.1 h).2 e

/-- W.RELAY. -/
theorem wRelay (id : Byte) (ch : Byte) (payload : List Byte) : Statement (.wRelay id ch payload) :=
  fun h _ _ e => of_payload (Bool.and_eq_true_iff.1 h).2 e

/-- W.RS232. -/
theorem wRs232 (id : Byte) (ch : Byte) (payload : List Byte) : Statement (.wRs232 id ch payload) :=
  fun h _ _ e => of_payload (Bool.and_eq_true_iff.1 h).2 e

/-- W.IR. -/
theorem wIr (id : Byte) (ch : Byte) (payload : List Byte) : Statement (.wIr id ch payload) :=
  fun h _ _ e => of_payload (Bool.and_eq_true_iff.1 h).2 e

/-- W.RS485. -/
theorem wRs485 (id : Byte) (payload : List Byte) : Statement (.wRs485 id payload) := fun h _ _ e => of_payload h e

/-- W.IGNORE. -/
theorem wIgnore (id : Byte) (ch : Byte) (payload : List Byte) : Statement (.wIgnore id ch payload) :=
  fun h _ _ e => of_payload (Bool.and_eq_true_iff.1 h).2 e

/-- S.IGNORE. -/
theorem sIgnore (id : Byte) (ch : Byte) (payload : List Byte) : Statement (.sIgnore id ch payload) :=
  fun h _ _ e => of_payload h e

/-- X.IGNORE. -/
theorem xIgnore (id : Byte) (ty : Byte) (ch : Byte) (payload : List Byte) : Statement (.xIgnore id ty ch payload) :=
  fun h _ _ e => of_payload (Bool.and_eq_true_iff.1 h).2 e

/-- S.STATUS. -/
theorem sStatus (ch : Byte) (v : Byte) : Statement (.sStatus ch v) := fun _ _ _ e => of_payload rfl e

/-- SEND_LINE. -/
theorem sendLine (t : Transport) (frame : List Byte) (declaredLength : Nat) : Statement (.sendLine t frame declaredLength) :=
  fun _ _ _ e => by cases e

/-- SEND_RAW. -/
theorem sendRaw (t : Transport) (bytes : List Byte) (m : Nat) : Statement (.sendRaw t bytes m) :=
  fun _ _ _ e => by cases e

/-- SEND.S_LOOP. -/
theorem sendSLoop (t : Transport) : Statement (.sendSLoop t) := fun _ _ _ e => by cases e

/-- SEND.S_WAIT. -/
theorem sendSWait (t : Transport) : Statement (.sendSWait t) := fun _ _ _ e => by cases e

/-- SEND.S_KICK. -/
theorem sendSKick (t : Transport) : Statement (.sendSKick t) := fun _ _ _ e => by cases e

/-- SEND.S_EXIT. -/
theorem sendSExit (t : Transport) : Statement (.sendSExit t) := fun _ _ _ e => by cases e

/-- IRQ_TX. -/
theorem irqTx (t : Transport) : Statement (.irqTx t) := fun _ _ _ e => by cases e

/-- IRQ_RX.MAILBOX. -/
theorem irqRxMailbox (t : Transport) : Statement (.irqRxMailbox t) := fun _ _ _ e => by cases e

/-- IRQ_RX.RING. -/
theorem irqRxRing (t : Transport) : Statement (.irqRxRing t) := fun _ _ _ e => by cases e

/-- READ_LINE. -/
theorem readLine (t : Transport) : Statement (.readLine t) := fun _ _ _ e => by cases e

/-- UART_TX. -/
theorem uartTx (t : Transport) : Statement (.uartTx t) := fun _ _ _ e => by cases e

/-- LINE_IN. -/
theorem lineIn (t : Transport) (b : Byte) : Statement (.lineIn t b) := fun _ _ _ e => by cases e

/-- BAUD_LOAD. -/
theorem baudLoad (t : Transport) : Statement (.baudLoad t) := fun _ _ _ e => by cases e

/-- CHECKSUM. -/
theorem checksum (b : List Byte) (m : Nat) : Statement (.checksum b m) := fun _ _ _ e => by cases e

/-- ENCODE. -/
theorem encode (id : Byte) (ty : Byte) (ch : Byte) (p : List Byte) (l : Nat) : Statement (.encode id ty ch p l) :=
  fun _ _ _ e => by cases e

/-- FSM_STEP.WAIT_SYNC. -/
theorem fsmStepWaitSync (t : Transport) (b : Byte) : Statement (.fsmStepWaitSync t b) := fun _ _ _ e => by cases e

/-- FSM_STEP.ACCUMULATE. -/
theorem fsmStepAccumulate (t : Transport) (b : Byte) : Statement (.fsmStepAccumulate t b) := fun _ _ _ e => by cases e

/-- VALIDATE. -/
theorem validate (cand : List Byte) (total : Nat) : Statement (.validate cand total) := fun _ _ _ e => by cases e

/-- NET_VALIDATE. -/
theorem netValidate (d : List Byte) (n : Nat) : Statement (.netValidate d n) := fun _ _ _ e => by cases e

/-- PARSE. -/
theorem parse (cand : List Byte) : Statement (.parse cand) := fun _ _ _ e => by cases e

/-- FILTER. -/
theorem filter (pf : ParsedFrame) (p : Path) : Statement (.filter pf p) := fun _ _ _ e => by cases e

/-- DISPATCH. -/
theorem dispatch (pf : ParsedFrame) : Statement (.dispatch pf) := fun _ _ _ e => by cases e

/-- RS485_TX. -/
theorem rs485Tx (kind : TxKind) (bytes : List Byte) (m : Nat) : Statement (.rs485Tx kind bytes m) :=
  fun _ _ _ e => by cases e

/-- STATUS_FANOUT. -/
theorem statusFanout (ch : Byte) (v : Byte) : Statement (.statusFanout ch v) := fun _ _ _ e => by cases e

/-- GPIO_EVT. -/
theorem gpioEvt (g : Nat) (v : Byte) : Statement (.gpioEvt g v) := fun _ _ _ e => by cases e

/-- NET_RECV. -/
theorem netRecv (d : List Byte) (n : Nat) : Statement (.netRecv d n) := fun _ _ _ e => by cases e

end Sys2Proof.Laws.FrameSize
end

