-- ==== Sys2Proof/Laws/Transmit.lean ====
section
/-!
SUPPORT. Sys2Proof/Laws/Transmit.lean: transmission without the sender (spec/40_ring_transport.md R130). `Port.Flows` is kept by every
step of a transport but the two that lose the kick, and a stalled transport stays stalled.
-/

namespace Sys2Proof.Machine

/-- `Flows` speaks of five fields. -/
theorem Port.Flows.congr {p q : Port} (h : p.Flows) (h1 : q.txRing = p.txRing) (h2 : q.txHw = p.txHw)
    (h3 : q.threPend = p.threPend) (h4 : q.send = p.send) (h5 : q.maskTx = p.maskTx) : q.Flows := by
  have hb : p.busy → q.busy := by
    unfold Port.busy
    rw [h2, h3]
    exact id
  exact {
    unmasked := fun hm he => hb (h.unmasked (h5 ▸ hm) (h1 ▸ he))
    sending := fun r hr hph hw => hb (h.sending r (h4 ▸ hr) hph hw)
    exiting := fun r hr hph he => hb (h.exiting r (h4 ▸ hr) hph (h1 ▸ he))
    waiting := fun r hr => h.waiting r (h4 ▸ hr) }

/-- `Stalled` speaks of four fields. -/
theorem Port.Stalled.congr {c : Params} {p q : Port} (h : p.Stalled c) (h1 : q.txRing = p.txRing) (h2 : q.txHw = p.txHw)
    (h3 : q.threPend = p.threPend) (h4 : q.send = p.send) : q.Stalled c :=
  ⟨h2 ▸ h.idleTx, h3 ▸ h.noCause, by rw [h1, h4]; exact h.stuck⟩

/-- A ring that just took a byte is not empty. -/
theorem Ring.nonempty_of_append {m : Nat} {r r' : Ring} {b : Byte} (h : r'.Ok m) (hb : r'.bytes m = r.bytes m ++ [b]) :
    r'.isEmpty = false := by
  by_contra he
  have hz := (Ring.isEmpty_iff h.inLt h.outLt).1 (by simpa using he)
  have := congrArg List.length hb
  simp [hz] at this

/-- The two ways in which a step leaves a transport with bytes that no cause will send: the hang (R284) and the lost kick
(log 28), as shapes of the transport. -/
def Port.losesKick (c : Params) (q : Port) : Prop :=
  q.txHw = [] ∧ q.threPend = false ∧ ∃ r, q.send = some r ∧ r.i < r.n ∧
    (r.phase = .sWait ∧ q.txRing.isFull c.n = true ∨
      r.phase = .sLoop ∧ r.wasEmpty = false ∧ q.txRing.isEmpty = true)

/-- Not busy: nothing in the register, no cause. -/
theorem Port.not_busy {p : Port} (h : ¬ p.busy) : p.txHw = [] ∧ p.threPend = false := by
  exact ⟨Classical.byContradiction fun h1 => h (.inl h1), by simpa using fun h1 => h (.inr h1)⟩

/-- R130: every step of a transport keeps the flow, or loses the kick. -/
theorem portStep_flows {c d x st t o p q} (hc : c.wf) (hok : p.Ok c) (hf : p.Flows)
    (h : PortStep c d x st t o p q) : q.Flows ∨ q.losesKick c := by
  have hclaim := hok.claim
  cases h with
  | same => exact .inl hf
  | uartTx b rest ho hb =>
    have hq : ({ p with
        txHw := rest
        txLine := p.txLine ++ [(b, d)]
        threPend := if rest = [] then true else p.threPend } : Port).busy := by
      by_cases hr : rest = []
      · exact .inr (by simp [hr])
      · exact .inl hr
    exact .inl ⟨fun _ _ => hq, fun _ _ _ _ => hq, fun _ _ _ _ => hq, hf.waiting⟩
  | irqTx q ho he e =>
    obtain ⟨q', e', hok', hq, hw, hbytes, _⟩ := Port.irqTxBody_spec hok
    rw [e] at e'
    cases e'
    have hm : p.maskTx = false := by
      simp [Port.irqTxEnabled, Port.masked] at he
      exact he.2.1
    have hs : q.send = p.send := by rw [hq]
    have hq' : q.txRing.isEmpty = false → q.busy := fun hne => by
      left
      intro h0
      have hz : q.txRing.bytes c.n = [] := by
        obtain ⟨hp0, ht⟩ := List.append_eq_nil_iff.1 (hw.symm.trans h0)
        have hd := hc.2.2.1
        have hb : p.txRing.bytes c.n = [] := by
          rcases List.take_eq_nil_iff.1 ht with h1 | h1
          · simp [hp0] at h1
            omega
          · exact h1
        rw [hbytes, hb, List.drop_nil]
      have := congrArg List.length hz
      simp at this
      have := (Ring.isEmpty_iff hok'.tx.inLt hok'.tx.outLt).2 this
      simp [this] at hne
    have hph : ∀ r, q.send = some r → r.phase = .sWait ∨ r.phase = .sRemask := fun r hr => by
      rw [hs] at hr
      rw [hm, Port.txClaim, hr] at hclaim
      cases hp : r.phase <;> simp [hp] at hclaim ⊢
    exact .inl {
      unmasked := fun _ => hq'
      sending := fun r hr h1 => by rcases hph r hr with h | h <;> simp [h] at h1
      exiting := fun r hr h1 => by rcases hph r hr with h | h <;> simp [h] at h1
      waiting := fun r hr => hf.waiting r (hs ▸ hr) }
  | stage q bs n hcan e =>
    obtain ⟨m, rfl⟩ := stage_form e
    have hn : p.send = none := by
      simp [Port.canStage] at hcan
      exact hcan.2
    have hm : p.maskTx = false := by rw [hclaim, Port.txClaim, hn]
    refine .inl ⟨nofun, fun r hr _ hw => ?_, fun r hr hph => ?_, fun r hr hph => ?_⟩ <;> cases hr
    · exact hf.unmasked hm hw
    · cases hph
    · rcases hph with hph | hph <;> cases hph
  | sLoop q r hr hph e =>
    rcases Port.sLoop_spec hc hok hr hph with ⟨_, e', _⟩ | ⟨hi, hfull, e', _⟩ | ⟨_, _, b, ring, _, e', _, _, _⟩ <;>
      rw [e] at e' <;> cases e'
    · refine .inl ⟨hf.unmasked, fun r' hr' _ hw => ?_, fun r' hr' h1 => ?_, fun r' hr' h1 => ?_⟩ <;> cases hr'
      · exact hf.sending r hr (.inl hph) hw
      · cases h1
      · rcases h1 with h1 | h1 <;> cases h1
    · by_cases hb : p.busy
      · refine .inl ⟨fun _ _ => hb, fun _ _ _ _ => hb, fun _ _ _ _ => hb, fun r' hr' _ => ?_⟩
        cases hr'
        exact hi
      · exact .inr ⟨(Port.not_busy hb).1, (Port.not_busy hb).2, _, rfl, hi, .inl ⟨rfl, hfull⟩⟩
    · have hm : p.maskTx = true := by rw [hclaim, Port.txClaim, hr]; simp [hph]
      refine .inl ⟨fun h1 => ?_, fun r' hr' _ hw => ?_, fun r' hr' h1 => ?_, fun r' hr' h1 => ?_⟩
      · exact absurd (hm.symm.trans h1) nofun
      · cases hr'
        exact hf.sending r hr (.inl hph) hw
      · cases hr'
        simp [hph] at h1
      · cases hr'
        simp [hph] at h1
  | sWait r hr hph =>
    refine .inl ⟨hf.unmasked, fun r' hr' h1 => ?_, fun r' hr' h1 => ?_, fun r' hr' _ => ?_⟩ <;> cases hr'
    · rcases h1 with h1 | h1 <;> cases h1
    · cases h1
    · exact hf.waiting r hr (.inl hph)
  | sRemask r hr hph =>
    have hm : p.maskTx = false := by rw [hclaim, Port.txClaim, hr]; simp [hph]
    by_cases hl : r.wasEmpty = false ∧ ¬ p.busy
    · have he : p.txRing.isEmpty = true := by
        by_contra h1
        exact hl.2 (hf.unmasked hm (by simpa using h1))
      exact .inr ⟨(Port.not_busy hl.2).1, (Port.not_busy hl.2).2, _, rfl, hf.waiting r hr (.inr hph), .inr ⟨rfl, hl.1, he⟩⟩
    · refine .inl ⟨nofun, fun r' hr' _ hw => ?_, fun r' hr' h1 => ?_, fun r' hr' h1 => ?_⟩ <;> cases hr'
      · by_contra hb
        exact hl ⟨hw, hb⟩
      · cases h1
      · rcases h1 with h1 | h1 <;> cases h1
  | sKick q r hr hph e =>
    obtain ⟨ring, hw, e', hok', hstream, _, hlen⟩ := Port.sKick_spec hok hr hph
    rw [e] at e'
    cases e'
    have hm : p.maskTx = true := by rw [hclaim, Port.txClaim, hr]; simp [hph]
    refine .inl ⟨fun h1 => absurd (hm.symm.trans h1) nofun, fun r' hr' h1 => ?_, fun r' hr' _ hne => ?_, fun r' hr' h1 => ?_⟩ <;>
      cases hr'
    · rcases h1 with h1 | h1 <;> cases h1
    · by_cases hwe : r.wasEmpty = false
      · rcases hf.sending r hr (.inr hph) hwe with hb | hb
        · left
          intro h0
          have h0' : hw = [] := h0
          rw [h0'] at hlen
          exact hb (List.eq_nil_of_length_eq_zero (by simp at hlen; omega))
        · exact .inr hb
      · left
        intro h0
        have h0' : hw = [] := h0
        subst h0'
        have hp0 : p.txHw = [] := List.eq_nil_of_length_eq_zero (by simp at hlen; omega)
        have hne' : p.txRing.isEmpty = true := by
          by_contra h1
          simp [hp0, Port.txCanAccept, hwe, h1] at hlen
          have := hc.2.2.1
          omega
        have hz := (Ring.isEmpty_iff hok.tx.inLt hok.tx.outLt).1 hne'
        have := congrArg List.length hstream
        simp [hp0, hz] at this
        have := (Ring.isEmpty_iff hok'.tx.inLt hok'.tx.outLt).2 this
        exact absurd (this.symm.trans hne) nofun
    · rcases h1 with h1 | h1 <;> cases h1
  | sExit r hr hph =>
    exact .inl ⟨fun _ he => hf.exiting r hr hph he, nofun, nofun, nofun⟩
  | ring q ho h m e =>
    obtain ⟨_, _, _, rfl⟩ := rxToRing_form _ e
    exact .inl (hf.congr rfl rfl rfl rfl rfl)
  | mailbox =>
    rw [Port.rxToMailbox_spec]
    exact .inl (hf.congr rfl rfl rfl rfl rfl)
  | fsm q b e =>
    obtain ⟨_, _, _, _, rfl⟩ := fsm_form e
    exact .inl (hf.congr rfl rfl rfl rfl rfl)
  | rTake q ho h e =>
    obtain ⟨_, _, _, _, _, rfl⟩ := rTake_form e
    exact .inl (hf.congr rfl rfl rfl rfl rfl)
  | _ => exact .inl (hf.congr rfl rfl rfl rfl rfl)

/-- Every step of a stalled transport leaves it stalled and sends nothing (R284; log 28). -/
theorem portStep_stalled {c d x st t o p q} (hc : c.wf) (hok : p.Ok c) (hs : p.Stalled c)
    (h : PortStep c d x st t o p q) : q.Stalled c ∧ q.txLine = p.txLine := by
  obtain ⟨hidle, hno, hstuck⟩ := hs
  have hsend : ∀ r, p.send = some r → (r.wasEmpty = false ∧ p.txRing.isEmpty = false) ∨
      (r.i < r.n ∧ r.phase ≠ .sKick ∧ r.phase ≠ .sExit ∧ (r.wasEmpty = false ∨ p.txRing.isFull c.n = true)) := by
    intro r hr
    rcases hstuck with ⟨hn, _⟩ | ⟨r', hr', h'⟩
    · rw [hr] at hn
      cases hn
    · rw [hr] at hr'
      cases hr'
      exact h'
  have hs : p.Stalled c := ⟨hidle, hno, hstuck⟩
  cases h with
  | same => exact ⟨hs, rfl⟩
  | uartTx b rest ho hb => rw [hidle] at hb; cases hb
  | irqTx q ho he e => simp [Port.irqTxEnabled, hno] at he
  | stage q bs n hcan e =>
    obtain ⟨m, rfl⟩ := stage_form e
    have hn : p.send = none := by
      simp [Port.canStage] at hcan
      exact hcan.2
    rcases hstuck with ⟨_, hne⟩ | ⟨r, hr, _⟩
    · exact ⟨⟨hidle, hno, .inr ⟨_, rfl, .inl ⟨hne, hne⟩⟩⟩, rfl⟩
    · rw [hn] at hr
      cases hr
  | sLoop q r hr hph e =>
    rcases Port.sLoop_spec hc hok hr hph with ⟨hi, e', _⟩ | ⟨hi, hfull, e', _⟩ | ⟨hi, hnf, b, ring, _, e', hok', hby, _⟩ <;>
      rw [e] at e' <;> cases e' <;> rcases hsend r hr with ⟨hw, hne⟩ | ⟨hlt, _, _, hx⟩
    · exact ⟨⟨hidle, hno, .inr ⟨_, rfl, .inl ⟨hw, hne⟩⟩⟩, rfl⟩
    · omega
    · exact ⟨⟨hidle, hno, .inr ⟨_, rfl, .inl ⟨hw, hne⟩⟩⟩, rfl⟩
    · exact ⟨⟨hidle, hno, .inr ⟨_, rfl, .inr ⟨hlt, nofun, nofun, hx⟩⟩⟩, rfl⟩
    · exact ⟨⟨hidle, hno, .inr ⟨_, rfl, .inl ⟨hw, Ring.nonempty_of_append hok'.tx hby⟩⟩⟩, rfl⟩
    · rcases hx with hw | hx
      · exact ⟨⟨hidle, hno, .inr ⟨_, rfl, .inl ⟨hw, Ring.nonempty_of_append hok'.tx hby⟩⟩⟩, rfl⟩
      · rw [hnf] at hx
        cases hx
  | sWait r hr hph =>
    rcases hsend r hr with h' | ⟨hlt, _, _, hx⟩
    · exact ⟨⟨hidle, hno, .inr ⟨_, rfl, .inl h'⟩⟩, rfl⟩
    · exact ⟨⟨hidle, hno, .inr ⟨_, rfl, .inr ⟨hlt, nofun, nofun, hx⟩⟩⟩, rfl⟩
  | sRemask r hr hph =>
    rcases hsend r hr with h' | ⟨hlt, _, _, hx⟩
    · exact ⟨⟨hidle, hno, .inr ⟨_, rfl, .inl h'⟩⟩, rfl⟩
    · exact ⟨⟨hidle, hno, .inr ⟨_, rfl, .inr ⟨hlt, nofun, nofun, hx⟩⟩⟩, rfl⟩
  | sKick q r hr hph e =>
    rcases hsend r hr with ⟨hw, hne⟩ | ⟨_, h', _⟩
    · unfold Port.sKick at e
      split at e
      · cases e
      · rw [hw] at e
        cases e
        exact ⟨⟨hidle, hno, .inr ⟨_, rfl, .inl ⟨rfl, hne⟩⟩⟩, rfl⟩
    · exact absurd hph h'
  | sExit r hr hph =>
    rcases hsend r hr with ⟨_, hne⟩ | ⟨_, _, h', _⟩
    · exact ⟨⟨hidle, hno, .inl ⟨rfl, hne⟩⟩, rfl⟩
    · exact absurd hph h'
  | ring q ho h m e =>
    obtain ⟨_, _, _, rfl⟩ := rxToRing_form _ e
    exact ⟨hs.congr rfl rfl rfl rfl, rfl⟩
  | mailbox =>
    rw [Port.rxToMailbox_spec]
    exact ⟨hs.congr rfl rfl rfl rfl, rfl⟩
  | fsm q b e =>
    obtain ⟨_, _, _, _, rfl⟩ := fsm_form e
    exact ⟨hs.congr rfl rfl rfl rfl, rfl⟩
  | rTake q ho h e =>
    obtain ⟨_, _, _, _, _, rfl⟩ := rTake_form e
    exact ⟨hs.congr rfl rfl rfl rfl, rfl⟩
  | _ => exact ⟨hs.congr rfl rfl rfl rfl, rfl⟩

/-- The oldest byte of the transmit register leaves only by UART_TX, which puts it on the line (spec/41_uart.md R164); every other
step leaves it there and sends nothing. -/
theorem portStep_oldest {c d x st t o p q} {b : Byte} {rest : List Byte} (hb : p.txHw = b :: rest)
    (h : PortStep c d x st t o p q) :
    (o = some (.uartTx t) ∧ q.txLine = p.txLine ++ [(b, d)]) ∨ (q.txLine = p.txLine ∧ ∃ rest', q.txHw = b :: rest') := by
  cases h with
  | uartTx b' rest' ho hw =>
    rw [hb] at hw
    cases hw
    exact .inl ⟨ho, rfl⟩
  | irqTx q ho h e =>
    obtain ⟨_, w, _, rfl⟩ := irqTxBody_form e
    exact .inr ⟨rfl, rest ++ w, by simp [hb]⟩
  | mailbox =>
    rw [Port.rxToMailbox_spec]
    exact .inr ⟨rfl, _, hb⟩
  | ring q ho h m e =>
    obtain ⟨_, _, _, rfl⟩ := rxToRing_form _ e
    exact .inr ⟨rfl, _, hb⟩
  | stage q bs n h e =>
    obtain ⟨_, rfl⟩ := stage_form e
    exact .inr ⟨rfl, _, hb⟩
  | sLoop q r h ph e =>
    obtain ⟨_, _, _, rfl⟩ := sLoop_form e
    exact .inr ⟨rfl, _, hb⟩
  | sKick q r h ph e =>
    obtain ⟨_, w, rfl⟩ := sKick_form e
    exact .inr ⟨rfl, rest ++ w, by simp [hb]⟩
  | fsm q b e =>
    obtain ⟨_, _, _, _, rfl⟩ := fsm_form e
    exact .inr ⟨rfl, _, hb⟩
  | rTake q ho h e =>
    obtain ⟨_, _, _, _, _, rfl⟩ := rTake_form e
    exact .inr ⟨rfl, _, hb⟩
  | _ => exact .inr ⟨rfl, _, hb⟩

end Sys2Proof.Machine
end

