-- ==== Sys2Proof/Tests/Slice0.lean ====
section
/-!
SUPPORT. Sys2Proof/Tests/Slice0.lean: the tests of the model. Expected results are those of spec/95_test_vectors.md (V<n>) or are
written out by hand from the rule a test names. Three parts: an ill-formed term for each check of WellFormed, words and frames
written out from the encoding, one step of each operation. A last part shows, for each obligation with hypotheses, a
state and operands that meet them (`witness_<obligation>`).
-/

namespace Sys2Proof.Tests

open Sys2Proof.Machine

/-! ### A small state -/

/-- Parameters with rings of four slots and no open value. -/
def tParams : Params where
  n := 4
  rxMode := .ring
  rxn := 4
  txHwDepth := 1
  rxHwDepth := 1
  numRelays := 9
  filterNet := true
  filter485 := true
  filter232_1 := true
  filter232_2 := true
  defaultId := 1#8
  defaultBaud485 := ⟨9600, by decide⟩
  defaultBaud232 := ⟨19200, by decide⟩
  fRef := ⟨1843200, by decide⟩
  oversample := ⟨16, by decide⟩
  parity := .none
  stopBits := .one
  tGuard := 0
  tIdle := 0
  peerAddr := 0
  netPort := 0

/-- A transport as reset leaves it. -/
def tPort : Port where
  txRing := Ring.reset
  rxRing := Ring.reset
  stage := []
  rxBuf := []
  mbox := 0#8
  txHw := []
  rxHw := []
  fsm := .waitSync
  pos := 0
  total := 255
  send := none
  threPend := false
  maskTx := false
  maskRx := false
  hwOverrun := false
  rxOverrun := false
  room := 0
  ready := 0
  txLock := .free
  baudDiv := 1
  txLine := []

/-- A started block at rest, `LOCAL_ID` = 1. -/
def tState : State where
  params := tParams
  boot := .running
  cfgIn := { deviceID := none, baud485 := none, baud232 := none }
  port485 := tPort
  port232_1 := tPort
  port232_2 := tPort
  localId := 1#8
  baud485 := ⟨9600, by decide⟩
  baud232 := ⟨19200, by decide⟩
  de := .read
  relays := Vector.replicate 9 0#8
  ctl485 := .read .wait
  ctl232_1 := .read .wait
  ctl232_2 := .read .wait
  ctlNet := .recv
  ctlGpio := .recv
  netOut := []
  irLog := []
  deLog := []
  cur := .listener .net
  ret := .nothing
  sched := []
  tick := 0

/-- The small state with another RS485 transport. -/
def tWith (p : Port) : State := tState.setPort .rs485 p

/-- The small state with the listener of RS485 at another program point. -/
def tAt (p : Port) (x : Ctl) : State := (tWith p).setCtl (.listener (.serial .rs485)) x

/-- The small state with the network listener, whose step it is, at another program point. -/
def tNet (p : Port) (x : Ctl) : State := (tWith p).setCtl (.listener .net) x

/-- The small state with other parameters. -/
def tSet (f : Params → Params) (s : State) : State := { s with params := f s.params }

/-- A field of the next state, if there is one. -/
def after {α : Type} (f : State → α) : Out → Option α
  | .next s => some (f s)
  | .fault _ => none
  | .refused _ => none

/-- The fault, if the step ends in one. -/
def faultOf : Out → Option Fault
  | .next _ => none
  | .fault f => some f
  | .refused _ => none

/-- The refusal, if the step ends in one. -/
def refusalOf : Out → Option Refusal
  | .next _ => none
  | .fault _ => none
  | .refused r => some r

/-- A ring with the given slots from index 0 on. -/
def tRing (bs : List Byte) (i o : Nat) : Sys2Proof.Machine.Ring where
  slots := bs.zipIdx.map (fun x => (x.2, x.1))
  inIdx := i
  outIdx := o

/-- A send record. -/
def tSend (n i : Nat) (e : Bool) (ph : SendPhase) : SendRec := { n := n, i := i, wasEmpty := e, phase := ph }

/-- The relay-write frame of E4 and its status frame. -/
def relayFrame : List Byte := [62#8, 1#8, 87#8, 21#8, 1#8, 1#8, 173#8]

/-- The status frame of E4. -/
def statusOne : List Byte := [62#8, 1#8, 83#8, 21#8, 1#8, 1#8, 169#8]

/-- The parsed frame of E4. -/
def relayParsed : ParsedFrame := { deviceID := 1#8, dataType := 87#8, channel := 21#8, length := 1#8, payload := [1#8] }

/-- 250 zero bytes: one too many for a payload (R96). -/
def tooLong : List Byte := List.replicate 250 0#8

/-! ### An ill-formed term for each check -/

theorem test_wf_payload : (Instr.wSys 1#8 1#8 tooLong).wellFormed = false ∧ (Instr.wGpio 1#8 11#8 tooLong).wellFormed = false ∧
    (Instr.wRelay 1#8 21#8 tooLong).wellFormed = false ∧ (Instr.wRs232 1#8 31#8 tooLong).wellFormed = false ∧
    (Instr.wIr 1#8 41#8 tooLong).wellFormed = false ∧ (Instr.wRs485 1#8 tooLong).wellFormed = false ∧
    (Instr.wIgnore 1#8 0#8 tooLong).wellFormed = false ∧ (Instr.sIgnore 1#8 0#8 tooLong).wellFormed = false ∧
    (Instr.xIgnore 1#8 0#8 0#8 tooLong).wellFormed = false := by decide +kernel

theorem test_wf_channel : (Instr.wSys 1#8 0#8 []).wellFormed = false ∧ (Instr.wSys 1#8 10#8 []).wellFormed = false ∧
    (Instr.wGpio 1#8 10#8 []).wellFormed = false ∧ (Instr.wGpio 1#8 20#8 []).wellFormed = false ∧
    (Instr.wRelay 1#8 20#8 []).wellFormed = false ∧ (Instr.wRelay 1#8 30#8 []).wellFormed = false ∧
    (Instr.wRs232 1#8 30#8 []).wellFormed = false ∧ (Instr.wRs232 1#8 40#8 []).wellFormed = false ∧
    (Instr.wIr 1#8 40#8 []).wellFormed = false ∧ (Instr.wIr 1#8 50#8 []).wellFormed = false ∧
    (Instr.wIgnore 1#8 50#8 []).wellFormed = false ∧ (Instr.wIgnore 1#8 21#8 []).wellFormed = false ∧
    (Instr.sStatus 20#8 1#8).wellFormed = false ∧ (Instr.sStatus 31#8 1#8).wellFormed = false ∧
    (Instr.statusFanout 10#8 1#8).wellFormed = false ∧ (Instr.statusFanout 30#8 1#8).wellFormed = false := by decide

theorem test_wf_dataType : (Instr.xIgnore 1#8 87#8 0#8 []).wellFormed = false ∧
    (Instr.xIgnore 1#8 83#8 0#8 []).wellFormed = false := by decide

theorem test_wf_send : (Instr.sendLine .rs485 statusOne 9).wellFormed = false ∧
    (Instr.sendLine .rs485 [62#8] 1).wellFormed = false ∧
    (Instr.sendLine .rs485 (statusOne ++ [0#8]) 7).wellFormed = false ∧
    (Instr.sendLine .rs485 [62#8, 1#8, 83#8, 21#8, 250#8] 256).wellFormed = false ∧
    (Instr.sendRaw .rs485 tooLong 250).wellFormed = false ∧ (Instr.sendRaw .rs485 [1#8] 0).wellFormed = false ∧
    (Instr.rs485Tx .frame statusOne 9).wellFormed = false ∧ (Instr.rs485Tx .raw [1#8] 2).wellFormed = false := by decide

theorem test_wf_codec : (Instr.checksum relayFrame 4).wellFormed = false ∧ (Instr.checksum relayFrame 8).wellFormed = false ∧
    (Instr.encode 1#8 87#8 21#8 [1#8] 2).wellFormed = false ∧ (Instr.encode 1#8 87#8 21#8 tooLong 250).wellFormed = false ∧
    (Instr.validate relayFrame 6).wellFormed = false ∧ (Instr.validate [62#8] 1).wellFormed = false ∧
    (Instr.netValidate relayFrame 6).wellFormed = false ∧ (Instr.parse [62#8]).wellFormed = false ∧
    (Instr.parse [62#8, 1#8, 87#8, 21#8, 1#8, 1#8]).wellFormed = false := by decide +kernel

theorem test_wf_router : (Instr.filter { relayParsed with length := 2#8 } .net).wellFormed = false ∧
    (Instr.dispatch { relayParsed with payload := [] }).wellFormed = false ∧ (Instr.gpioEvt 0 1#8).wellFormed = false ∧
    (Instr.gpioEvt 10 1#8).wellFormed = false ∧ (Instr.netRecv [1#8] 2).wellFormed = false := by decide

/-- Terms of every row pass the checks. -/
theorem test_wf_accepts : [Instr.wSys 1#8 9#8 [], .wGpio 1#8 19#8 [], .wRelay 1#8 29#8 [1#8], .wRs232 1#8 39#8 [], .wIr 1#8 49#8 [],
    .wRs485 1#8 [], .wIgnore 1#8 255#8 [], .sIgnore 1#8 0#8 [], .xIgnore 1#8 88#8 0#8 [], .sStatus 11#8 1#8,
    .sendLine .rs485 statusOne 7, .sendRaw .rs485 [] 0, .checksum relayFrame 5, .encode 1#8 87#8 21#8 [1#8] 1,
    .validate relayFrame 7, .netValidate [] 0, .parse relayFrame, .filter relayParsed .net, .dispatch relayParsed,
    .rs485Tx .frame statusOne 7, .rs485Tx .raw [] 0, .statusFanout 29#8 1#8, .gpioEvt 9 0#8, .netRecv [] 0].all
      Instr.wellFormed = true := by decide

/-! ### Words and frames written out (spec/30_encoding.md R90 to R104) -/

/-- W.SYS of deviceID 1, channel 5: 00111110 00000001 01010111 00000101. -/
theorem test_word_wSys : decodeTableWord 32 0b00111110000000010101011100000101 = some (.wSys 1#8 5#8 []) := by decide

/-- W.GPIO, channel 11: 00001011. -/
theorem test_word_wGpio : decodeTableWord 32 0b00111110000000010101011100001011 = some (.wGpio 1#8 11#8 []) := by decide

/-- W.RELAY, channel 21: 00010101. -/
theorem test_word_wRelay : decodeTableWord 32 0b00111110000000010101011100010101 = some (.wRelay 1#8 21#8 []) := by decide

/-- W.RS232, channel 31: 00011111. -/
theorem test_word_wRs232 : decodeTableWord 32 0b00111110000000010101011100011111 = some (.wRs232 1#8 31#8 []) := by decide

/-- W.IR, channel 42: 00101010. -/
theorem test_word_wIr : decodeTableWord 32 0b00111110000000010101011100101010 = some (.wIr 1#8 42#8 []) := by decide

/-- W.RS485, channel 50: 00110010, deviceID 255. -/
theorem test_word_wRs485 : decodeTableWord 32 0b00111110111111110101011100110010 = some (.wRs485 255#8 []) := by decide

/-- W.IGNORE, channel 60: 00111100. -/
theorem test_word_wIgnore : decodeTableWord 32 0b00111110000000010101011100111100 = some (.wIgnore 1#8 60#8 []) := by decide

/-- S.IGNORE: dataType 83, 01010011. An emitted S.STATUS frame is received as this row. -/
theorem test_word_sIgnore : decodeTableWord 32 0b00111110000000010101001100010101 = some (.sIgnore 1#8 21#8 []) := by decide

/-- X.IGNORE: dataType 88, 01011000. -/
theorem test_word_xIgnore : decodeTableWord 32 0b00111110000000010101100000010101 = some (.xIgnore 1#8 88#8 21#8 []) := by
  decide

/-- Log 4: a word above 32 bits, whose low bits head a frame, stands for no bytes, and N_DECIDE drops it. -/
theorem test_word_refused_dropped : after State.ctlNet (step (tState.withFetchWord 32 0x13E015715)) = some .idle := by decide

/-- Byte 0 must be 62; a table word has 32 bits. -/
theorem test_word_refused : decodeTableWord 32 0b00111111000000010101011100010101 = none ∧
    decodeTableWord 16 0b0101011100010101 = none ∧ decodeTableWord 32 (4294967296 + 0x3E015715) = none := by decide

/-- V73, V74, E4, E5, V77, V75, V89 and the bytes after a frame. -/
theorem test_decode_frames :
    decode [62#8, 1#8, 87#8, 5#8, 1#8, 9#8, 165#8] = .ok (.wSys 1#8 5#8 [9#8], []) ∧
    decode [62#8, 1#8, 87#8, 11#8, 1#8, 1#8, 163#8] = .ok (.wGpio 1#8 11#8 [1#8], []) ∧
    decode (relayFrame ++ [9#8, 9#8]) = .ok (.wRelay 1#8 21#8 [1#8], [9#8, 9#8]) ∧
    decode [62#8, 1#8, 87#8, 31#8, 3#8, 65#8, 66#8, 67#8, 126#8] = .ok (.wRs232 1#8 31#8 [65#8, 66#8, 67#8], []) ∧
    decode [62#8, 1#8, 87#8, 42#8, 1#8, 7#8, 200#8] = .ok (.wIr 1#8 42#8 [7#8], []) ∧
    decode [62#8, 1#8, 87#8, 50#8, 2#8, 72#8, 73#8, 91#8] = .ok (.wRs485 1#8 [72#8, 73#8], []) ∧
    decode [62#8, 1#8, 87#8, 60#8, 0#8, 210#8] = .ok (.wIgnore 1#8 60#8 [], []) := by decide

/-- V71, V72, and each refusal: V65, V64, V66, V62, E6. -/
theorem test_decode_others : decode statusOne = .ok (.sIgnore 1#8 21#8 [1#8], []) ∧
    decode [62#8, 1#8, 88#8, 21#8, 1#8, 1#8, 174#8] = .ok (.xIgnore 1#8 88#8 21#8 [1#8], []) ∧
    decode [] = .error .tooShort ∧ decode [63#8, 1#8, 87#8, 21#8, 1#8, 1#8, 174#8] = .error .badSof ∧
    decode (62#8 :: 1#8 :: 87#8 :: 21#8 :: 250#8 :: List.replicate 251 0#8) = .error .overLong ∧
    decode [62#8, 1#8, 87#8, 21#8, 1#8, 1#8] = .error .truncated ∧
    decode [62#8, 1#8, 87#8, 21#8, 1#8, 1#8, 0#8] = .error .badChecksum := by decide

/-- V90: the channel boundaries. -/
theorem test_decode_boundaries :
    [0#8, 1#8, 9#8, 10#8, 11#8, 19#8, 20#8, 21#8, 29#8, 30#8].map
      (fun ch => instrOf { relayParsed with channel := ch }) =
    [.wIgnore 1#8 0#8 [1#8], .wSys 1#8 1#8 [1#8], .wSys 1#8 9#8 [1#8], .wIgnore 1#8 10#8 [1#8], .wGpio 1#8 11#8 [1#8],
      .wGpio 1#8 19#8 [1#8], .wIgnore 1#8 20#8 [1#8], .wRelay 1#8 21#8 [1#8], .wRelay 1#8 29#8 [1#8],
      .wIgnore 1#8 30#8 [1#8]] ∧
    [31#8, 39#8, 40#8, 41#8, 49#8, 50#8, 51#8, 255#8].map (fun ch => instrOf { relayParsed with channel := ch }) =
    [.wRs232 1#8 31#8 [1#8], .wRs232 1#8 39#8 [1#8], .wIgnore 1#8 40#8 [1#8], .wIr 1#8 41#8 [1#8], .wIr 1#8 49#8 [1#8],
      .wRs485 1#8 [1#8], .wIgnore 1#8 51#8 [1#8], .wIgnore 1#8 255#8 [1#8]] := by decide

/-- V40, V41, V44: the encoder. -/
theorem test_encode_frames : Sys2Proof.encode 1#8 (.wRelay 1#8 21#8 [1#8]) = some relayFrame ∧
    Sys2Proof.encode 1#8 (.sStatus 21#8 1#8) = some statusOne ∧
    Sys2Proof.encode 1#8 (.wRs232 1#8 32#8 [62#8, 62#8]) = some [62#8, 1#8, 87#8, 32#8, 2#8, 62#8, 62#8, 52#8] := by decide

/-! ### One step of each operation -/

/-- V73. -/
theorem test_wSys : after (fun s => (s.ctlNet, s.relays, s.netOut)) (exec (.wSys 1#8 5#8 [9#8]) tState) =
    some (.idle, tState.relays, []) := by decide

/-- V74. -/
theorem test_wGpio : after (fun s => (s.ctlNet, s.relays, s.netOut)) (exec (.wGpio 1#8 11#8 [1#8]) tState) =
    some (.idle, tState.relays, []) := by decide

/-- V83: relay 9, and the fan-out of channel 29. -/
theorem test_wRelay : after (fun s => (s.relay 9, s.relay 8, s.ctlNet)) (exec (.wRelay 1#8 29#8 [1#8]) tState) =
    some (1#8, 0#8, .act (.fNet 29#8 1#8)) := by decide

/-- V87, V88: no operand, and k > NUM_RELAYS. -/
theorem test_wRelay_ignored : after (fun s => (s.relays, s.ctlNet)) (exec (.wRelay 1#8 21#8 []) tState) =
      some (tState.relays, .idle) ∧
    after (fun s => (s.relays, s.ctlNet))
      (exec (.wRelay 1#8 25#8 [1#8]) (tSet (fun c => { c with numRelays := 4 }) tState)) =
      some (tState.relays, .idle) := by decide

/-- V79, V80: the lock of the port the channel names. -/
theorem test_wRs232 : after (fun s => ((s.port .rs232_1).txLock, (s.port .rs232_2).txLock, s.ctlNet))
      (exec (.wRs232 1#8 31#8 [65#8]) tState) =
      some (.held (.listener .net), .free, .act (.fwd .rs232_1 .send [65#8])) ∧
    after (fun s => ((s.port .rs232_1).txLock, (s.port .rs232_2).txLock)) (exec (.wRs232 1#8 32#8 [65#8]) tState) =
      some (.free, .held (.listener .net)) := by decide

/-- V81: channel 33 names no port. -/
theorem test_wRs232_ignored : after (fun s => ((s.port .rs232_1).txLock, s.ctlNet)) (exec (.wRs232 1#8 33#8 [65#8]) tState) =
    some (.free, .idle) := by decide

/-- V77, V78. -/
theorem test_wIr : after (fun s => (s.irLog, s.ctlNet)) (exec (.wIr 1#8 42#8 [7#8]) tState) = some ([(2, 7#8)], .idle) ∧
    after State.irLog (exec (.wIr 1#8 41#8 []) tState) = some [] := by decide

/-- V75, its first step. -/
theorem test_wRs485 : after (fun s => ((s.port .rs485).txLock, s.ctlNet)) (exec (.wRs485 1#8 [72#8, 73#8]) tState) =
    some (.held (.listener .net), .act (.bus .deOn .raw [72#8, 73#8] 2)) := by decide

/-- V89. -/
theorem test_wIgnore : after (fun s => (s.ctlNet, s.relays)) (exec (.wIgnore 1#8 60#8 []) tState) =
    some (.idle, tState.relays) := by decide

/-- V71. -/
theorem test_sIgnore : after (fun s => (s.ctlNet, s.relays)) (exec (.sIgnore 1#8 21#8 [1#8]) tState) =
    some (.idle, tState.relays) := by decide

/-- V72. -/
theorem test_xIgnore : after (fun s => (s.ctlNet, s.relays)) (exec (.xIgnore 1#8 88#8 21#8 [1#8]) tState) =
    some (.idle, tState.relays) := by decide

/-- V91, V92. -/
theorem test_sStatus : after State.ret (exec (.sStatus 21#8 1#8) tState) = some (.frame statusOne) ∧
    after State.ret (exec (.sStatus 21#8 1#8) { tState with localId := 7#8 }) =
      some (.frame [62#8, 7#8, 83#8, 21#8, 1#8, 1#8, 175#8]) := by decide

/-- V11. -/
theorem test_sendLine : after (fun s => ((s.port .rs485).send, (s.port .rs485).maskTx, (s.port .rs485).stage.lookup 6,
      (s.port .rs485).stage.lookup 7)) (exec (.sendLine .rs485 statusOne 7) (tWith { tPort with txLock := .held .gpio })) =
    some (some (tSend 7 0 true .sLoop), true, some 169#8, none) := by decide

/-- V18. -/
theorem test_sendLine_mismatch : faultOf (exec (.sendLine .rs485 statusOne 9) (tWith { tPort with txLock := .held .gpio })) =
    some .sendLengthMismatch := by decide

/-- V15 (S_STAGE), V17. -/
theorem test_sendRaw : after (fun s => (s.port .rs485).send) (exec (.sendRaw .rs485 [7#8] 1)
      (tWith { tPort with txLock := .held .gpio, txRing := tRing [5#8, 6#8] 2 0 })) = some (some (tSend 1 0 false .sLoop)) ∧
    after (fun s => (s.port .rs485).send) (exec (.sendRaw .rs485 [] 0) (tWith { tPort with txLock := .held .gpio })) =
      some (some (tSend 0 0 true .sLoop)) := by decide

/-- P2, step 10: the index wraps. -/
theorem test_sendSLoop : after (fun s => ((s.port .rs485).txRing.inIdx, (s.port .rs485).txRing.slots.lookup 3,
      (s.port .rs485).send)) (exec (.sendSLoop .rs485) (tWith { tPort with
        maskTx := true
        txRing := tRing [65#8, 66#8, 67#8] 3 1
        stage := (tRing [65#8, 66#8, 67#8, 68#8, 69#8] 0 0).slots
        send := some (tSend 5 3 true .sLoop) })) = some (0, some 68#8, some (tSend 5 4 true .sLoop)) := by decide

/-- V3: a full ring. -/
theorem test_sendSLoop_full : after (fun s => ((s.port .rs485).maskTx, (s.port .rs485).send, (s.port .rs485).txRing.inIdx))
      (exec (.sendSLoop .rs485) (tWith { tPort with
        maskTx := true
        txRing := tRing [10#8, 11#8, 12#8] 3 0
        send := some (tSend 5 3 true .sLoop) })) = some (false, some (tSend 5 3 true .sWait), 3) := by decide

/-- V23: the wake-up, and the re-masking. -/
theorem test_sendSWait : after (fun s => ((s.port .rs485).room, (s.port .rs485).maskTx, (s.port .rs485).send))
      (exec (.sendSWait .rs485) (tWith { tPort with room := 1, send := some (tSend 5 3 true .sWait) })) =
      some (0, false, some (tSend 5 3 true .sRemask)) ∧
    after (fun s => ((s.port .rs485).room, (s.port .rs485).maskTx, (s.port .rs485).send))
      (exec (.sendSWait .rs485) (tWith { tPort with room := 1, send := some (tSend 5 3 true .sRemask) })) =
      some (1, true, some (tSend 5 3 true .sLoop)) := by decide

/-- V13, V16: the kick, and no kick while the transmitter is busy. -/
theorem test_sendSKick : after (fun s => ((s.port .rs485).txHw, (s.port .rs485).txRing.outIdx, (s.port .rs485).room))
      (exec (.sendSKick .rs485) (tWith { tPort with
        maskTx := true
        txRing := tRing [62#8, 1#8] 2 0
        send := some (tSend 2 2 true .sKick) })) = some ([62#8], 1, 0) ∧
    after (fun s => ((s.port .rs485).txHw, (s.port .rs485).txRing.outIdx)) (exec (.sendSKick .rs485) (tWith { tPort with
        maskTx := true
        txHw := [9#8]
        txRing := tRing [7#8] 1 0
        send := some (tSend 1 1 true .sKick) })) = some ([9#8], 0) := by decide

/-- V14: the send returns to the bracket that called it. -/
theorem test_sendSExit : after (fun s => ((s.port .rs485).maskTx, (s.port .rs485).send, s.ctlNet))
      (exec (.sendSExit .rs485) (tNet { tPort with
        maskTx := true
        txLock := .held (.listener .net)
        send := some (tSend 7 7 true .sExit) } (.act (.bus .send .frame statusOne 7)))) =
    some (false, none, .act (.bus .post .frame statusOne 7)) := by decide

/-- R126, R127 at N = 256 (log 28): S_KICK with was_empty = 0 does not kick an idle transmitter, and S_EXIT then leaves MASK_TX 0, TX
non-empty, TXHW empty and THRE_PEND 0, against the invariant R130 derives. -/
theorem test_kick_lost : after (fun s => ((s.port .rs485).txHw, (s.port .rs485).txRing.inIdx, (s.port .rs485).txRing.outIdx))
      (exec (.sendSKick .rs485) (tSet (fun c => { c with n := 256 }) (tWith { tPort with
        maskTx := true, txRing := tRing [7#8] 1 0, send := some (tSend 1 1 false .sKick) }))) = some ([], 1, 0) ∧
    after (fun s => ((s.port .rs485).maskTx, (s.port .rs485).txHw, (s.port .rs485).threPend, (s.port .rs485).txRing.isEmpty))
      (exec (.sendSExit .rs485) (tSet (fun c => { c with n := 256 }) (tWith { tPort with
        maskTx := true, txRing := tRing [7#8] 1 0, send := some (tSend 1 1 false .sExit) }))) =
      some (false, [], false, false) := by decide

/-- V22: TXHW_DEPTH = 4 (RING of eight slots). -/
theorem test_irqTx : after (fun s => ((s.port .rs485).txHw, (s.port .rs485).txRing.outIdx, (s.port .rs485).room,
      (s.port .rs485).threPend)) (exec (.irqTx .rs485) (tSet (fun c => { c with txHwDepth := 4, n := 8 }) (tWith { tPort with
        threPend := true
        txRing := tRing [1#8, 2#8, 3#8, 4#8, 5#8, 6#8] 6 0 }))) = some ([1#8, 2#8, 3#8, 4#8], 4, 1, false) := by decide

/-- V20 and V21: a stale release, and none while the ring stays full. -/
theorem test_irqTx_release : after (fun s => ((s.port .rs485).txHw, (s.port .rs485).room)) (exec (.irqTx .rs485) (tWith { tPort with
        threPend := true
        room := 2 })) = some ([], 3) ∧
    after (fun s => ((s.port .rs485).txHw, (s.port .rs485).room, (s.port .rs485).threPend)) (exec (.irqTx .rs485)
      (tWith { tPort with
        threPend := true
        txHw := [9#8]
        txRing := tRing [1#8, 2#8, 3#8] 3 0 })) = some ([9#8], 0, false) := by decide

/-- V33, V34. -/
theorem test_irqRxMailbox : after (fun s => ((s.port .rs485).mbox, (s.port .rs485).ready, (s.port .rs485).rxHw))
      (exec (.irqRxMailbox .rs485) (tSet (fun c => { c with rxMode := .mailbox }) (tWith { tPort with
        mbox := 62#8
        ready := 1
        rxHw := [1#8] }))) = some (1#8, 2, []) := by decide

/-- V30. -/
theorem test_irqRxRing : after (fun s => ((s.port .rs485).rxRing, (s.port .rs485).ready, (s.port .rs485).rxHw))
      (exec (.irqRxRing .rs485) (tWith { tPort with rxHw := [62#8] })) = some (tRing [62#8] 1 0, 1, []) := by decide

/-- V31. -/
theorem test_irqRxRing_full : after (fun s => ((s.port .rs485).rxRing, (s.port .rs485).ready, (s.port .rs485).rxOverrun))
      (exec (.irqRxRing .rs485) (tWith { tPort with
        rxHw := [9#8]
        ready := 3
        rxRing := tRing [1#8, 2#8, 3#8] 3 0 })) = some (tRing [1#8, 2#8, 3#8] 3 0, 3, true) := by decide

/-- V32, R_TAKE. -/
theorem test_readLine_take : after (fun s => ((s.port .rs485).rxRing.outIdx, (s.port .rs485).rxBuf.lookup 0, (s.port .rs485).pos,
      (s.port .rs485).fsm, s.ctl485)) (exec (.readLine .rs485) (tAt { tPort with
        maskRx := true
        rxRing := tRing [62#8] 1 0 } (.read .take))) = some (1, some 62#8, 1, .accumulate, .read .unmask) := by decide

/-- V36, R_ENTER. -/
theorem test_readLine_enter : after (fun s => ((s.port .rs485).maskRx, (s.port .rs485).fsm, (s.port .rs485).pos,
      (s.port .rs485).total)) (exec (.readLine .rs485) (tAt { tPort with fsm := .done, pos := 7, total := 7 }
        (.read .enter))) = some (true, .waitSync, 0, 255) := by decide

/-- V24, V25. -/
theorem test_uartTx : after (fun s => ((s.port .rs485).txLine, (s.port .rs485).txHw, (s.port .rs485).threPend))
      (exec (.uartTx .rs485) { tWith { tPort with txHw := [62#8] } with de := .write }) =
      some ([(62#8, .write)], [], true) ∧
    after (fun s => ((s.port .rs485).txLine, (s.port .rs485).txHw, (s.port .rs485).threPend))
      (exec (.uartTx .rs485) (tWith { tPort with txHw := [1#8, 2#8] })) = some ([(1#8, .read)], [2#8], false) := by decide

/-- V27, V28. -/
theorem test_lineIn : after (fun s => ((s.port .rs485).rxHw, (s.port .rs485).hwOverrun)) (exec (.lineIn .rs485 62#8) tState) =
      some ([62#8], false) ∧
    after (fun s => ((s.port .rs485).rxHw, (s.port .rs485).hwOverrun)) (exec (.lineIn .rs485 1#8)
      (tWith { tPort with rxHw := [62#8] })) = some ([62#8], true) := by decide

/-- V29: 9600 baud on RS485, 19200 baud on RS-232. -/
theorem test_baudLoad : after (fun s => (s.port .rs485).baudDiv) (exec (.baudLoad .rs485) { tState with boot := .baudLoad .rs485 }) =
      some 12 ∧
    after (fun s => (s.port .rs232_2).baudDiv) (exec (.baudLoad .rs232_2) { tState with boot := .baudLoad .rs232_2 }) =
      some 6 := by decide

/-- R243: ConfigAfterStart. -/
theorem test_baudLoad_running : faultOf (exec (.baudLoad .rs485) tState) = some .configAfterStart := by decide

/-- V37, V38. -/
theorem test_checksum : after State.ret (exec (.checksum relayFrame 6) tState) = some (.byte 173#8) ∧
    after State.ret (exec (.checksum [62#8, 1#8, 87#8, 31#8, 3#8, 65#8, 66#8, 67#8] 8) tState) =
      some (.byte 126#8) := by decide

/-- V40, V42: the longest frame ends in 164. -/
theorem test_encode : after State.ret (exec (.encode 1#8 87#8 21#8 [1#8] 1) tState) = some (.frame relayFrame) ∧
    after State.ret (exec (.encode 1#8 87#8 21#8 (List.replicate 249 0#8) 249) tState) =
      some (.frame ([62#8, 1#8, 87#8, 21#8, 249#8] ++ List.replicate 249 0#8 ++ [164#8])) := by decide +kernel

/-- V51: 63 is no start, 62 is. -/
theorem test_fsmStepWaitSync : after (fun s => ((s.port .rs485).fsm, (s.port .rs485).pos)) (exec (.fsmStepWaitSync .rs485 63#8) tState) =
      some (.waitSync, 0) ∧
    after (fun s => ((s.port .rs485).fsm, (s.port .rs485).pos, (s.port .rs485).total))
      (exec (.fsmStepWaitSync .rs485 62#8) tState) = some (.accumulate, 1, 255) := by decide

/-- V51 at the length byte, V55 at its length byte 250. -/
theorem test_fsmStepAccumulate : after (fun s => ((s.port .rs485).fsm, (s.port .rs485).pos, (s.port .rs485).total))
      (exec (.fsmStepAccumulate .rs485 1#8) (tWith { tPort with fsm := .accumulate, pos := 4 })) = some (.accumulate, 5, 7) ∧
    after (fun s => ((s.port .rs485).fsm, (s.port .rs485).pos, (s.port .rs485).total))
      (exec (.fsmStepAccumulate .rs485 250#8) (tWith { tPort with fsm := .accumulate, pos := 4 })) =
      some (.accumulate, 5, 255) := by decide

/-- V52: the last byte of a frame without payload. -/
theorem test_fsmStepAccumulate_done : after (fun s => ((s.port .rs485).fsm, (s.port .rs485).pos))
      (exec (.fsmStepAccumulate .rs485 210#8) (tWith { tPort with fsm := .accumulate, pos := 5, total := 6 })) =
      some (.done, 6) := by decide

/-- V57, V58, V45 to V48. -/
theorem test_validate : [relayFrame, [62#8, 1#8, 87#8, 21#8, 1#8, 1#8, 0#8], [62#8, 0#8, 87#8, 21#8, 1#8, 1#8, 173#8],
      [62#8, 1#8, 87#8, 23#8, 1#8, 1#8, 173#8], [62#8, 1#8, 87#8, 21#8, 1#8, 129#8, 173#8],
      [62#8, 1#8, 87#8, 21#8, 1#8, 1#8, 172#8]].map (fun x => after State.ret (exec (.validate x 7) tState)) =
    [some (.verdict true), some (.verdict false), some (.verdict false), some (.verdict false), some (.verdict false),
      some (.verdict false)] := by decide

/-- V60: the candidate of V55. -/
theorem test_validate_overLong : after State.ret (exec (.validate ([62#8, 1#8, 87#8, 21#8, 250#8] ++ tooLong) 255) tState) =
    some (.verdict false) := by decide +kernel

/-- V61 to V65. -/
theorem test_netValidate : [relayFrame, [62#8, 1#8, 87#8, 21#8, 1#8, 1#8], relayFrame ++ [9#8, 9#8],
      [63#8, 1#8, 87#8, 21#8, 1#8, 1#8, 174#8], []].map
      (fun d => after State.ret (exec (.netValidate d d.length) tState)) =
    [some (.verdict true), some (.verdict false), some (.verdict true), some (.verdict false), some (.verdict false)] := by
  decide

/-- V67, V68. -/
theorem test_parse : after State.ret (exec (.parse [62#8, 1#8, 87#8, 31#8, 3#8, 65#8, 66#8, 67#8, 126#8]) tState) =
      some (.parsed { deviceID := 1#8, dataType := 87#8, channel := 31#8, length := 3#8, payload := [65#8, 66#8, 67#8] }) ∧
    after State.ret (exec (.parse [62#8, 1#8, 87#8, 60#8, 0#8, 210#8]) tState) =
      some (.parsed { deviceID := 1#8, dataType := 87#8, channel := 60#8, length := 0#8, payload := [] }) := by decide

/-- Log 15: operands outside the domain of their rule run; the bytes that are there count as the rule says (R180, R186, R189), and
one tick is drawn where a free value is used. -/
theorem test_outside_domain : after State.tick (exec (.checksum [1#8] 4) tState) = some 1 ∧
    after State.tick (exec (.encode 1#8 87#8 21#8 [] 250) tState) = some 1 ∧
    after (fun s => (s.ret, s.tick)) (exec (.validate [62#8, 1#8, 87#8, 21#8, 250#8] 5) tState) = some (.verdict false, 0) ∧
    after State.tick (exec (.parse [62#8, 1#8, 87#8, 21#8, 3#8, 9#8]) tState) = some 1 ∧
    after State.tick (exec (.netRecv [62#8] 2) tState) = some 1 := by decide

/-- V69, V70. -/
theorem test_filter : after State.ret (exec (.filter { relayParsed with deviceID := 2#8 } (.serial .rs485)) tState) =
      some (.passed false) ∧
    after State.ret (exec (.filter { relayParsed with deviceID := 2#8 } (.serial .rs485))
      (tSet (fun c => { c with filter485 := false }) tState)) = some (.passed true) := by decide

/-- E4. -/
theorem test_dispatch : after State.ret (exec (.dispatch relayParsed) tState) = some (.selected (.wRelay 1#8 21#8 [1#8])) := by
  decide

/-- V96: X_DE_ON and X_DE_OFF. -/
theorem test_rs485Tx : after (fun s => (s.de, s.deLog, s.ctlNet)) (exec (.rs485Tx .frame statusOne 7)
      (tNet tPort (.act (.bus .deOn .frame statusOne 7)))) =
      some (.write, [.write], .act (.bus .pre .frame statusOne 7)) ∧
    after (fun s => (s.de, s.deLog, s.ctlNet)) (exec (.rs485Tx .frame statusOne 7)
      { tNet tPort (.act (.bus .deOff .frame statusOne 7)) with de := .write, deLog := [.write] }) =
      some (.read, [.write, .read], .act (.bus .unlock .frame statusOne 7)) := by decide

/-- V97: the second caller waits at X_LOCK. -/
theorem test_rs485Tx_blocked : after (fun s => ((s.port .rs485).txLock, s.ctlNet)) (exec (.rs485Tx .frame statusOne 7)
      (tNet { tPort with txLock := .held .gpio } (.act (.bus .lock .frame statusOne 7)))) =
    some (.held .gpio, .act (.bus .lock .frame statusOne 7)) := by decide

/-- E4: the fan-out of the relay write. -/
theorem test_statusFanout : after (fun s => (s.netOut, s.ctlNet)) (exec (.statusFanout 21#8 1#8) tState) =
    some ([statusOne], .act (.bus .lock .frame statusOne 7)) := by decide

/-- V93, V94. -/
theorem test_gpioEvt : after State.netOut (exec (.gpioEvt 3 1#8) tState) = some [[62#8, 1#8, 83#8, 13#8, 1#8, 1#8, 161#8]] ∧
    after State.netOut (exec (.gpioEvt 1 0#8) tState) = some [[62#8, 1#8, 83#8, 11#8, 1#8, 0#8, 158#8]] := by decide

/-- R217: g = 0 and g = 10 are no events. -/
theorem test_gpioEvt_none : refusalOf (exec (.gpioEvt 0 1#8) tState) = some .noSuchGpioEvent ∧
    refusalOf (exec (.gpioEvt 10 1#8) tState) = some .noSuchGpioEvent := by decide

/-- R219. -/
theorem test_netRecv : after State.ctlNet (exec (.netRecv relayFrame 7) tState) = some (.candidate relayFrame 7) ∧
    after State.ctlNet (exec (.netRecv relayFrame 7) (tNet tPort .idle)) = some .idle := by decide

/-- R240, V96: a step of the chosen task, and a listener held back by an enabled handler. -/
theorem test_step_task : after State.ctlNet (step { tNet tPort (.act (.cmd relayParsed)) with sched := [.task (.listener .net)] }) =
      some (.act (.fNet 21#8 1#8)) ∧
    after State.ctlNet (step { tNet { tPort with rxHw := [1#8] } (.act (.cmd relayParsed)) with
      sched := [.task (.listener .net)] }) = some (.act (.cmd relayParsed)) := by decide

/-- The word of W.RELAY, deviceID 1, channel 21, run as the first operation after reset: without payload it is ignored. -/
theorem test_step_word : after (fun s => (s.boot, s.ctlNet)) (step (State.reset.withFetchWord 32 0x3E015715)) =
    some (.running, .idle) := by decide

/-! ### States that meet the invariant -/

/-- The network listener inside its bracket, at the send of the status frame; `p` is the RS485 transport. -/
def busState (p : Port) (l : List Choice) : State :=
  { tNet p (.act (.bus .send .frame statusOne 7)) with de := .write, deLog := [.write], sched := l }

/-- The block at rest with the RS485 transport `p`. -/
def restState (p : Port) (l : List Choice) : State := { tWith p with sched := l }

/-- The transport of P4: three bytes of the status frame in a full ring of four slots, the sender in S_WAIT. -/
def hungPort : Port :=
  { tPort with
    txRing := tRing [62#8, 1#8, 83#8] 3 0
    stage := (tRing statusOne 0 0).slots
    send := some (tSend 7 3 true .sWait)
    txLock := .held (.listener .net) }

/-- The same send two bytes earlier, in S_LOOP. -/
def loopPort : Port :=
  { tPort with
    txRing := tRing [62#8] 1 0
    stage := (tRing statusOne 0 0).slots
    send := some (tSend 7 1 true .sLoop)
    maskTx := true
    txLock := .held (.listener .net) }

/-- A send that found the ring non-empty, has waited for room, and wakes to an empty ring and an idle transmitter. -/
def wakePort : Port :=
  { tPort with
    stage := (tRing statusOne 0 0).slots
    send := some (tSend 7 3 false .sRemask)
    txLock := .held (.listener .net) }

/-- A run in which the RS485 transmitter is always chosen: it sends its one byte, and from then on has no step. -/
def sendRun : Nat → State
  | 0 => tWith { tPort with txHw := [62#8] }
  | _ + 1 => tWith { tPort with txLine := [(62#8, .read)], threPend := true }

/-- A transport with one byte in the RX ring and one in the receive register. -/
def rxPort : Port := { tPort with rxRing := tRing [62#8] 1 0, rxHw := [1#8], ready := 1 }

/-- A transport whose drain handler is enabled, two bytes in the TX ring. -/
def drainPort : Port := { tPort with txRing := tRing [5#8, 6#8] 2 0, threPend := true }

theorem ringReset_ok : Ring.reset.Ok 4 := ⟨by decide, by decide, fun _ h => absurd h (by simp [Ring.count, Ring.reset])⟩

theorem fsm_ok {p : Port} (h1 : p.fsm = .waitSync) (h2 : p.pos = 0) (h3 : p.total = 255) : p.FsmOk where
  shape := by simp [Port.fsmShape, h1, h2, h3]
  written := fun j hj => by simp [h2] at hj
  lengthByte := fun h => by simp [h2] at h

theorem tPort_ok : tPort.Ok tParams where
  mem := by decide
  tx := ringReset_ok
  rx := ringReset_ok
  txHw := by decide
  rxHw := by decide
  fsm := fsm_ok rfl rfl rfl
  snd := ⟨nofun, nofun⟩
  claim := rfl

theorem hungPort_ok : hungPort.Ok tParams where
  mem := by decide
  tx := ⟨by decide, by decide, fun j (h : j < 3) => by interval_cases j <;> decide⟩
  rx := ringReset_ok
  txHw := by decide
  rxHw := by decide
  fsm := fsm_ok rfl rfl rfl
  snd := ⟨fun r h => (by cases h; decide), fun r j h (hj : j < _) => by
    cases h
    simp only [tSend] at hj
    interval_cases j <;> decide⟩
  claim := rfl

theorem loopPort_ok : loopPort.Ok tParams where
  mem := by decide
  tx := ⟨by decide, by decide, fun j (h : j < 1) => by interval_cases j; decide⟩
  rx := ringReset_ok
  txHw := by decide
  rxHw := by decide
  fsm := fsm_ok rfl rfl rfl
  snd := ⟨fun r h => (by cases h; decide), fun r j h (hj : j < _) => by
    cases h
    simp only [tSend] at hj
    interval_cases j <;> decide⟩
  claim := rfl

theorem rxPort_ok : rxPort.Ok tParams where
  mem := by decide
  tx := ringReset_ok
  rx := ⟨by decide, by decide, fun j (h : j < 1) => by interval_cases j; decide⟩
  txHw := by decide
  rxHw := by decide
  fsm := fsm_ok rfl rfl rfl
  snd := ⟨nofun, nofun⟩
  claim := rfl

theorem drainPort_ok : drainPort.Ok tParams where
  mem := by decide
  tx := ⟨by decide, by decide, fun j (h : j < 2) => by interval_cases j <;> decide⟩
  rx := ringReset_ok
  txHw := by decide
  rxHw := by decide
  fsm := fsm_ok rfl rfl rfl
  snd := ⟨nofun, nofun⟩
  claim := rfl

/-- The invariant of a block at rest. -/
theorem restState_inv {p : Port} (l : List Choice) (hp : p.Ok tParams) (h1 : p.maskRx = false)
    (h2 : p.ready = p.rxRing.count 4) (h3 : p.txLock = .free) (h4 : p.fsm = .waitSync)
    (h5 : p.send = none) : (restState p l).Inv where
  params := (by decide : tParams.wf)
  ports := fun t => by
    cases t
    · exact hp
    · exact tPort_ok
    · exact tPort_ok
  readMask := fun t => by
    cases t
    · exact h1
    · rfl
    · rfl
  ready := fun _ t => by
    cases t
    · exact h2
    · exact (by decide : 0 + 0 = Ring.count 4 Ring.reset)
    · exact (by decide : 0 + 0 = Ring.count 4 Ring.reset)
  reader := fun t ph e hne => by
    cases t
    · cases e
      exact ⟨fun h => absurd (h4.symm.trans h) nofun, nofun⟩
    · cases e
      exact ⟨nofun, nofun⟩
    · cases e
      exact ⟨nofun, nofun⟩
  lock := fun t a => by
    have h : ((restState p l).port t).txLock = .free := by cases t <;> first | exact h3 | rfl
    rw [h]
    rcases a with ⟨_ | ⟨_ | _ | _⟩⟩ | _ <;> cases t <;> exact ⟨nofun, nofun⟩
  sender := fun t hne => by
    cases t
    · exact absurd h5 hne
    · exact absurd rfl hne
    · exact absurd rfl hne
  tasks := fun a => by rcases a with ⟨_ | ⟨_ | _ | _⟩⟩ | _ <;> rfl
  drive := ⟨nofun, fun ⟨a, e⟩ => by rcases a with ⟨_ | ⟨_ | _ | _⟩⟩ | _ <;> cases e⟩
  start := fun h => absurd rfl h

/-- The invariant of a block whose network listener sends a status frame. -/
theorem busState_inv {p : Port} (l : List Choice) (hp : p.Ok tParams) (h1 : p.maskRx = false)
    (h2 : p.ready = p.rxRing.count 4) (h3 : p.txLock = .held (.listener .net)) (h4 : p.fsm = .waitSync) :
    (busState p l).Inv where
  params := (by decide : tParams.wf)
  ports := fun t => by
    cases t
    · exact hp
    · exact tPort_ok
    · exact tPort_ok
  readMask := fun t => by
    cases t
    · exact h1
    · rfl
    · rfl
  ready := fun _ t => by
    cases t
    · exact h2
    · exact (by decide : 0 + 0 = Ring.count 4 Ring.reset)
    · exact (by decide : 0 + 0 = Ring.count 4 Ring.reset)
  reader := fun t ph e hne => by
    cases t
    · cases e
      exact ⟨fun h => absurd (h4.symm.trans h) nofun, nofun⟩
    · cases e
      exact ⟨nofun, nofun⟩
    · cases e
      exact ⟨nofun, nofun⟩
  lock := fun t a => by
    cases t
    · rw [show ((busState p l).port .rs485).txLock = .held (.listener .net) from h3]
      rcases a with ⟨_ | ⟨_ | _ | _⟩⟩ | _ <;> first | exact ⟨fun _ => rfl, fun _ => rfl⟩ | exact ⟨nofun, nofun⟩
    · rcases a with ⟨_ | ⟨_ | _ | _⟩⟩ | _ <;> exact ⟨nofun, nofun⟩
    · rcases a with ⟨_ | ⟨_ | _ | _⟩⟩ | _ <;> exact ⟨nofun, nofun⟩
  sender := fun t hne => by
    cases t
    · exact ⟨.listener .net, rfl⟩
    · exact absurd rfl hne
    · exact absurd rfl hne
  tasks := fun a => by rcases a with ⟨_ | ⟨_ | _ | _⟩⟩ | _ <;> rfl
  drive := ⟨fun _ => ⟨.listener .net, rfl⟩, fun _ => rfl⟩
  start := fun h => absurd rfl h


/-- log 28: the step that wakes that send leads to a stalled transport. -/
theorem test_wake : after (fun s => ((s.port .rs485).send, (s.port .rs485).txRing.isEmpty, (s.port .rs485).txHw,
      (s.port .rs485).threPend)) (step (busState wakePort [.task (.listener .net)])) =
    some (some (tSend 7 3 false .sLoop), true, [], false) := by decide

theorem wakePort_ok : wakePort.Ok tParams where
  mem := by decide
  tx := ringReset_ok
  rx := ringReset_ok
  txHw := by decide
  rxHw := by decide
  fsm := fsm_ok rfl rfl rfl
  snd := ⟨fun r h => (by cases h; decide), fun r j h (hj : j < _) => by
    cases h
    simp only [tSend] at hj
    interval_cases j <;> decide⟩
  claim := rfl

/-! ### Witnesses: a state and operands that meet the hypotheses of each obligation, clause by clause -/

theorem witness_ChecksumIsTheByteSum : 5 ≤ 5 ∧ 5 ≤ [1#8, 2#8, 3#8, 4#8, 5#8].length ∧
    5 ≤ [5#8, 4#8, 3#8, 2#8, 1#8].length ∧
    ([5#8, 4#8, 3#8, 2#8, 1#8].take 5).Perm ([1#8, 2#8, 3#8, 4#8, 5#8].take 5) := by decide

theorem witness_EncodeBuildsTheFrame : (0 ≤ 249 ∧ ([] : List Byte).length = 0) ∧
    (249 ≤ 249 ∧ (List.replicate 249 0#8).length = 249) := by decide +kernel

theorem witness_WaitSyncTakesOnlySof : (tState.port .rs485).fsm = .waitSync ∧ 62#8 = 62#8 ∧ 63#8 ≠ 62#8 := by decide

theorem witness_AccumulateAppends : ((tWith { tPort with fsm := .accumulate, pos := 254 }).port .rs485).fsm = .accumulate ∧
    ((tWith { tPort with fsm := .accumulate, pos := 254 }).port .rs485).pos ≤ 254 := by decide

theorem witness_FrameRoundTrip : (List.replicate 249 0#8).length ≤ 249 ∧ (tState.port .rs485).hunting ∧
    6 < (frameBytes 1#8 87#8 21#8 [1#8]).length := ⟨by decide +kernel, ⟨rfl, rfl, rfl⟩, by decide⟩

theorem witness_SingleBitFlipIsRejected : ([1#8] : List Byte).length ≤ 249 ∧
    (0 < [1#8].length + 6 ∧ 0 ≠ 4 ∧ 0 < 8) ∧ (6 < [1#8].length + 6 ∧ 6 ≠ 4 ∧ 7 < 8) := by decide

/-- The relay frame, the shortest frame, and the candidate of V55. -/
theorem witness_ValidateAcceptsExactly :
    (relayFrame[4]? = some 1#8 ∧ 7 = min ((1#8).toNat + 6) 255 ∧ relayFrame.length = 7) ∧
    (([62#8, 1#8, 87#8, 60#8, 0#8, 210#8] : List Byte)[4]? = some 0#8 ∧ 6 = min ((0#8).toNat + 6) 255) ∧
    (([62#8, 1#8, 87#8, 21#8, 250#8] ++ tooLong)[4]? = some 250#8 ∧ 255 = min ((250#8).toNat + 6) 255 ∧
      ([62#8, 1#8, 87#8, 21#8, 250#8] ++ tooLong).length = 255) := by decide +kernel

theorem witness_NetValidateAcceptsExactly : (relayFrame ++ [9#8])[4]? = some 1#8 ∧
    (1#8).toNat + 6 ≤ (relayFrame ++ [9#8]).length := by decide

theorem witness_ParseReadsTheFields : (relayFrame[4]? = some 1#8 ∧ (1#8).toNat + 6 ≤ relayFrame.length) ∧
    (([62#8, 1#8, 87#8, 60#8, 0#8, 210#8] : List Byte)[4]? = some 0#8 ∧
      (0#8).toNat + 6 ≤ [62#8, 1#8, 87#8, 60#8, 0#8, 210#8].length) := by decide

theorem witness_DecodeOfEncode : ((Instr.wRelay 1#8 21#8 [1#8]).wellFormed = true ∧
      Sys2Proof.encode 1#8 (.wRelay 1#8 21#8 [1#8]) = some relayFrame ∧
      ∀ ch v, Instr.wRelay 1#8 21#8 [1#8] ≠ .sStatus ch v) ∧
    ((Instr.sStatus 21#8 1#8).wellFormed = true ∧ Sys2Proof.encode 1#8 (.sStatus 21#8 1#8) = some statusOne) :=
  ⟨⟨by decide, by decide, nofun⟩, by decide, by decide⟩

/-- The bounds of each channel list, and a word whose byte 0 is 63. -/
theorem witness_HeaderWordSelectsOneRow : (1 ≤ (1#8 : Byte).toNat ∧ (9#8 : Byte).toNat ≤ 9) ∧
    (11 ≤ (11#8 : Byte).toNat ∧ (19#8 : Byte).toNat ≤ 19) ∧ (21 ≤ (21#8 : Byte).toNat ∧ (29#8 : Byte).toNat ≤ 29) ∧
    (31 ≤ (31#8 : Byte).toNat ∧ (39#8 : Byte).toNat ≤ 39) ∧ (41 ≤ (41#8 : Byte).toNat ∧ (49#8 : Byte).toNat ≤ 49) ∧
    (50#8 : Byte).toNat = 50 ∧ ((0#8 : Byte).toNat = 0 ∧ 51 ≤ (255#8 : Byte).toNat) ∧
    (88#8 : Byte) ≠ 87#8 ∧ (88#8 : Byte) ≠ 83#8 ∧ 0x3F015715 / 16777216 ≠ 62 := by decide

/-- A frame that a filtering path drops. -/
theorem witness_FilterDropsForeignFrames : tState.params.filterOn .net = true ∧
    ({ relayParsed with deviceID := 2#8 } : ParsedFrame).deviceID ≠ tState.localId := by decide

/-- The bounds of each channel range of DISPATCH. -/
theorem witness_DispatchSelectsByChannel :
    [1#8, 9#8, 11#8, 19#8, 21#8, 29#8, 31#8, 39#8, 41#8, 49#8, 50#8, 0#8, 10#8, 20#8, 30#8, 40#8, 51#8, 255#8].map
      (fun ch => ({ relayParsed with channel := ch } : ParsedFrame).channel.toNat) =
    [1, 9, 11, 19, 21, 29, 31, 39, 41, 49, 50, 0, 10, 20, 30, 40, 51, 255] := by decide

theorem witness_RelayWriteSetsOneRelay : (21 ≤ (29#8 : Byte).toNat ∧ (29#8 : Byte).toNat ≤ 29 ∧
      (29#8 : Byte).toNat - 20 ≤ tState.params.numRelays) ∧
    (21 ≤ (21#8 : Byte).toNat ∧
      (tSet (fun c => { c with numRelays := 0 }) tState).params.numRelays < (21#8 : Byte).toNat - 20) := by decide

theorem witness_Rs232ForwardIsALockedSend : (tState.port .rs232_1).txLock = .free ∧
    ((tState.setPort .rs232_2 { tPort with txLock := .held .gpio }).port .rs232_2).txLock = .held .gpio ∧
    (33 ≤ (33#8 : Byte).toNat ∧ (39#8 : Byte).toNat ≤ 39) ∧
    ((tNet tPort (.act (.fwd .rs232_1 .send [65#8]))).ctl (.listener .net) = .act (.fwd .rs232_1 .send [65#8]) ∧
      ((tNet tPort (.act (.fwd .rs232_1 .send [65#8]))).port .rs232_1).send = none) ∧
    ((tNet loopPort (.act (.fwd .rs485 .send [65#8]))).ctl (.listener .net) = .act (.fwd .rs485 .send [65#8]) ∧
      ((tNet loopPort (.act (.fwd .rs485 .send [65#8]))).port .rs485).send = some (tSend 7 1 true .sLoop)) ∧
    (tNet tPort (.act (.fwd .rs232_1 .free [65#8]))).ctl (.listener .net) = .act (.fwd .rs232_1 .free [65#8]) := by decide

theorem witness_IrTriggerEmitsOneEvent : 41 ≤ (41#8 : Byte).toNat ∧ (49#8 : Byte).toNat ≤ 49 := by decide

theorem witness_Rs485ForwardEntersTheBracket : (tState.port .rs485).txLock = .free ∧
    ((tWith { tPort with txLock := .held .gpio }).port .rs485).txLock = .held .gpio := by decide

/-- A task outside every bracket, with the lock free and held; and each step of the bracket. -/
theorem witness_BracketStepsInOrder : (∀ ph k b m, tState.ctl tState.cur ≠ .act (.bus ph k b m)) ∧
    (tState.port .rs485).txLock = .free ∧ ((tWith { tPort with txLock := .held .gpio }).port .rs485).txLock = .held .gpio ∧
    (∀ ph, (tNet tPort (.act (.bus ph .raw [72#8] 1))).ctl (tNet tPort .idle).cur = .act (.bus ph .raw [72#8] 1)) ∧
    ((tNet tPort (.act (.bus .send .raw [72#8] 1))).port .rs485).send = none ∧
    ((tNet loopPort (.act (.bus .send .raw [72#8] 1))).port .rs485).send = some (tSend 7 1 true .sLoop) :=
  ⟨nofun, rfl, rfl, fun _ => rfl, rfl, rfl⟩

/-- The step by which GPIO_SRC takes an event while the bus is driven. -/
theorem witness_BracketsAlternate : (busState loopPort [.gpioEvt 0 1#8]).Inv ∧
    alternates .read (busState loopPort [.gpioEvt 0 1#8]).de (busState loopPort [.gpioEvt 0 1#8]).deLog ∧
    ∃ s', step (busState loopPort [.gpioEvt 0 1#8]) = .next s' :=
  ⟨busState_inv _ loopPort_ok rfl rfl rfl rfl, ⟨nofun, rfl⟩, _, rfl⟩

theorem witness_GpioEventIsFannedOut : (1 ≤ 1 ∧ 9 ≤ 9 ∧ tState.ctl .gpio = .recv) ∧ (0 = 0 ∨ 10 ≤ 0) ∧ 10 ≤ 10 := by decide

theorem witness_DatagramReachesTheListener : tState.ctl (.listener .net) = .recv ∧
    (tNet tPort .idle).ctl (.listener .net) ≠ .recv := by decide

theorem witness_SendLineStages : statusOne[4]? = some 1#8 ∧ (1#8 : Byte).toNat ≤ 249 ∧ 7 = (1#8 : Byte).toNat + 6 ∧
    7 ≤ statusOne.length ∧ ((tWith { tPort with txLock := .held .gpio }).port .rs485).txLock ≠ .free ∧
    ((tWith { tPort with txLock := .held .gpio }).port .rs485).send = none := by decide

theorem witness_SendRawStages : 0 ≤ 249 ∧ 0 ≤ ([] : List Byte).length ∧
    ((tWith { tPort with txLock := .held .gpio }).port .rs485).txLock ≠ .free ∧
    ((tWith { tPort with txLock := .held .gpio }).port .rs485).send = none := by decide

/-- The three branches: all bytes done, a full ring, a ring with room. -/
theorem witness_SendLoopEnqueues :
    (loopPort.send = some (tSend 7 1 true .sLoop) ∧ (tSend 7 1 true .sLoop).phase = .sLoop ∧ loopPort.maskTx = true) ∧
    (tSend 7 7 true .sLoop).i = (tSend 7 7 true .sLoop).n ∧
    ((tSend 7 3 true .sLoop).i ≠ (tSend 7 3 true .sLoop).n ∧ (hungPort.txRing.inIdx + 1) % 4 = hungPort.txRing.outIdx) ∧
    ((tSend 7 1 true .sLoop).i ≠ (tSend 7 1 true .sLoop).n ∧ (loopPort.txRing.inIdx + 1) % 4 ≠ loopPort.txRing.outIdx ∧
      (tSend 7 1 true .sLoop).i ≤ 254 ∧ loopPort.stage.lookup 1 = some 1#8 ∧ loopPort.txRing.inIdx < 4) := by decide

theorem witness_SendWaitsForRoom : hungPort.send = some (tSend 7 3 true .sWait) ∧ hungPort.room = 0 ∧
    0 < ({ hungPort with room := 1 } : Port).room ∧ (tSend 7 3 true .sRemask).phase = .sRemask := by decide

theorem witness_SendKicksOneByte :
    let p : Port := { loopPort with send := some (tSend 7 7 true .sKick) }
    (p.send = some (tSend 7 7 true .sKick) ∧ p.maskTx = true ∧ p.txHw.length < tParams.txHwDepth ∧
      p.txRing.inIdx ≠ p.txRing.outIdx ∧ p.txRing.outIdx < tParams.n ∧ p.txRing.slots.lookup p.txRing.outIdx = some 62#8) ∧
    (tSend 7 7 false .sKick).wasEmpty = false ∧ tParams.txHwDepth ≤ ({ p with txHw := [9#8] } : Port).txHw.length ∧
    ({ p with txRing := Ring.reset } : Port).txRing.inIdx = Ring.reset.outIdx := by decide

/-- A send called by W.RS232, one called by the bracket, and one whose lock no task holds. -/
theorem witness_SendExitReturnsToCaller :
    let p : Port := { loopPort with send := some (tSend 7 7 true .sExit) }
    (p.send = some (tSend 7 7 true .sExit) ∧ p.txLock = .held (.listener .net)) ∧
    (tNet p (.act (.fwd .rs485 .send [1#8]))).ctl (.listener .net) = .act (.fwd .rs485 .send [1#8]) ∧
    (tNet p (.act (.bus .send .raw [1#8] 1))).ctl (.listener .net) = .act (.bus .send .raw [1#8] 1) ∧
    ∀ a, ({ p with txLock := .free } : Port).txLock = .held a → (tState.ctl a).sendsOn .rs485 = false :=
  ⟨⟨rfl, rfl⟩, rfl, rfl, nofun⟩

theorem witness_DrainMovesOldestBytes : tParams.wf ∧ drainPort.Ok tParams ∧ drainPort.threPend = true ∧
    drainPort.maskTx = false ∧ drainPort.maskRx = false := ⟨by decide, drainPort_ok, rfl, rfl, rfl⟩

theorem witness_MailboxKeepsTheLastByte : ({ tParams with rxMode := .mailbox } : Params).rxMode = .mailbox ∧
    ({ tPort with rxHw := [62#8, 1#8] } : Port).rxHw = [62#8] ++ [1#8] ∧ tPort.maskTx = false ∧ tPort.maskRx = false := by
  decide

theorem witness_RingTakesTheBytesThatFit : tParams.wf ∧ rxPort.Ok tParams ∧ tParams.rxMode = .ring ∧ rxPort.rxHw ≠ [] ∧
    rxPort.maskTx = false ∧ rxPort.maskRx = false := ⟨by decide, rxPort_ok, rfl, nofun, rfl, rfl⟩

theorem witness_DisabledHandlersDoNotStep : tPort.threPend = false ∧ tPort.rxHw = [] ∧ loopPort.maskTx = true ∧
    ({ tPort with maskRx := true } : Port).maskRx = true := by decide

/-- Each phase; at R_EXIT the candidate's bytes are stored. -/
theorem witness_ReadLinePhases : (∀ ph, (tAt tPort (.read ph)).ctl (.listener (.serial .rs485)) = .read ph) ∧
    0 < rxPort.ready ∧ tPort.ready = 0 ∧
    ({ tPort with rxBuf := (tRing relayFrame 0 0).slots, total := 7 } : Port).total ≤ 255 ∧
    ∀ j, j < 7 → Memory.lookup (tRing relayFrame 0 0).slots j ≠ none :=
  ⟨fun _ => rfl, by decide, rfl, by decide, by decide⟩

theorem witness_TakeFeedsTheReassembler :
    (tAt { rxPort with maskRx := true } (.read .take)).ctl (.listener (.serial .rs485)) = .read .take ∧
    ({ rxPort with maskRx := true } : Port).maskRx = true ∧ (rxPort.fsm = .accumulate → rxPort.pos ≤ 254) ∧
    (tParams.rxMode = .ring ∧ rxPort.rxRing.inIdx ≠ rxPort.rxRing.outIdx ∧ rxPort.rxRing.outIdx < tParams.rxn ∧
      rxPort.rxRing.slots.lookup rxPort.rxRing.outIdx = some 62#8) ∧
    ({ tParams with rxMode := .mailbox } : Params).rxMode = .mailbox := ⟨rfl, rfl, nofun, by decide, rfl⟩

theorem witness_MisuseIsAFault : (hungPort.send = some (tSend 7 3 true .sWait) ∧ hungPort.maskTx = false) ∧
    (tSend 7 3 true .sLoop).phase = .sLoop ∧ (tSend 7 3 true .sKick).phase = .sKick ∧
    ((tAt tPort (.read .take)).ctl (.listener (.serial .rs485)) = .read .take ∧ tPort.maskRx = false ∧
      tPort.rxRing.inIdx = tPort.rxRing.outIdx) ∧
    (statusOne[4]? = some 1#8 ∧ 9 ≠ (1#8 : Byte).toNat + 6) ∧ 249 < (250#8 : Byte).toNat ∧ 249 < 250 ∧
    tState.boot = .running := by decide

theorem witness_OperandsOutsideTheDomainRun : (5 ≤ 7 ∧ (relayFrame.take 5).length < 7) ∧ 4 < 5 ∧
    (2 ≤ 249 ∧ ([1#8] : List Byte).length < 2 ∧ 0 ≤ ([1#8] : List Byte).length) ∧ 249 < 250 ∧
    (tState.ctl (.listener .net) = .recv ∧ (tNet tPort .idle).ctl (.listener .net) ≠ .recv) ∧
    (({ tPort with txLock := .held .gpio } : Port).txLock ≠ .free ∧ tPort.send = none) ∧
    (6 ≤ 7 ∧ 7 ≤ 255 ∧ (statusOne.take 6).length < 7 ∧ (statusOne.take 4).length < 7) ∧ 5 < 6 ∧ 255 < 256 := by decide

theorem witness_StepsNotEnabledChangeNothing : (tPort.txLock = .free ∧ loopPort.send ≠ none) ∧
    (statusOne[4]? = some 1#8 ∧ (1#8 : Byte).toNat ≤ 249 ∧ 7 = (1#8 : Byte).toNat + 6 ∧ 249 ≤ 249) ∧
    (∀ r, tPort.send = some r → r.phase ≠ .sLoop) ∧
    (∀ r, hungPort.send = some r → r.phase ≠ .sLoop ∧ r.phase ≠ .sKick ∧ r.phase ≠ .sExit) ∧
    (∀ r, loopPort.send = some r → r.phase ≠ .sWait ∧ r.phase ≠ .sRemask) ∧ tParams.rxMode = .ring ∧
    ({ tParams with rxMode := .mailbox } : Params).rxMode = .mailbox ∧
    (∀ ph, (tAt tPort .idle).ctl (.listener (.serial .rs485)) ≠ .read ph) ∧ tPort.txHw = [] ∧
    ({ tPort with fsm := .done } : Port).fsm ≠ .waitSync ∧ tPort.fsm ≠ .accumulate ∧
    ((tNet tPort (.act (.bus .pre .raw [1#8] 1))).ctl (.listener .net) = .act (.bus .pre .raw [1#8] 1) ∧
      ¬ (TxKind.frame = .raw ∧ [1#8] = [1#8] ∧ 1 = 1)) ∧
    (tState.setCtl .gpio (.act (.fNet 11#8 1#8))).ctl .gpio ≠ .recv :=
  ⟨by decide, by decide, nofun, fun r h => (by cases h; decide), fun r h => (by cases h; decide), rfl, rfl, nofun, rfl,
    by decide, by decide, by decide, nofun⟩

/-- A register of two bytes; and a run fair to the transmitters, from a register that is not empty. -/
theorem witness_TransmitterSendsOldestByte : ({ tPort with txHw := [1#8, 2#8] } : Port).txHw = 1#8 :: [2#8] ∧
    IsRun (fun _ => .uartTx .rs485) sendRun ∧ FairTransmitters (fun _ => .uartTx .rs485) sendRun ∧
    ((sendRun 0).port .rs485).txHw = 62#8 :: [] := by
  have idle : ∀ j, ((sendRun j).port .rs232_1).txHw = [] ∧ ((sendRun j).port .rs232_2).txHw = [] := fun j => by
    cases j <;> exact ⟨rfl, rfl⟩
  refine ⟨rfl, ⟨rfl, fun k => by cases k <;> rfl⟩, fun t k h => ?_, rfl⟩
  cases t
  · exact ⟨k, Nat.le_refl k, rfl⟩
  · exact absurd (idle k).1 (h k (Nat.le_refl k))
  · exact absurd (idle k).2 (h k (Nat.le_refl k))

theorem witness_ReceiverKeepsOlderBytes : tPort.rxHw.length < tParams.rxHwDepth ∧
    tParams.rxHwDepth ≤ rxPort.rxHw.length := by decide

theorem witness_BaudDivisorIsNearest : ({ tState with boot := .baudLoad .rs485 } : State).boot ≠ .running := by decide

theorem witness_StartSequence : State.reset.boot = .readCfg ∧ State.reset.ctl .gpio = .recv ∧
    State.reset.localId = State.reset.params.defaultId ∧ State.reset.baud485 = State.reset.params.defaultBaud485 ∧
    State.reset.baud232 = State.reset.params.defaultBaud232 := ⟨rfl, rfl, rfl, rfl, rfl⟩

/-- GPIO_SRC inside its bracket, chosen while a handler of RS485 is enabled. -/
def gpioBeside : State := (restState drainPort [.task .gpio]).setCtl .gpio (.act (.bus .pre .frame statusOne 7))

/-- R240 and log 11: GPIO_SRC takes the step of its program point under an enabled handler. -/
theorem test_gpio_under_handler : after (fun s => s.ctl .gpio) (step gpioBeside) =
    some (.act (.bus .send .frame statusOne 7)) := by decide

/-- A schedule and none, both RX modes, a transport without and one with a masked cause, and each program point the statement
names. -/
theorem witness_StepRunsTheChosenOperation : (tState.boot = .running ∧
      (restState tPort [.lineIn .rs485 1#8]).sched = .lineIn .rs485 1#8 :: [] ∧ tState.sched = []) ∧
    (tParams.rxMode = .ring ∧ ({ tParams with rxMode := .mailbox } : Params).rxMode = .mailbox) ∧
    ((tState.port .rs485).threPend = false ∧ (tState.port .rs485).rxHw = [] ∧ (tState.port .rs232_1).threPend = false ∧
      (tState.port .rs232_1).rxHw = [] ∧ (tState.port .rs232_2).threPend = false ∧ (tState.port .rs232_2).rxHw = []) ∧
    (({ loopPort with threPend := true } : Port).maskTx = true ∧
      ({ tPort with rxHw := [1#8], maskRx := true } : Port).maskRx = true) ∧
    (tNet tPort (.act (.cmd relayParsed))).ctl (.listener .net) = .act (.cmd relayParsed) ∧
    (tNet tPort (.act (.fNet 21#8 1#8))).ctl (.listener .net) = .act (.fNet 21#8 1#8) ∧
    (tNet tPort (.act (.bus .pre .raw [1#8] 1))).ctl (.listener .net) = .act (.bus .pre .raw [1#8] 1) ∧
    ((tNet loopPort (.act (.fwd .rs485 .send [1#8]))).ctl (.listener .net) = .act (.fwd .rs485 .send [1#8]) ∧
      ((tNet loopPort (.act (.fwd .rs485 .send [1#8]))).port .rs485).send = some (tSend 7 1 true .sLoop) ∧
      ((tNet tPort (.act (.fwd .rs485 .send [1#8]))).port .rs485).send = none) ∧
    (tNet tPort (.act (.fwd .rs485 .free [1#8]))).ctl (.listener .net) = .act (.fwd .rs485 .free [1#8]) ∧
    (tAt tPort (.read .take)).ctl (.listener (.serial .rs485)) = .read .take ∧
    (tNet tPort .idle).ctl (.listener .net) = .idle ∧ tState.ctl .gpio = .recv ∧
    (gpioBeside.boot = .running ∧ gpioBeside.sched = .task .gpio :: [] ∧ gpioBeside.handlerEnabled = true ∧
      gpioBeside.ctl .gpio = .act (.bus .pre .frame statusOne 7)) := by decide

theorem witness_StepRunsTheDecodedWord : decodeTableWord 32 0x3E015715 = some (.wRelay 1#8 21#8 []) ∧
    decodeTableWord 32 0x13E015715 = none ∧ State.reset.handlerEnabled = false := ⟨by decide, by decide, rfl⟩

/-- An accepted candidate on a serial path and on the network, and a rejected one. -/
theorem witness_DecideSelectsTheDecodedCommand :
    ((tAt tPort (.candidate relayFrame 7)).ctl (.listener (.serial .rs485)) = .candidate relayFrame 7 ∧
      candidateOk relayFrame 7 = true ∧ relayFrame[0]? = some 62#8 ∧
      decode relayFrame = .ok (.wRelay 1#8 21#8 [1#8], [])) ∧
    ((tNet tPort (.candidate [] 0)).ctl (.listener .net) = .candidate [] 0 ∧ decode [] = .error .tooShort) := by decide

/-- The schedule's choice. With an empty schedule the choice is free: no state fixes it. -/
theorem witness_ListenersYieldToHandlers :
    let s : State := restState rxPort [.task (.listener .net)]
    s.boot = .running ∧ s.chosen = .task (.listener .net) ∧ (s.port .rs485).maskTx = false ∧
      (s.port .rs485).maskRx = false ∧ (s.port .rs485).rxHw ≠ [] ∧
      ((restState drainPort []).port .rs485).threPend = true := by decide

/-- A block in the middle of a send, and one whose next step loses the kick. -/
theorem witness_EveryStepKeepsTheInvariant : ((busState loopPort [.task (.listener .net)]).Inv ∧ loopPort.Flows) ∧
    (busState wakePort [.task (.listener .net)]).Inv ∧ wakePort.Flows :=
  ⟨⟨busState_inv _ loopPort_ok rfl rfl rfl rfl, nofun, fun r h _ hw => by (cases h; cases hw), fun r h hp => by (cases h; cases hp),
      fun r h hp => by (cases h; rcases hp with hp | hp <;> cases hp)⟩,
    busState_inv _ wakePort_ok rfl rfl rfl rfl, nofun, fun r h hp => by (cases h; rcases hp with hp | hp <;> cases hp),
    fun r h hp => by (cases h; cases hp), fun r h _ => by (cases h; decide)⟩

theorem witness_StepKeepsMemoryCanonical : (busState loopPort [.task (.listener .net)]).memWf = true ∧
    ∃ s', step (busState loopPort [.task (.listener .net)]) = .next s' := ⟨by decide, _, rfl⟩

/-- The step that enqueues a byte. -/
theorem witness_TransmitIsFifo : (busState loopPort [.task (.listener .net)]).Inv ∧
    ∃ s', step (busState loopPort [.task (.listener .net)]) = .next s' ∧
      (s'.port .rs485).send = some (tSend 7 2 true .sLoop) :=
  ⟨busState_inv _ loopPort_ok rfl rfl rfl rfl, _, rfl, by decide⟩

/-- The step by which the RX handler runs, and the step by which a byte arrives. -/
theorem witness_ReceiveIsFifo : (restState rxPort [.irqRx .rs485]).Inv ∧
    (restState rxPort [.irqRx .rs485]).params.rxMode = .ring ∧
    (∃ s', step (restState rxPort [.irqRx .rs485]) = .next s' ∧ (s'.port .rs485).ready = 2) ∧
    (restState tPort [.lineIn .rs485 7#8]).Inv ∧
    ∃ s', step (restState tPort [.lineIn .rs485 7#8]) = .next s' ∧ (s'.port .rs485).rxStream s'.params = [7#8] :=
  ⟨restState_inv _ rxPort_ok rfl rfl rfl rfl rfl, rfl, ⟨_, rfl, by decide⟩, restState_inv _ tPort_ok rfl rfl rfl rfl rfl, _, rfl,
    by decide⟩

/-- A relay that is not fitted. -/
theorem witness_RelaysAreWrittenOnlyByWRelay :
    (∃ s', exec (.wRelay 1#8 21#8 [1#8]) (tSet (fun c => { c with numRelays := 8 }) tState) = .next s') ∧
    (tSet (fun c => { c with numRelays := 8 }) tState).params.numRelays < 9 ∧
    (Instr.wRelay 1#8 21#8 [1#8]).wellFormed = true ∧
    ∃ s', step { tNet tPort (.act (.cmd relayParsed)) with sched := [.task (.listener .net)] } = .next s' ∧ s'.relay 1 = 1#8 :=
  ⟨⟨_, rfl⟩, by decide, by decide, _, rfl, by decide⟩

theorem witness_ConfigurationIsFixed : (∃ s', exec (.lineIn .rs485 1#8) tState = .next s') ∧ tState.boot = .running ∧
    ∃ s', step (restState tPort [.lineIn .rs485 1#8]) = .next s' := ⟨⟨_, rfl⟩, rfl, _, rfl⟩

theorem witness_TransportsAreIndependent : actsFor (.lineIn .rs485 1#8) = some .rs485 ∧ Transport.rs232_1 ≠ .rs485 ∧
    ∃ s', exec (.lineIn .rs485 1#8) tState = .next s' := ⟨rfl, nofun, _, rfl⟩

/-- P4, a stalled transport; and the lost kick. -/
theorem witness_HangPersists : (busState hungPort [.task (.listener .net)]).Inv ∧
    Hung .rs485 (busState hungPort [.task (.listener .net)]) ∧ hungPort.Stalled tParams ∧
    (∃ s', step (busState hungPort [.task (.listener .net)]) = .next s') ∧
    KickLost .rs485 (busState { wakePort with maskTx := true, send := some (tSend 7 3 false .sLoop) } []) :=
  ⟨busState_inv _ hungPort_ok rfl rfl rfl rfl,
    ⟨rfl, by decide, rfl, rfl, tSend 7 3 true .sWait, rfl, by decide, nofun, nofun⟩,
    ⟨rfl, rfl, .inr ⟨tSend 7 3 true .sWait, rfl, .inr ⟨by decide, nofun, nofun, .inr (by decide)⟩⟩⟩, ⟨_, rfl⟩,
    ⟨rfl, rfl, rfl, tSend 7 3 false .sLoop, rfl, rfl, rfl, by decide⟩⟩

/-- The schedule's choice. With an empty schedule the choice is free: no state fixes it. -/
theorem witness_QuiescentStateIsAtRest :
    let s : State := restState tPort [.task (.listener .net)]
    s.Quiescent ∧ s.Inv ∧ s.boot = .running ∧ s.chosen = .task (.listener .net) ∧ s.ctl .gpio = .recv :=
  ⟨⟨⟨fun t => by cases t <;> exact ⟨rfl, rfl, rfl, fun _ => rfl, rfl, rfl, rfl, rfl⟩, rfl, fun t => by cases t <;> rfl, rfl⟩,
      fun w hw => by (cases List.mem_singleton.1 hw; exact ⟨nofun, nofun⟩)⟩,
    restState_inv _ tPort_ok rfl rfl rfl rfl rfl, rfl, rfl, rfl⟩

/-- A ring of two slots and one byte (V10), and none. -/
theorem witness_RingHoldsOneLessThanItsSlots : 2 ≤ 2 ∧ Ring.reset.Ok 2 ∧ Ring.reset.isEmpty = true ∧
    [7#8].length ≤ 2 - 1 := ⟨by decide, ⟨by decide, by decide, fun _ h => absurd h (by simp [Ring.count, Ring.reset])⟩, rfl,
  by decide⟩

end Sys2Proof.Tests
end

section
/-!
What the step of a started block runs: whose step it is, when a listener has one (spec/60_exceptions.md R240), and what a task does at
each program point (spec/43_dispatch.md R222, R223).
-/

namespace Sys2Proof.Machine

/-- No handler of a transport is enabled: its source is masked, or it is not asserted (spec/60_exceptions.md R246). -/
theorem Port.handlerEnabled_eq_false_iff (p : Port) : p.handlerEnabled = false ↔
    p.maskTx = true ∨ p.maskRx = true ∨ (p.threPend = false ∧ p.rxHw = []) := by
  have hrx : p.rxAvail = false ↔ p.rxHw = [] := by simp [Port.rxAvail]
  unfold Port.handlerEnabled Port.irqTxEnabled Port.irqRxEnabled Port.masked
  rw [← hrx]
  cases p.maskTx <;> cases p.maskRx <;> simp

theorem State.handlerEnabled_eq_false_iff (s : State) : s.handlerEnabled = false ↔
    ∀ t, (s.port t).maskTx = true ∨ (s.port t).maskRx = true ∨ ((s.port t).threPend = false ∧ (s.port t).rxHw = []) := by
  simp only [← Port.handlerEnabled_eq_false_iff, State.handlerEnabled, Bool.or_eq_false_iff]
  constructor
  · rintro ⟨⟨h485, h1⟩, h2⟩ t
    cases t
    · exact h485
    · exact h1
    · exact h2
  · exact fun h => ⟨⟨h _, h _⟩, h _⟩

/-- R240 holds a listener back under an enabled handler; GPIO_SRC is never held back (log 11). -/
theorem heldBack_eq_false {a : TaskId} {s : State} (h : a = .gpio ∨ s.handlerEnabled = false) : heldBack a s = false := by
  cases a with
  | gpio => rfl
  | listener p => exact h.resolve_left nofun

theorem choiceStep_task {a : TaskId} {s : State} (h : heldBack a s = false) :
    choiceStep (.task a) s = taskStep a { s with cur := a } := by
  simp [choiceStep, h]

theorem choiceStep_irqRx (t : Transport) (s : State) : choiceStep (.irqRx t) s = exec (irqRxInstr s.params t) s := rfl

theorem irqRxInstr_ring {c : Params} (h : c.rxMode = .ring) (t : Transport) : irqRxInstr c t = .irqRxRing t := by
  simp [irqRxInstr, h]

theorem irqRxInstr_mailbox {c : Params} (h : c.rxMode = .mailbox) (t : Transport) : irqRxInstr c t = .irqRxMailbox t := by
  simp [irqRxInstr, h]

@[simp] theorem afterChoice_params (s : State) : s.afterChoice.params = s.params := by
  obtain ⟨l, n, h⟩ := afterChoice_form s
  rw [h]

@[simp] theorem afterChoice_handlerEnabled (s : State) : s.afterChoice.handlerEnabled = s.handlerEnabled := by
  obtain ⟨l, n, h⟩ := afterChoice_form s
  rw [h]
  rfl

/-- The chosen agent is the head of the schedule, or the free choice where the schedule is empty (log 2). -/
theorem chosen_afterChoice {c : Choice} {s s0 : State}
    (h : (∃ rest, s.sched = c :: rest ∧ s0 = { s with sched := rest }) ∨
      (s.sched = [] ∧ c = Config.freeChoice s.tick ∧ s0 = { s with tick := s.tick + 1 })) :
    s.chosen = c ∧ s.afterChoice = s0 := by
  unfold State.chosen State.afterChoice
  rcases h with ⟨rest, hs, rfl⟩ | ⟨hs, rfl, rfl⟩ <;> simp [hs]

theorem exec_sendRow (t : Transport) (ph : SendPhase) (s : State) : exec (sendRow t ph) s = sendPhaseStep t ph s := by
  cases ph <;> rfl

section ProgramPoint
variable {a : TaskId} {s : State}

theorem taskStep_act {act : Act} (h : s.ctl a = .act act) : taskStep a s = actStep a act s := by
  simp [taskStep, h]

theorem taskStep_fwd {u : Transport} {ph : FwdPhase} {b : List Byte} (h : s.ctl a = .act (.fwd u ph b)) :
    taskStep a s = forwardStep a u ph b s := taskStep_act h

theorem taskStep_recv (h : s.ctl a = .recv) : taskStep a s = .next s := by
  simp [taskStep, noStep, h]

theorem taskStep_idle (h : s.ctl a = .idle) : taskStep a s = .next (s.setCtl a (firstLabel a)) := by
  simp [taskStep, h]

theorem taskStep_read {t : Transport} {ph : ReadPhase} (h : s.ctl (.listener (.serial t)) = .read ph) :
    taskStep (.listener (.serial t)) s = exec (.readLine t) s := by
  simp [taskStep, h]

end ProgramPoint

/-- The step of W.RS232 before its send has a record: SEND_RAW (spec/43_dispatch.md R208). -/
theorem forwardStep_send_none {a : TaskId} {u : Transport} {b : List Byte} {s : State} (h : (s.port u).send = none) :
    forwardStep a u .send b s = exec (.sendRaw u b b.length) s := by
  simp [forwardStep, h]

/-- The step of W.RS232 while its send is in progress: the row of the send's phase (R208; spec/40_ring_transport.md R121). -/
theorem forwardStep_send_some {a : TaskId} {u : Transport} {b : List Byte} {s : State} {r : SendRec}
    (h : (s.port u).send = some r) : forwardStep a u .send b s = exec (sendRow u r.phase) s := by
  simp [forwardStep, h, exec_sendRow]

/-- Settles O46: a step is that of the chosen agent (`step_running`), read off by the agent, and a task's by its program point. -/
theorem stepRunsTheChosenOperation : Obligations.StepRunsTheChosenOperation := by
  unfold Obligations.StepRunsTheChosenOperation
  refine ⟨fun c s s0 hboot hchoice => ?_, fun _ _ _ => taskStep_act, fun _ _ _ _ => taskStep_act,
    fun _ _ _ _ _ _ => taskStep_act, fun a u p s hctl => ⟨fun hsend => ?_, fun r hsend => ?_⟩, fun _ _ _ _ => taskStep_fwd,
    fun _ _ _ => taskStep_read, fun _ _ => taskStep_idle, fun _ _ => taskStep_recv⟩
  · obtain ⟨rfl, rfl⟩ := chosen_afterChoice hchoice
    rw [step_running hboot]
    refine ⟨fun t b hc => ?_, fun t hc => ?_, fun t hc => ?_, fun t hc hmode => ?_, fun t hc hmode => ?_, fun d hc => ?_,
      fun g v hc => ?_, fun a hc hfree => ?_⟩ <;> rw [hc]
    · rfl
    · rfl
    · rfl
    · rw [choiceStep_irqRx, afterChoice_params, irqRxInstr_ring hmode]
    · rw [choiceStep_irqRx, afterChoice_params, irqRxInstr_mailbox hmode]
    · rfl
    · rfl
    · rw [← State.handlerEnabled_eq_false_iff, ← afterChoice_handlerEnabled] at hfree
      exact choiceStep_task (heldBack_eq_false hfree)
  · rw [taskStep_fwd hctl, forwardStep_send_none hsend]
  · rw [taskStep_fwd hctl, forwardStep_send_some hsend]

end Sys2Proof.Machine
end

section
/-!
The state of the block (spec/10_state.md): the reset state, the invariant under every step, the canonical form of the arrays, and
which operations leave which part of the state alone.
-/

namespace Sys2Proof.Machine

/-! ### The reset state -/

section Reset
variable (c : Params)

@[simp] theorem port_resetWith (t : Transport) :
    (State.resetWith c).port t = Port.reset c t ((State.resetWith c).baudOf t) := by
  cases t <;> rfl

/-- At reset every task, GPIO_SRC included, is at its first label (spec/70_reset_and_hazards.md R270). -/
@[simp] theorem ctl_resetWith (a : TaskId) : (State.resetWith c).ctl a = firstLabel a := by
  rcases a with ⟨_ | ⟨_ | _ | _⟩⟩ | _ <;> rfl

@[simp] theorem relay_resetWith (k : Nat) : (State.resetWith c).relay k = 0#8 := by
  simp only [State.relay, State.resetWith, Vector.getD, Vector.replicate, Array.getD_eq_getD_getElem?, Array.getElem?_replicate]
  split <;> rfl

end Reset

/-- Settles O44: `State.reset` field by field, the transports and the listeners at one stroke by `port_resetWith` and
`ctl_resetWith`. -/
theorem resetValues : Obligations.ResetValues := by
  unfold Obligations.ResetValues State.reset
  refine ⟨fun t => ?_, rfl, relay_resetWith _, fun p => ctl_resetWith _ _, rfl, rfl, rfl⟩
  simp [Port.reset, Ring.reset, sentinel]

@[simp] theorem Ring.count_reset (m : Nat) : Ring.reset.count m = 0 := by simp [Ring.count, Ring.reset]

theorem Ring.reset_ok {m : Nat} (hm : 2 ≤ m) : Ring.reset.Ok m where
  inLt := Nat.lt_of_lt_of_le Nat.zero_lt_two hm
  outLt := Nat.lt_of_lt_of_le Nat.zero_lt_two hm
  live := fun j hj => by simp at hj

/-- A transport at reset meets its invariant, whatever its rate and the free value of its mailbox (logs 6 and 7). -/
theorem Port.reset_ok {c : Params} (hc : c.wf) (t : Transport) (baud : PNat) : (Port.reset c t baud).Ok c where
  mem := rfl
  tx := Ring.reset_ok hc.1
  rx := Ring.reset_ok hc.2.1
  txHw := Nat.zero_le _
  rxHw := Nat.zero_le _
  fsm := ⟨⟨rfl, rfl⟩, nofun, nofun⟩
  snd := ⟨nofun, nofun⟩
  claim := rfl

/-- A transport at reset has no byte and no send, so R130 asks nothing of it. -/
theorem Port.reset_flows (c : Params) (t : Transport) (baud : PNat) : (Port.reset c t baud).Flows :=
  ⟨nofun, nofun, nofun, nofun⟩

theorem firstLabel_holds (a : TaskId) (t : Transport) : (firstLabel a).holds t = false := by
  rcases a with ⟨_ | _⟩ | _ <;> rfl

theorem firstLabel_driving (a : TaskId) : (firstLabel a).driving = false := by
  rcases a with ⟨_ | _⟩ | _ <;> rfl

theorem firstLabel_okFor (a : TaskId) : (firstLabel a).okFor a = true := by
  rcases a with ⟨_ | _⟩ | _ <;> rfl

/-- The reset state of a block with admissible parameters meets the invariant. -/
theorem State.resetWith_inv {c : Params} (hc : c.wf) : (State.resetWith c).Inv where
  params := hc
  ports := fun t => by rw [port_resetWith]; exact Port.reset_ok hc ..
  readMask := fun t => by rw [port_resetWith, ctl_resetWith]; rfl
  ready := fun _ t => by rw [port_resetWith, ctl_resetWith]; simp [Port.reset, firstLabel, Ctl.owed]
  reader := fun t ph hph hne => by
    rw [ctl_resetWith] at hph
    cases hph
    exact absurd rfl hne
  lock := fun t a => by
    rw [port_resetWith, ctl_resetWith, firstLabel_holds]
    exact ⟨nofun, nofun⟩
  sender := fun t hs => by
    rw [port_resetWith] at hs
    exact absurd rfl hs
  tasks := fun a => by rw [ctl_resetWith]; exact firstLabel_okFor a
  drive := by
    simp only [ctl_resetWith, firstLabel_driving]
    exact ⟨nofun, nofun⟩
  start := fun _ => ctl_resetWith c

theorem Params.default_wf : Params.default.wf := by decide

/-- Settles O51: the case of `State.resetWith` at the default parameters. -/
theorem resetMeetsTheInvariant : Obligations.ResetMeetsTheInvariant := by
  unfold Obligations.ResetMeetsTheInvariant State.reset
  refine ⟨State.resetWith_inv Params.default_wf, fun t => ?_⟩
  rw [port_resetWith]
  exact Port.reset_flows ..

/-! ### Every step and the invariant -/

/-- Taking a choice leaves the invariant (log 2). -/
theorem State.Inv.afterChoice {s : State} (h : s.Inv) : s.afterChoice.Inv := by
  obtain ⟨l, n, e⟩ := afterChoice_form s
  rw [e]
  exact h.of_aux rfl (fun t => port_upd s l n s.cur t) (fun b => ctl_upd s l n s.cur b) rfl rfl

@[simp] theorem afterChoice_boot (s : State) : s.afterChoice.boot = s.boot := by
  obtain ⟨l, n, e⟩ := afterChoice_form s
  rw [e]

/-- A started block stays started. -/
theorem step_boot_running {s s' : State} (hb : s.boot = .running) (hs : step s = .next s') : s'.boot = .running := by
  obtain ⟨s0, o, ⟨l, n, a, rfl⟩, he, -⟩ := eff_step hb hs
  obtain ⟨-, -, -, -, -, -, hboot, -⟩ := eff_port he
  exact hboot.trans hb

/-- BAUD_LOAD as a step of the start sequence writes one divisor (spec/70_reset_and_hazards.md R271). -/
theorem bootBaud_next {s : State} (hb : s.boot ≠ .running) (t : Transport) : bootBaud t s =
    .next { s.setPort t { s.port t with baudDiv := baudDivisor s.params (s.baudOf t) } with boot := afterBaud t } := by
  simp [bootBaud, exec, execBaudLoad, hb]

/-- Starting the tasks moves none that is at its first label already (spec/70_reset_and_hazards.md R271). -/
theorem startTasks_eq {s : State} (h : ∀ a, s.ctl a = firstLabel a) : startTasks s = { s with boot := .running } := by
  simp only [startTasks, ← h, setCtl_ctl]

/-- A step of the start sequence does not stop, and moves no task that is at its first label. -/
theorem step_start {s : State} (hb : s.boot ≠ .running) (h : ∀ a, s.ctl a = firstLabel a) :
    ∃ s', step s = .next s' ∧ ∀ a, s'.ctl a = s.ctl a := by
  unfold step machineStep
  cases e : s.boot with
  | readCfg => exact ⟨_, rfl, fun a => by rcases a with ⟨_ | ⟨_ | _ | _⟩⟩ | _ <;> rfl⟩
  | baudLoad t => exact ⟨_, bootBaud_next hb t, fun a => by rw [ctl_with_boot, ctl_setPort]⟩
  | startTasks => exact ⟨_, rfl, fun a => by rw [startTasks_eq h, ctl_with_boot]⟩
  | running => exact absurd e hb

/-- From the invariant no step stops (spec/60_exceptions.md R243), and the next state meets the invariant. -/
theorem keeps_step {s : State} (h : s.Inv) : Keeps (step s) := by
  by_cases hb : s.boot = .running
  · rw [step_running hb]
    exact keeps_choice h.afterChoice (by rw [afterChoice_boot, hb]) _
  · obtain ⟨s', hs, hctl⟩ := step_start hb (h.start hb)
    obtain ⟨hparams, hde, -, -, hports⟩ := step_boot hb hs
    exact ⟨s', hs, h.of_boot hparams hports hctl hde hb⟩

/-- A lost kick of a transport of a started block is the hang (R284) or the lost kick of the block (log 28). -/
theorem Port.losesKick.hung_or_kickLost {t : Transport} {s : State} (hb : s.boot = .running)
    (h : (s.port t).losesKick s.params) : Hung t s ∨ KickLost t s := by
  obtain ⟨hidle, hno, r, hr, hi, ⟨hph, hfull⟩ | ⟨hph, hwe, hempty⟩⟩ := h
  · exact .inl ⟨hb, hfull, hidle, hno, r, hr, hi, by simp [hph], by simp [hph]⟩
  · exact .inr ⟨hidle, hno, hempty, r, hr, hph, hwe, hi⟩

/-- R130 under every step, but for the hang and the lost kick. -/
theorem step_flows {s s' : State} (h : s.Inv) (hs : step s = .next s') {t : Transport} (hf : (s.port t).Flows) :
    (s'.port t).Flows ∨ Hung t s' ∨ KickLost t s' := by
  by_cases hb : s.boot = .running
  · obtain ⟨o, hp, -⟩ := step_portStep hb hs t
    refine (portStep_flows h.params (h.ports t) hf hp).imp id fun hl => ?_
    exact Port.losesKick.hung_or_kickLost (step_boot_running hb hs) (by rwa [step_params hs])
  · obtain ⟨-, -, -, -, hports⟩ := step_boot hb hs
    obtain ⟨n, hp⟩ := hports t
    rw [hp]
    exact .inl (hf.congr rfl rfl rfl rfl rfl)

/-- Settles O50: `keeps_step` for the invariant, `step_flows` for R130. -/
theorem everyStepKeepsTheInvariant : Obligations.EveryStepKeepsTheInvariant := by
  unfold Obligations.EveryStepKeepsTheInvariant
  intro s h
  obtain ⟨s', hs, h'⟩ := keeps_step h
  exact ⟨s', hs, h', fun _ => step_flows h hs⟩

/-! ### What a step leaves alone -/

/-- Settles O52: transport by transport, by `portStep_wf` in a started block; a step of the start sequence writes no array. -/
theorem stepKeepsMemoryCanonical : Obligations.StepKeepsMemoryCanonical := by
  unfold Obligations.StepKeepsMemoryCanonical
  intro s s' hw hs
  rw [memWf_iff] at hw ⊢
  intro t
  by_cases hb : s.boot = .running
  · obtain ⟨o, hp, -⟩ := step_portStep hb hs t
    exact portStep_wf hp (hw t)
  · obtain ⟨-, -, -, -, hports⟩ := step_boot hb hs
    obtain ⟨n, hp⟩ := hports t
    rw [hp]
    exact hw t

/-- The only write of the relay file: W.RELAY, at the index its channel gives, inside the fitted relays (spec/10_state.md R41). -/
theorem Effect.relays {o : Option Instr} {s s' : State} (h : Effect o s s') : s'.relays = s.relays ∨
    ∃ id ch p v, o = some (.wRelay id ch p) ∧ channelIndex relayOffset ch ≤ s.params.numRelays ∧
      s'.relays = (s.setRelay (channelIndex relayOffset ch) v).relays := by
  obtain ⟨-, -, -, -, -, -, -, s0, hg, -, -, hr⟩ := eff_port h
  rw [hr]
  cases hg with
  | relay id ch p v ho hk => exact .inr ⟨id, ch, p, v, ho, hk, rfl⟩
  | _ => exact .inl rfl

theorem relay_congr {s s' : State} (h : s'.relays = s.relays) (k : Nat) : s'.relay k = s.relay k := by
  simp only [State.relay, h]

/-- A relay that is not fitted keeps its value where every W.RELAY that runs has a channel of its list. -/
theorem Effect.relay_unfitted {o : Option Instr} {s s' : State} (h : Effect o s s')
    (ho : ∀ id ch p, o = some (.wRelay id ch p) → channelIn 21 29 ch = true) {k : Nat} (hk : s.params.numRelays < k)
    (hk9 : k ≤ 9) : s'.relay k = s.relay k := by
  rcases h.relays with hr | ⟨id, ch, p, v, e, hle, hr⟩
  · exact relay_congr hr k
  · obtain ⟨hlo, hhi⟩ := channelIn_iff.1 (ho id ch p e)
    unfold channelIndex relayOffset at hle hr
    rw [relay_congr hr, relay_set _ _ _ _ (by omega) (by omega) (by omega) hk9, if_neg (by omega)]

/-- DISPATCH selects W.RELAY for its own channels only (spec/43_dispatch.md R203). -/
theorem instrOf_wRelay_channel {pf : ParsedFrame} {id ch : Byte} {p : List Byte} (h : instrOf pf = .wRelay id ch p) :
    channelIn 21 29 ch = true := by
  unfold instrOf route at h
  dsimp only at h
  split_ifs at h with h1 h2 h3 h4
  cases h
  exact channelIn_iff.2 h4

/-- Settles O55: `Effect.relays` and `Effect.relay_unfitted` for an operation, and for a step with the operation it runs. -/
theorem relaysAreWrittenOnlyByWRelay : Obligations.RelaysAreWrittenOnlyByWRelay := by
  unfold Obligations.RelaysAreWrittenOnlyByWRelay
  refine ⟨fun i s s' hs => ?_, fun s s' hs => ?_⟩
  · have he := eff_exec hs
    refine ⟨he.relays.imp id fun ⟨d, ch, p, v, ho, _⟩ => ⟨d, ch, p, Option.some.inj ho⟩, fun k hk hk9 hw => ?_⟩
    refine he.relay_unfitted (fun d ch p ho => ?_) hk hk9
    cases ho
    exact (Bool.and_eq_true_iff.1 hw).1
  · by_cases hb : s.boot = .running
    · obtain ⟨s0, o, ⟨l, n, a, rfl⟩, he, ho⟩ := eff_step hb hs
      refine ⟨?_, fun k hk hk9 => ?_⟩
      · refine he.relays.imp id fun ⟨d, ch, p, v, e, _⟩ => ?_
        obtain ⟨b, pf, hw, hc, hi⟩ := ho.wRelay d ch p e
        exact ⟨hb, b, pf, d, ch, p, hw, hc, hi⟩
      · refine he.relay_unfitted (fun d ch p e => ?_) hk hk9
        obtain ⟨b, pf, -, -, hi⟩ := ho.wRelay d ch p e
        exact instrOf_wRelay_channel hi
    · obtain ⟨-, -, -, hr, -⟩ := step_boot hb hs
      exact ⟨.inl hr, fun k _ _ => relay_congr hr k⟩

/-- An operation of one transport is a step of that transport (spec/10_state.md R20). -/
theorem portEffect_of_actsFor {i : Instr} {t : Transport} {s s' : State} (hi : actsFor i = some t)
    (hs : exec i s = .next s') : PortEffect t (some i) s s' := by
  cases i with
  | sendLine u f n => cases hi; exact eff_sendLine hs
  | sendRaw u b m => cases hi; exact eff_sendRaw hs
  | sendSLoop u => cases hi; exact eff_sLoop hs
  | sendSWait u => cases hi; exact eff_sWait hs
  | sendSKick u => cases hi; exact eff_sKick hs
  | sendSExit u => cases hi; exact eff_sExit hs
  | irqTx u => cases hi; exact eff_irqTx hs
  | irqRxMailbox u => cases hi; exact eff_irqRxMailbox hs
  | irqRxRing u => cases hi; exact eff_irqRxRing hs
  | readLine u => cases hi; exact eff_readLine hs
  | uartTx u => cases hi; exact eff_uartTx hs
  | lineIn u b => cases hi; exact eff_lineIn hs
  | baudLoad u => cases hi; exact eff_baudLoad hs
  | fsmStepWaitSync u b => cases hi; exact eff_fsmWait hs
  | fsmStepAccumulate u b => cases hi; exact eff_fsmAcc hs
  | _ => cases hi

/-- Settles O57: an operation of one transport is a `PortEffect`, and `port_relays` says what that leaves. -/
theorem transportsAreIndependent : Obligations.TransportsAreIndependent := by
  unfold Obligations.TransportsAreIndependent
  intro i t u s s' hi hu hs
  obtain ⟨hports, hrest⟩ := port_relays (portEffect_of_actsFor hi hs)
  exact ⟨hports u hu, hrest⟩

end Sys2Proof.Machine
end

section
/-!
The memory rules (spec/20_memory.md): how many bytes a ring takes (R80), the order of the bytes out and in (R70), and the
configuration of a started block (R77).
-/

namespace Sys2Proof.Machine

/-! ### A ring and its capacity -/

theorem Ring.bytes_eq_nil {m : Nat} {r : Ring} (h : r.Ok m) (he : r.isEmpty = true) : r.bytes m = [] := by
  have hz := (Ring.isEmpty_iff h.inLt h.outLt).1 he
  exact List.eq_nil_of_length_eq_zero ((Ring.bytes_length m r).trans hz)

/-- `full(R)` by the bytes the ring holds (spec/20_memory.md R80). -/
theorem Ring.isFull_iff_length {m : Nat} {r : Ring} (hm : 2 ≤ m) (h : r.Ok m) :
    r.isFull m = true ↔ (r.bytes m).length = m - 1 := by
  rw [Ring.bytes_length]
  exact Ring.isFull_iff hm h.inLt h.outLt

/-- ENQ of bytes that fit into what is left of the `m - 1` places: they follow the bytes of the ring in order (R78). -/
theorem enqAll_ok {m : Nat} (hm : 2 ≤ m) (bs : List Byte) : ∀ {r : Ring}, r.Ok m → (r.bytes m).length + bs.length ≤ m - 1 →
    ∃ r', enqAll m r bs = .ok r' ∧ r'.Ok m ∧ r'.bytes m = r.bytes m ++ bs := by
  induction bs with
  | nil => exact fun {r} h _ => ⟨r, rfl, h, by simp⟩
  | cons b bs ih =>
    intro r h hfit
    rw [List.length_cons] at hfit
    have hroom : r.isFull m = false := by
      rw [← Bool.not_eq_true, Ring.isFull_iff_length hm h]
      omega
    obtain ⟨r1, e1, h1, hb1, -, -⟩ := Ring.enq_spec hm h hroom b
    obtain ⟨r2, e2, h2, hb2⟩ := ih h1 (by rw [hb1, List.length_append, List.length_singleton]; omega)
    exact ⟨r2, by simp only [enqAll, e1, e2], h2, by simp [hb2, hb1]⟩

/-- Settles O60: `enqAll_ok` from an empty ring; the bytes it then holds are the ones given. -/
theorem ringHoldsOneLessThanItsSlots : Obligations.RingHoldsOneLessThanItsSlots := by
  unfold Obligations.RingHoldsOneLessThanItsSlots
  intro m r bs hm h he hlen
  have hnil := Ring.bytes_eq_nil h he
  obtain ⟨r', e, h', hb⟩ := enqAll_ok hm bs h (by simpa [hnil] using hlen)
  rw [hnil, List.nil_append] at hb
  exact ⟨r', e, h', hb, by rw [Ring.isFull_iff_length hm h', hb]⟩

/-! ### One transport under any step -/

/-- What a step does to one transport, started or not, and which operation it can be; a step of the start sequence writes at most
the divisor (spec/70_reset_and_hazards.md R271). -/
theorem portStep_of_step {s s' : State} (hs : step s = .next s') (t : Transport) :
    ∃ o, PortStep s.params s.de (s.ctl (.listener (.serial t))) (s.boot == .running) t o (s.port t) (s'.port t) ∧
      OpOf s.chosen s o := by
  by_cases hb : s.boot = .running
  · have hrun := step_portStep hb hs t
    rwa [← beq_iff_eq.2 hb] at hrun
  · obtain ⟨-, -, -, -, hports⟩ := step_boot hb hs
    obtain ⟨n, hp⟩ := hports t
    rw [hp]
    exact ⟨none, .baud n (by simpa using hb), .none _ _⟩

/-! ### The bytes on their way out -/

/-- IRQ_TX moves the oldest bytes of the ring to the transmit register, in order (spec/40_ring_transport.md R128). -/
theorem Port.irqTxBody_txStream {c : Params} {p q : Port} (h : p.Ok c) (e : p.irqTxBody c = .ok q) :
    q.txStream c = p.txStream c := by
  obtain ⟨q', e', -, hq, hhw, hring, -, -⟩ := Port.irqTxBody_spec h
  obtain rfl : q = q' := Except.ok.inj (e.symm.trans e')
  have hline : q.txLine = p.txLine := by rw [hq]
  simp only [Port.txStream, hline, hhw, hring, List.append_assoc, List.take_append_drop]

/-- S_KICK moves at most the oldest byte of the ring to the transmit register (R126). -/
theorem Port.sKick_txStream {c : Params} {p q : Port} {r : SendRec} (h : p.Ok c) (hr : p.send = some r)
    (hph : r.phase = .sKick) (e : p.sKick c r = .ok q) : q.txStream c = p.txStream c := by
  obtain ⟨ring, hw, e', -, hbytes, -, -⟩ := Port.sKick_spec h hr hph
  obtain rfl := Except.ok.inj (e.symm.trans e')
  simp only [Port.txStream, List.append_assoc, hbytes]

/-- The stream out grows from `p` to `q` by the staged byte at the cursor of the send, which is in S_LOOP and moves on (R124). -/
def Port.Enqueues (c : Params) (p q : Port) : Prop :=
  ∃ r b, p.send = some r ∧ r.phase = .sLoop ∧ p.stage.lookup r.i = some b ∧ q.send = some { r with i := r.i + 1 } ∧
    q.txStream c = p.txStream c ++ [b]

/-- S_LOOP puts the staged byte at its cursor at the young end, or none (R124). -/
theorem Port.sLoop_txStream {c : Params} {p q : Port} {r : SendRec} (hc : c.wf) (h : p.Ok c) (hr : p.send = some r)
    (hph : r.phase = .sLoop) (e : p.sLoop c r = .ok q) : q.txStream c = p.txStream c ∨ p.Enqueues c q := by
  rcases Port.sLoop_spec hc h hr hph with ⟨-, e', -⟩ | ⟨-, -, e', -⟩ | ⟨-, -, b, ring, hstaged, e', -, hbytes, -⟩ <;>
    obtain rfl := Except.ok.inj (e.symm.trans e')
  · exact .inl rfl
  · exact .inl rfl
  · exact .inr ⟨r, b, hr, hph, hstaged, rfl, by simp only [Port.txStream, hbytes, List.append_assoc]⟩

/-- R70, transmit side: every step of a transport leaves the stream out, or enqueues. -/
theorem portStep_txStream {c d x st t o p q} (hc : c.wf) (hok : p.Ok c) (h : PortStep c d x st t o p q) :
    q.txStream c = p.txStream c ∨ p.Enqueues c q := by
  cases h with
  | uartTx b rest ho hhw => exact .inl (by simp [Port.txStream, hhw])
  | irqTx q ho h e => exact .inl (Port.irqTxBody_txStream hok e)
  | sLoop q r hr hph e => exact Port.sLoop_txStream hc hok hr hph e
  | sKick q r hr hph e => exact .inl (Port.sKick_txStream hok hr hph e)
  | mailbox =>
    rw [Port.rxToMailbox_spec]
    exact .inl rfl
  | ring q ho h m e =>
    obtain ⟨_, _, _, rfl⟩ := rxToRing_form _ e
    exact .inl rfl
  | stage q bs n h e =>
    obtain ⟨_, rfl⟩ := stage_form e
    exact .inl rfl
  | fsm q b e =>
    obtain ⟨_, _, _, _, rfl⟩ := fsm_form e
    exact .inl rfl
  | rTake q ho h e =>
    obtain ⟨_, _, _, _, _, rfl⟩ := rTake_form e
    exact .inl rfl
  | _ => exact .inl rfl

/-- Settles O53: `portStep_txStream` for the transport's part of the step. -/
theorem transmitIsFifo : Obligations.TransmitIsFifo := by
  unfold Obligations.TransmitIsFifo
  intro t s s' h hs
  obtain ⟨o, hp, -⟩ := portStep_of_step hs t
  rw [step_params hs]
  exact portStep_txStream h.params (h.ports t) hp

/-! ### The bytes on their way in -/

/-- DEQ takes the oldest byte (spec/20_memory.md R79). -/
theorem Ring.bytes_of_deq {m : Nat} {r r' : Ring} {b : Byte} (h : r.Ok m) (e : r.deq m = .ok (b, r')) :
    r.bytes m = b :: r'.bytes m := by
  by_cases he : r.isEmpty = true
  · simp [Ring.deq, he] at e
  · obtain ⟨b', r'', e', -, hb, -, -, -⟩ := Ring.deq_spec h (by simpa using he)
    obtain ⟨rfl, rfl⟩ := Prod.mk.inj (Except.ok.inj (e.symm.trans e'))
    exact hb

/-- R_TAKE takes the oldest byte of the RX ring (spec/40_ring_transport.md R138). -/
theorem Port.rTake_rxStream {c : Params} {p q : Port} (hmode : c.rxMode = .ring) (h : p.Ok c) (e : p.rTake c = .ok q) :
    ∃ b, p.rxStream c = b :: q.rxStream c := by
  unfold Port.rTake Port.takeByte at e
  rw [hmode] at e
  dsimp only at e
  split at e
  · cases e
  · cases hd : p.rxRing.deq c.rxn with
    | error f => simp [hd] at e
    | ok br =>
      obtain ⟨b, r⟩ := br
      rw [hd] at e
      obtain ⟨_, _, _, _, rfl⟩ := fsm_form e
      exact ⟨b, by simp [Port.rxStream, Ring.bytes_of_deq h.rx hd]⟩

/-- The stream in loses from `p` to `q` the bytes of the receive register that do not fit into the RX ring; the ring is full after it
and the overrun flag set (R135). -/
def Port.Overruns (c : Params) (p q : Port) : Prop :=
  p.rxStream c = q.rxStream c ++ p.rxHw.drop (c.rxn - 1 - p.rxRing.count c.rxn) ∧
    q.rxRing.isFull c.rxn = true ∧ q.rxOverrun = true

/-- IRQ_RX moves the receive register to the RX ring, in order, or overruns (R135). -/
theorem Port.rxToRing_rxStream {c : Params} {p q : Port} (hc : c.wf) (h : p.Ok c) (e : p.rxToRing c p.rxHw = .ok q) :
    q.rxStream c = p.rxStream c ∨ p.Overruns c q := by
  obtain ⟨q', e', hok', hq, hbytes, -, hover⟩ := Port.rxToRing_spec hc p.rxHw h
  obtain rfl : q = q' := Except.ok.inj (e.symm.trans e')
  have hhw : q.rxHw = [] := by rw [hq]
  by_cases hfit : p.rxHw.length ≤ c.rxn - 1 - p.rxRing.count c.rxn
  · exact .inl (by simp only [Port.rxStream, hhw, hbytes, List.take_of_length_le hfit, List.append_nil])
  · refine .inr ⟨?_, ?_, ?_⟩
    · simp only [Port.rxStream, hhw, hbytes, List.append_nil, List.append_assoc, List.take_append_drop]
    · have hcl := Ring.count_lt h.rx.inLt h.rx.outLt
      rw [Ring.isFull_iff_length hc.2.1 hok'.rx, hbytes, List.length_append, Ring.bytes_length, List.length_take]
      omega
    · rw [hover, decide_eq_true (by omega), Bool.or_true]

/-- R70, receive side in RING mode: every step of a transport leaves the stream in, takes its oldest byte by R_TAKE, puts the byte of
LINE_IN at its young end, or overruns by IRQ_RX. -/
theorem portStep_rxStream {c d x st t o p q} (hc : c.wf) (hmode : c.rxMode = .ring) (hok : p.Ok c)
    (h : PortStep c d x st t o p q) :
    q.rxStream c = p.rxStream c ∨
    (o = some (.readLine t) ∧ x = .read .take ∧ ∃ b, p.rxStream c = b :: q.rxStream c) ∨
    (∃ b, o = some (.lineIn t b) ∧ q.rxStream c = p.rxStream c ++ [b]) ∨
    (o = some (.irqRxRing t) ∧ p.Overruns c q) := by
  cases h with
  | lineIn b ho h => exact .inr (.inr (.inl ⟨b, ho, by simp [Port.rxStream]⟩))
  | rTake q ho hx e => exact .inr (.inl ⟨ho, hx, Port.rTake_rxStream hmode hok e⟩)
  | ring q ho h m e => exact (Port.rxToRing_rxStream hc hok e).imp id fun hover => .inr (.inr ⟨ho, hover⟩)
  | mailbox ho h m => exact absurd (hmode.symm.trans m) nofun
  | irqTx q ho h e =>
    obtain ⟨_, _, _, rfl⟩ := irqTxBody_form e
    exact .inl rfl
  | stage q bs n h e =>
    obtain ⟨_, rfl⟩ := stage_form e
    exact .inl rfl
  | sLoop q r h ph e =>
    obtain ⟨_, _, _, rfl⟩ := sLoop_form e
    exact .inl rfl
  | sKick q r h ph e =>
    obtain ⟨_, _, rfl⟩ := sKick_form e
    exact .inl rfl
  | fsm q b e =>
    obtain ⟨_, _, _, _, rfl⟩ := fsm_form e
    exact .inl rfl
  | _ => exact .inl rfl

/-- Settles O54: the four cases of `portStep_rxStream`, each with the agent that is chosen where its operation runs. -/
theorem receiveIsFifo : Obligations.ReceiveIsFifo := by
  unfold Obligations.ReceiveIsFifo
  intro t s s' h hmode hs
  obtain ⟨o, hp, ho⟩ := portStep_of_step hs t
  rw [step_params hs]
  rcases portStep_rxStream h.params hmode (h.ports t) hp with
    hsame | ⟨rfl, hx, b, hb⟩ | ⟨b, rfl, hb⟩ | ⟨rfl, hlost, hfull, hover⟩
  · exact ⟨[], (s.port t).rxStream s.params, [], [], by simp, by simpa using hsame, .inl rfl, .inl rfl, .inl rfl⟩
  · exact ⟨[b], (s'.port t).rxStream s.params, [], [], by simpa using hb, by simp,
      .inr ⟨rfl, ho.readLine t rfl, hx⟩, .inl rfl, .inl rfl⟩
  · exact ⟨[], (s.port t).rxStream s.params, [], [b], by simp, hb, .inl rfl, .inl rfl, .inr ⟨b, rfl, ho.lineIn t b rfl⟩⟩
  · exact ⟨[], (s'.port t).rxStream s.params, _, [], hlost, by simp, .inl rfl,
      .inr ⟨ho.irqRxRing t rfl, rfl, hfull, hover⟩, .inl rfl⟩

/-! ### The configuration -/

/-- In a started block no step of a transport writes its divisor (spec/10_state.md R35). -/
theorem portStep_baudDiv {c d x t o p q} (h : PortStep c d x true t o p q) : q.baudDiv = p.baudDiv := by
  cases h with
  | baud n h => cases h
  | irqTx q ho h e =>
    obtain ⟨_, _, _, rfl⟩ := irqTxBody_form e
    rfl
  | mailbox => rw [Port.rxToMailbox_spec]
  | ring q ho h m e =>
    obtain ⟨_, _, _, rfl⟩ := rxToRing_form _ e
    rfl
  | stage q bs n h e =>
    obtain ⟨_, rfl⟩ := stage_form e
    rfl
  | sLoop q r h ph e =>
    obtain ⟨_, _, _, rfl⟩ := sLoop_form e
    rfl
  | sKick q r h ph e =>
    obtain ⟨_, _, rfl⟩ := sKick_form e
    rfl
  | fsm q b e =>
    obtain ⟨_, _, _, _, rfl⟩ := fsm_form e
    rfl
  | rTake q ho h e =>
    obtain ⟨_, _, _, _, _, rfl⟩ := rTake_form e
    rfl
  | _ => rfl

/-- In a started block no step writes a divisor. -/
theorem Effect.baudDiv {o : Option Instr} {s s' : State} (h : Effect o s s') (hb : s.boot = .running) (t : Transport) :
    (s'.port t).baudDiv = (s.port t).baudDiv := by
  obtain ⟨⟨u, q, hp, hport⟩, -⟩ := eff_port h
  rw [hport]
  split
  next htu =>
    rw [beq_iff_eq.2 hb] at hp
    rw [htu, portStep_baudDiv hp]
  next => rfl

/-- Settles O56: `eff_port` for what is outside the transports, `Effect.baudDiv` for the divisors; a step of a started block is an
`Effect` once the choice is taken, which touches none of these fields. -/
theorem configurationIsFixed : Obligations.ConfigurationIsFixed := by
  unfold Obligations.ConfigurationIsFixed
  refine ⟨fun i s s' hs => ?_, fun s s' hb hs => ?_⟩
  · have he := eff_exec hs
    obtain ⟨-, hparams, hid, h485, h232, hcfg, hboot, -⟩ := eff_port he
    exact ⟨hparams, hid, h485, h232, hcfg, hboot, he.baudDiv⟩
  · obtain ⟨s0, o, ⟨l, n, a, rfl⟩, he, -⟩ := eff_step hb hs
    obtain ⟨-, hparams, hid, h485, h232, hcfg, hboot, -⟩ := eff_port he
    exact ⟨hparams, hid, h485, h232, hcfg, hboot.trans hb, fun t => by rw [he.baudDiv hb t, port_upd]⟩

end Sys2Proof.Machine
end

section
/-!
The encoding (spec/30_encoding.md): the row that the channel and the dataType of a frame select (R97, R103), the decoder on an encoded
row and on a header word, and what the step does with a table word that is placed for it (log 4).
-/

namespace Sys2Proof.Machine

/-! ### The row that a channel selects -/

section Route
variable {pf : ParsedFrame}

theorem route_wSys (h : channelIn 1 9 pf.channel = true) : route pf = .wSys pf.deviceID pf.channel pf.payload :=
  if_pos (channelIn_iff.1 h)

theorem route_wGpio (h : channelIn 11 19 pf.channel = true) : route pf = .wGpio pf.deviceID pf.channel pf.payload := by
  have hch := channelIn_iff.1 h
  rw [route, if_neg (by omega), if_pos hch]

theorem route_wRelay (h : channelIn 21 29 pf.channel = true) : route pf = .wRelay pf.deviceID pf.channel pf.payload := by
  have hch := channelIn_iff.1 h
  rw [route, if_neg (by omega), if_neg (by omega), if_pos hch]

theorem route_wRs232 (h : channelIn 31 39 pf.channel = true) : route pf = .wRs232 pf.deviceID pf.channel pf.payload := by
  have hch := channelIn_iff.1 h
  rw [route, if_neg (by omega), if_neg (by omega), if_neg (by omega), if_pos hch]

theorem route_wIr (h : channelIn 41 49 pf.channel = true) : route pf = .wIr pf.deviceID pf.channel pf.payload := by
  have hch := channelIn_iff.1 h
  rw [route, if_neg (by omega), if_neg (by omega), if_neg (by omega), if_neg (by omega), if_pos hch]

theorem route_wRs485 (h : pf.channel = 50#8) : route pf = .wRs485 pf.deviceID pf.payload := by
  simp [route, h]

/-- The unassigned channels by their numbers (spec/30_encoding.md R97, last row). -/
theorem channelUnassigned_iff {ch : Byte} : channelUnassigned ch = true ↔
    ch.toNat = 0 ∨ ch.toNat = 10 ∨ ch.toNat = 20 ∨ ch.toNat = 30 ∨ ch.toNat = 40 ∨ 51 ≤ ch.toNat := by
  rw [← not_iff_not]
  simp only [channelUnassigned, Bool.not_eq_true', Bool.not_eq_false, Bool.or_eq_true, channelIn_iff]
  omega

theorem route_wIgnore (h : channelUnassigned pf.channel = true) :
    route pf = .wIgnore pf.deviceID pf.channel pf.payload := by
  have hch := channelUnassigned_iff.1 h
  rw [route, if_neg (by omega), if_neg (by omega), if_neg (by omega), if_neg (by omega), if_neg (by omega),
    if_neg (by omega)]

theorem instrOf_write (h : pf.dataType = tyWrite) : instrOf pf = route pf := if_pos h

theorem instrOf_status (h : pf.dataType = tyStatus) : instrOf pf = .sIgnore pf.deviceID pf.channel pf.payload := by
  simp [instrOf, h, tyStatus, tyWrite]

theorem instrOf_other (hw : pf.dataType ≠ tyWrite) (hs : pf.dataType ≠ tyStatus) :
    instrOf pf = .xIgnore pf.deviceID pf.dataType pf.channel pf.payload := by
  rw [instrOf, if_neg hw, if_neg hs]

end Route

/-! ### The decoder on an encoded row -/

/-- `bytes` is a frame with at most 249 payload bytes whose fields select the row `i`. -/
def FrameOf (i : Instr) (bytes : List Byte) : Prop :=
  ∃ id ty ch p, p.length ≤ 249 ∧ bytes = frameBytes id ty ch p ∧ ∀ l, instrOf ⟨id, ty, ch, l, p⟩ = i

section FrameOf
variable {i : Instr} {b : Bool} {id ty ch localId : Byte} {p bytes : List Byte}

/-- `b` is what the row asks of its operands beside the payload. -/
theorem FrameOf.of_fields (hwf : (b && payloadOk p) = true) (he : some (frameBytes id ty ch p) = some bytes)
    (hi : b = true → ∀ l, instrOf ⟨id, ty, ch, l, p⟩ = i) : FrameOf i bytes := by
  obtain ⟨hb, hp⟩ := Bool.and_eq_true_iff.1 hwf
  exact ⟨id, ty, ch, p, of_decide_eq_true hp, (Option.some.inj he).symm, hi hb⟩

theorem FrameOf.of_write (hwf : (b && payloadOk p) = true) (he : some (frameBytes id tyWrite ch p) = some bytes)
    (hr : b = true → ∀ l, route ⟨id, tyWrite, ch, l, p⟩ = i) : FrameOf i bytes :=
  .of_fields hwf he fun hb l => (instrOf_write rfl).trans (hr hb l)

/-- The encoding of a well-formed received row is a frame whose fields select that row (R97, R103). -/
theorem FrameOf.of_encode (hwf : i.wellFormed = true) (he : encode localId i = some bytes)
    (hs : ∀ ch v, i ≠ .sStatus ch v) : FrameOf i bytes := by
  cases i with
  | wSys => exact .of_write hwf he fun hch _ => route_wSys hch
  | wGpio => exact .of_write hwf he fun hch _ => route_wGpio hch
  | wRelay => exact .of_write hwf he fun hch _ => route_wRelay hch
  | wRs232 => exact .of_write hwf he fun hch _ => route_wRs232 hch
  | wIr => exact .of_write hwf he fun hch _ => route_wIr hch
  | wRs485 => exact .of_write (b := true) hwf he fun _ _ => route_wRs485 rfl
  | wIgnore => exact .of_write hwf he fun hch _ => route_wIgnore hch
  | sIgnore => exact .of_fields (b := true) hwf he fun _ _ => instrOf_status rfl
  | xIgnore =>
    refine .of_fields hwf he fun hty _ => ?_
    obtain ⟨hwrite, hstatus⟩ := Bool.and_eq_true_iff.1 hty
    exact instrOf_other (by simpa [tyWrite] using hwrite) (by simpa [tyStatus] using hstatus)
  | sStatus ch v => exact absurd rfl (hs ch v)
  | _ => cases he

/-- The decoder reads a well-formed received row back from its encoding, whatever bytes follow. -/
theorem decode_encode (hwf : i.wellFormed = true) (he : encode localId i = some bytes) (hs : ∀ ch v, i ≠ .sStatus ch v)
    (rest : List Byte) : decode (bytes ++ rest) = .ok (i, rest) := by
  obtain ⟨id, ty, ch, p, hp, rfl, hi⟩ := FrameOf.of_encode hwf he hs
  rw [decode_frame _ _ _ _ _ hp, hi]

end FrameOf

/-- An emitted status frame is received as S.IGNORE (R103; spec/43_dispatch.md R202). -/
theorem decode_statusFrame (localId ch v : Byte) (rest : List Byte) :
    decode (statusFrame localId ch v ++ rest) = .ok (.sIgnore localId ch [v], rest) := by
  rw [statusFrame, decode_frame _ _ _ _ _ (by simp), instrOf_status rfl]

/-- Settles O10: `decode_encode` for the received rows, `decode_statusFrame` for the emitted one. -/
theorem decodeOfEncode : Obligations.DecodeOfEncode := by
  unfold Obligations.DecodeOfEncode
  intro i localId bytes rest hwf he
  refine ⟨fun ch v hi => ?_, fun hs => decode_encode hwf he hs rest⟩
  subst hi
  obtain rfl := Option.some.inj he
  exact decode_statusFrame localId ch v rest

/-- Settles O12: each frame is a closed list of bytes, on which the decoder is run. -/
theorem writtenFramesDecode : Obligations.WrittenFramesDecode := by
  unfold Obligations.WrittenFramesDecode
  decide

/-! ### The decoder on a table word -/

theorem decodeTableWord_eq_some {nbits w : Nat} {i : Instr} :
    decodeTableWord nbits w = some i ↔ ∃ rest, decode (wordBytes nbits w) = .ok (i, rest) := by
  unfold decodeTableWord
  rcases decode (wordBytes nbits w) with e | ⟨j, rest⟩ <;> simp

theorem decodeTableWord_eq_none {nbits w : Nat} :
    decodeTableWord nbits w = none ↔ ∃ e, decode (wordBytes nbits w) = .error e := by
  unfold decodeTableWord
  rcases decode (wordBytes nbits w) with e | ⟨j, rest⟩ <;> simp

/-- The header word of a frame (R103) stands for that frame without a payload. -/
theorem wordBytes_header (id ty ch : Byte) :
    wordBytes 32 (62 * 16777216 + id.toNat * 65536 + ty.toNat * 256 + ch.toNat) = frameBytes id ty ch [] := by
  rw [wordBytes, if_pos ⟨rfl, by omega⟩, word_frame]

/-- A header word decodes to the well-formed received row whose encoding has its deviceID, dataType and channel. -/
theorem decodeTableWord_header {i : Instr} {id ty ch : Byte} (hwf : i.wellFormed = true)
    (he : encode id i = some (frameBytes id ty ch [])) (hs : ∀ ch v, i ≠ .sStatus ch v) :
    decodeTableWord 32 (62 * 16777216 + id.toNat * 65536 + ty.toNat * 256 + ch.toNat) = some i := by
  refine decodeTableWord_eq_some.2 ⟨[], ?_⟩
  rw [wordBytes_header, ← List.append_nil (frameBytes id ty ch [])]
  exact decode_encode hwf he hs []

theorem decode_badSof {bytes : List Byte} {b : Byte} (h0 : bytes[0]? = some b) (hb : b ≠ sof) :
    ∃ e, decode bytes = .error e := by
  unfold decode
  split
  next b0 _ _ _ _ _ =>
    obtain rfl : b0 = b := by simpa using h0
    exact ⟨_, if_pos hb⟩
  next => exact ⟨_, rfl⟩

/-- A word whose byte 0 is not 62 is no row (R103). -/
theorem decodeTableWord_of_ne_sof {w : Nat} (h : w / 16777216 ≠ 62) : decodeTableWord 32 w = none := by
  rw [decodeTableWord_eq_none, wordBytes]
  split
  next hw =>
    refine decode_badSof (b := BitVec.ofNat 8 (w / 16777216)) rfl fun hb => h ?_
    have hn := congrArg BitVec.toNat hb
    simp only [BitVec.toNat_ofNat, sof] at hn
    omega
  next => exact ⟨_, rfl⟩

/-- Settles O11: each clause names a well-formed row whose encoding has the fields of the word (`decodeTableWord_header`). -/
theorem headerWordSelectsOneRow : Obligations.HeaderWordSelectsOneRow := by
  unfold Obligations.HeaderWordSelectsOneRow
  have hrow : ∀ {lo hi : Nat} {ch : Byte}, lo ≤ ch.toNat → ch.toNat ≤ hi → (channelIn lo hi ch && payloadOk []) = true :=
    fun hlo hhi => Bool.and_eq_true_iff.2 ⟨channelIn_iff.2 ⟨hlo, hhi⟩, rfl⟩
  refine ⟨fun id ty ch => ⟨fun hty hlo hhi => decodeTableWord_header (hrow hlo hhi) (hty ▸ rfl) nofun,
    fun hty hlo hhi => decodeTableWord_header (hrow hlo hhi) (hty ▸ rfl) nofun,
    fun hty hlo hhi => decodeTableWord_header (hrow hlo hhi) (hty ▸ rfl) nofun,
    fun hty hlo hhi => decodeTableWord_header (hrow hlo hhi) (hty ▸ rfl) nofun,
    fun hty hlo hhi => decodeTableWord_header (hrow hlo hhi) (hty ▸ rfl) nofun,
    fun hty hch => ?_, fun hty hch => ?_, fun hty => ?_, fun hwrite hstatus => ?_⟩, fun w => decodeTableWord_of_ne_sof⟩
  · obtain rfl : ch = 50#8 := BitVec.eq_of_toNat_eq hch
    exact decodeTableWord_header (i := .wRs485 id []) rfl (hty ▸ rfl) nofun
  · exact decodeTableWord_header (Bool.and_eq_true_iff.2 ⟨channelUnassigned_iff.2 hch, rfl⟩) (hty ▸ rfl) nofun
  · exact decodeTableWord_header (i := .sIgnore id ch []) rfl (hty ▸ rfl) nofun
  · exact decodeTableWord_header (i := .xIgnore id ty ch []) (by simp [Instr.wellFormed, payloadOk, hwrite, hstatus]) rfl
      nofun

/-! ### The step on a table word -/

theorem wordCtl_of_some {nbits w : Nat} {i : Instr} (h : decodeTableWord nbits w = some i) :
    wordCtl nbits w = .act (.cmd (parseFrame 0 (wordBytes nbits w))) := by
  simp [wordCtl, h]

theorem wordCtl_of_none {nbits w : Nat} (h : decodeTableWord nbits w = none) :
    wordCtl nbits w = .candidate (wordBytes nbits w) (wordBytes nbits w).length := by
  simp [wordCtl, h]

/-- The step after a word is placed is a step of LISTENER(NET) at the program point of the word, where R240 does not hold it back
(spec/60_exceptions.md R240). -/
theorem step_withFetchWord {s : State} (nbits w : Nat) (h : s.handlerEnabled = false) :
    step (s.withFetchWord nbits w) = taskStep (.listener .net)
      { s with boot := .running, ctlNet := wordCtl nbits w, cur := .listener .net } := by
  obtain ⟨hchosen, hafter⟩ := chosen_afterChoice (s := s.withFetchWord nbits w) (.inl ⟨s.sched, rfl, rfl⟩)
  rw [step_running rfl, hchosen, hafter]
  exact choiceStep_task (heldBack_eq_false (.inr h))

theorem taskStep_candidate {p : Path} {c : List Byte} {n : Nat} {s : State} (h : s.ctl (.listener p) = .candidate c n) :
    taskStep (.listener p) s = decideStep p c s := by
  simp [taskStep, h]

/-- N_DECIDE drops a datagram that NET_VALIDATE rejects (spec/43_dispatch.md R223). -/
theorem decideStep_net_of_rejected {c : List Byte} (h : netValidate c = false) (s : State) :
    decideStep .net c s = .next (s.setCtl (.listener .net) .idle) := by
  simp [decideStep, accepts, readsBeyond, h]

/-- Settles O47: `step_withFetchWord`, then L_ACT runs the row of the parsed frame (`decode_parse`), or N_DECIDE drops the word. -/
theorem stepRunsTheDecodedWord : Obligations.StepRunsTheDecodedWord := by
  unfold Obligations.StepRunsTheDecodedWord
  refine ⟨fun nbits w i s hword hfree => ?_, fun nbits w s hword hfree => ?_⟩
  · obtain ⟨rest, hdec⟩ := decodeTableWord_eq_some.1 hword
    obtain ⟨rfl, -⟩ := decode_parse hdec 0
    refine ⟨_, rfl, ?_⟩
    rw [step_withFetchWord nbits w hfree, wordCtl_of_some hword]
    exact taskStep_act (act := .cmd _) rfl
  · obtain ⟨e, hdec⟩ := decodeTableWord_eq_none.1 hword
    rw [step_withFetchWord nbits w hfree, wordCtl_of_none hword, taskStep_candidate rfl,
      decideStep_net_of_rejected (decode_err_net hdec)]
    rfl

end Sys2Proof.Machine
end

section
/-!
The transport of bytes (spec/40_ring_transport.md): the handlers (R128, R134, R135), the phases of a send (R122 to R127), the
phases of READ_LINE (R137, R138), and the operations that have no step (R140).
-/

namespace Sys2Proof.Machine

@[simp] theorem onPort_ok (s : State) (t : Transport) (q : Port) : s.onPort t (.ok q) = .next (s.setPort t q) := rfl

/-- No free value is used where `c` does not hold (log 15). -/
theorem draw_of_not (s : State) {c : Prop} [Decidable c] (h : ¬ c) : s.draw (decide c) = s := by
  simp [State.draw, h]

/-! ### The handlers -/

theorem Ring.inIdx_of_deq {m : Nat} {r r' : Ring} {b : Byte} (h : r.deq m = .ok (b, r')) : r'.inIdx = r.inIdx := by
  unfold Ring.deq at h
  split at h
  · cases h
  · split at h <;> cases h
    rfl

theorem Port.inIdx_of_moveTx {c : Params} {p q : Port} (h : p.moveTx c = .ok q) : q.txRing.inIdx = p.txRing.inIdx := by
  unfold Port.moveTx at h
  split at h
  · cases h
  next b r hdeq =>
    unfold Port.pushTx at h
    split at h <;> cases h
    exact Ring.inIdx_of_deq hdeq

/-- The drain does not touch `in` (spec/40_ring_transport.md R128). -/
theorem Port.inIdx_of_drain {c : Params} (k : Nat) : ∀ {p q : Port}, p.drain c k = .ok q →
    q.txRing.inIdx = p.txRing.inIdx := by
  induction k with
  | zero =>
    intro p q h
    cases h
    rfl
  | succ k ih =>
    intro p q h
    unfold Port.drain at h
    split at h
    · split at h
      · cases h
      next q' hmove => exact (ih h).trans (Port.inIdx_of_moveTx hmove)
    · cases h
      rfl

theorem Port.inIdx_of_irqTxBody {c : Params} {p q : Port} (h : p.irqTxBody c = .ok q) :
    q.txRing.inIdx = p.txRing.inIdx := by
  unfold Port.irqTxBody at h
  split at h
  · cases h
  next q' hdrain =>
    have hin := Port.inIdx_of_drain _ hdrain
    split at h <;> cases h <;> exact hin

/-- A ring that differs from another only in `out` and holds `k` bytes less has `out` advanced by `k` (spec/10_state.md R34). -/
theorem Ring.eq_advance {m k : Nat} {r r' : Ring} (hr : r.Ok m) (hr' : r'.Ok m) (hslots : r'.slots = r.slots)
    (hin : r'.inIdx = r.inIdx) (hcount : r'.count m + k = r.count m) :
    r' = { r with outIdx := (r.outIdx + k) % m } := by
  have hout : r'.outIdx = (r.outIdx + k) % m := by
    have ho := hr.outLt
    have ho' := hr'.outLt
    have hlt := Ring.count_lt hr.inLt ho
    rw [mod_small (by omega)]
    rw [Ring.count_eq hr.inLt ho, Ring.count_eq hr'.inLt ho', hin] at hcount
    split_ifs at hcount ⊢ <;> omega
  rw [← hslots, ← hin, ← hout]

/-- The body of the drain handler with its whole result (R128, R129). -/
theorem Port.irqTxBody_eq {c : Params} {p : Port} {k : Nat} (hc : c.wf) (h : p.Ok c)
    (hk : k = min (c.txHwDepth - p.txHw.length) (p.txRing.count c.n)) :
    p.irqTxBody c = .ok { p with
      threPend := false
      txHw := p.txHw ++ (p.txRing.bytes c.n).take k
      txRing := { p.txRing with outIdx := (p.txRing.outIdx + k) % c.n }
      room := if k = 0 ∧ p.txRing.count c.n = c.n - 1 then p.room else p.room + 1 } := by
  obtain ⟨q, e, hok, hq, hhw, hbytes, hslots, hroom⟩ := Port.irqTxBody_spec h
  have hcount : q.txRing.count c.n + k = p.txRing.count c.n := by
    have hlen := congrArg List.length hbytes
    rw [List.length_drop, Ring.bytes_length, Ring.bytes_length] at hlen
    omega
  have hring := Ring.eq_advance h.tx hok.tx hslots (Port.inIdx_of_irqTxBody e) hcount
  have hfull : q.txRing.isFull c.n = true ↔ k = 0 ∧ p.txRing.count c.n = c.n - 1 := by
    have hlt := Ring.count_lt h.tx.inLt h.tx.outLt
    rw [Ring.isFull_iff hc.1 hok.tx.inLt hok.tx.outLt]
    omega
  simp only [hfull] at hroom
  rw [List.take_eq_take_min, Ring.bytes_length, ← hk] at hhw
  rw [e, hq, hring, hhw, hroom]

theorem irqTxEnabled_of {p : Port} (hpend : p.threPend = true) (htx : p.maskTx = false) (hrx : p.maskRx = false) :
    p.irqTxEnabled = true := by
  simp [Port.irqTxEnabled, Port.masked, hpend, htx, hrx]

theorem irqRxEnabled_of {p : Port} (hhw : p.rxHw ≠ []) (htx : p.maskTx = false) (hrx : p.maskRx = false) :
    p.irqRxEnabled = true := by
  simp [Port.irqRxEnabled, Port.rxAvail, Port.masked, List.length_pos_iff, hhw, htx, hrx]

section TakenHandler
variable {t : Transport} {s : State}

/-- A handler that is enabled runs its body on the transport (spec/60_exceptions.md R246). -/
theorem exec_irqTx_of_enabled (h : (s.port t).irqTxEnabled = true) :
    exec (.irqTx t) s = s.onPort t ((s.port t).irqTxBody s.params) := by
  simp [exec, execIrqTx, takeInterrupt, h]

theorem exec_irqRxMailbox_of_enabled (h : (s.port t).irqRxEnabled = true) (hmode : s.params.rxMode = .mailbox) :
    exec (.irqRxMailbox t) s = .next (s.setPort t ((s.port t).rxToMailbox (s.port t).rxHw)) := by
  simp [exec, execIrqRxMailbox, takeInterrupt, h, hmode]

theorem exec_irqRxRing_of_enabled (h : (s.port t).irqRxEnabled = true) (hmode : s.params.rxMode = .ring) :
    exec (.irqRxRing t) s = s.onPort t ((s.port t).rxToRing s.params (s.port t).rxHw) := by
  simp [exec, execIrqRxRing, takeInterrupt, h, hmode]

end TakenHandler

/-- Settles O32: `Port.irqTxBody_eq`, the drain loop counted by the bytes that leave the ring. -/
theorem drainMovesOldestBytes : Obligations.DrainMovesOldestBytes := by
  unfold Obligations.DrainMovesOldestBytes
  intro t s hc h hpend htx hrx p R N k
  rw [exec_irqTx_of_enabled (irqTxEnabled_of hpend htx hrx), Port.irqTxBody_eq hc h rfl, onPort_ok]

/-- Settles O33: `Port.rxToMailbox_spec`; the last byte of `older ++ [b]` is `b`. -/
theorem mailboxKeepsTheLastByte : Obligations.MailboxKeepsTheLastByte := by
  unfold Obligations.MailboxKeepsTheLastByte
  intro t older b s hmode hhw htx hrx
  rw [exec_irqRxMailbox_of_enabled (irqRxEnabled_of (by simp [hhw]) htx hrx) hmode, Port.rxToMailbox_spec, hhw]
  simp [Nat.add_assoc]

/-! ### ENQ and DEQ by the slots -/

/-- ENQ writes the slot at `in` and advances `in` (spec/20_memory.md R78). -/
theorem Ring.enq_eq {m : Nat} {r : Ring} (h : r.inIdx < m) (b : Byte) :
    r.enq m b = .ok { r with slots := r.slots.insert r.inIdx b, inIdx := (r.inIdx + 1) % m } := by
  simp [Ring.enq, Memory.write, h]

/-- DEQ returns the byte of the slot at `out` and advances `out` (R79). -/
theorem Ring.deq_eq {m : Nat} {r : Ring} {b : Byte} (hne : r.inIdx ≠ r.outIdx) (h : r.outIdx < m)
    (hb : r.slots.lookup r.outIdx = some b) : r.deq m = .ok (b, { r with outIdx := (r.outIdx + 1) % m }) := by
  simp [Ring.deq, Ring.isEmpty, hne, Memory.read_ok.2 ⟨h, hb⟩]

/-- ENQ of at most `m` bytes: byte `j` stands in the slot `j` places after `in`, every other slot is as before. -/
theorem enqAll_slots {m : Nat} (bs : List Byte) : ∀ {r : Ring}, r.inIdx < m → bs.length ≤ m →
    ∃ sl, enqAll m r bs = .ok { slots := sl, inIdx := (r.inIdx + bs.length) % m, outIdx := r.outIdx } ∧
      (∀ j, j < bs.length → sl.lookup ((r.inIdx + j) % m) = bs[j]?) ∧
      ∀ a, (∀ j, j < bs.length → a ≠ (r.inIdx + j) % m) → sl.lookup a = r.slots.lookup a := by
  induction bs with
  | nil => exact fun {r} h _ => ⟨r.slots, by simp [enqAll, Nat.mod_eq_of_lt h], nofun, fun _ _ => rfl⟩
  | cons b bs ih =>
    intro r h hlen
    rw [List.length_cons] at hlen
    have hnext : ∀ j, ((r.inIdx + 1) % m + j) % m = (r.inIdx + (j + 1)) % m := fun j => by
      rw [Nat.mod_add_mod, Nat.add_assoc, Nat.add_comm 1 j]
    obtain ⟨sl, e, hnew, hold⟩ := ih (r := { r with slots := r.slots.insert r.inIdx b, inIdx := (r.inIdx + 1) % m })
      (Nat.mod_lt _ (by omega)) (by omega)
    simp only [hnext] at e hnew hold
    have hfirst : sl.lookup r.inIdx = some b := by
      rw [hold r.inIdx, Memory.lookup_insert_self]
      intro j hj
      rw [mod_small (by omega)]
      split <;> omega
    refine ⟨sl, by simp only [enqAll, Ring.enq_eq h, e, List.length_cons], fun j hj => ?_, fun a ha => ?_⟩
    · cases j with
      | zero => rw [Nat.add_zero, Nat.mod_eq_of_lt h, hfirst, List.getElem?_cons_zero]
      | succ j => rw [hnew j (by simpa using hj), List.getElem?_cons_succ]
    · have hne : a ≠ r.inIdx := by simpa [Nat.mod_eq_of_lt h] using ha 0 (by simp)
      rw [hold a fun j hj => ha (j + 1) (by simpa using hj), Memory.lookup_insert, if_neg hne]

/-- IRQ_RX in RING mode puts into the ring exactly the bytes that fit (spec/40_ring_transport.md R135). -/
theorem Port.enqAll_of_rxToRing {c : Params} (hc : c.wf) (bs : List Byte) : ∀ {p q : Port}, p.rxRing.Ok c.rxn →
    p.rxToRing c bs = .ok q →
    enqAll c.rxn p.rxRing (bs.take (c.rxn - 1 - p.rxRing.count c.rxn)) = .ok q.rxRing := by
  induction bs with
  | nil =>
    intro p q h e
    cases e
    rw [List.take_nil]
    rfl
  | cons b bs ih =>
    intro p q h e
    have hfull := Ring.isFull_iff hc.2.1 h.inLt h.outLt
    unfold Port.rxToRing at e
    split at e
    next hf =>
      have hin := ih (p := { p with rxOverrun := true }) h e
      rw [hfull.1 hf, Nat.sub_self, List.take_zero] at hin ⊢
      exact hin
    next hf =>
      obtain ⟨r, henq, hr, -, hcount, -⟩ := Ring.enq_spec hc.2.1 h (Bool.eq_false_iff.2 hf) b
      rw [henq] at e
      have hin := ih (p := { p with rxRing := r, ready := p.ready + 1 }) hr e
      have hlt := Ring.count_lt h.inLt h.outLt
      have hroom : c.rxn - 1 - p.rxRing.count c.rxn = c.rxn - 1 - r.count c.rxn + 1 := by
        have := mt hfull.2 hf
        omega
      rw [hroom, List.take_succ_cons, enqAll, henq]
      exact hin

/-- The body of IRQ_RX in RING mode with its whole result (R135). -/
theorem Port.rxToRing_eq {c : Params} {p : Port} {bs : List Byte} {k : Nat} (hc : c.wf) (h : p.Ok c)
    (hk : k = min bs.length (c.rxn - 1 - p.rxRing.count c.rxn)) :
    ∃ sl, p.rxToRing c bs = .ok { p with
        rxHw := []
        rxRing := { slots := sl, inIdx := (p.rxRing.inIdx + k) % c.rxn, outIdx := p.rxRing.outIdx }
        ready := p.ready + k
        rxOverrun := p.rxOverrun || decide (k < bs.length) } ∧
      (∀ j, j < k → sl.lookup ((p.rxRing.inIdx + j) % c.rxn) = bs[j]?) ∧
      ∀ a, (∀ j, j < k → a ≠ (p.rxRing.inIdx + j) % c.rxn) → sl.lookup a = p.rxRing.slots.lookup a := by
  obtain ⟨q, e, -, hq, hbytes, hcount, hover⟩ := Port.rxToRing_spec hc bs h
  have hlen : (bs.take (c.rxn - 1 - p.rxRing.count c.rxn)).length = k := by rw [List.length_take, hk, Nat.min_comm]
  obtain ⟨sl, henq, hnew, hold⟩ := enqAll_slots (bs.take (c.rxn - 1 - p.rxRing.count c.rxn)) h.rx.inLt (by omega)
  rw [hlen] at henq hnew hold
  have hring := Except.ok.inj ((Port.enqAll_of_rxToRing hc bs h.rx e).symm.trans henq)
  have hready : q.ready = p.ready + k := by
    have hgrown := congrArg List.length hbytes
    rw [List.length_append, Ring.bytes_length, Ring.bytes_length, hlen] at hgrown
    omega
  have hlost : decide (c.rxn - 1 - p.rxRing.count c.rxn < bs.length) = decide (k < bs.length) := by
    rw [decide_eq_decide]
    omega
  refine ⟨sl, by rw [e, hq, hring, hready, hover, hlost], fun j hj => ?_, hold⟩
  rw [hnew j hj, List.getElem?_take_of_lt (by omega)]

/-- Settles O34: `Port.rxToRing_eq` for the bytes of the receive register. -/
theorem ringTakesTheBytesThatFit : Obligations.RingTakesTheBytesThatFit := by
  unfold Obligations.RingTakesTheBytesThatFit
  intro t s hc h hmode hhw htx hrx p R M k
  obtain ⟨sl, e, hnew, hold⟩ := Port.rxToRing_eq (bs := p.rxHw) hc h rfl
  exact ⟨sl, by rw [exec_irqRxRing_of_enabled (irqRxEnabled_of hhw htx hrx) hmode, e, onPort_ok], hnew, hold⟩

/-! ### The phases of a send -/

/-- S_STAGE has a step while the lock is held and no send is in progress (spec/40_ring_transport.md R140; log 13). -/
theorem Port.canStage_iff {p : Port} : p.canStage = true ↔ p.txLock ≠ .free ∧ p.send = none := by
  simp [Port.canStage]

/-- What SEND_LINE asks of the length byte and the declared length; the bytes that are not there are free ones (log 15). -/
theorem sendLineOk_operandBytes {k n : Nat} {frame : List Byte} {l : Byte} (h4 : frame[4]? = some l) (hl : l.toNat ≤ 249)
    (hn : n = l.toNat + 6) : sendLineOk (operandBytes k frame n) n = true := by
  have hbyte : (operandBytes k frame n)[4]? = some l := by
    rw [operandBytes_getElem? (by omega), byteAt_of_getElem? h4]
  simp [sendLineOk, hbyte, hl, ← hn]

/-- S_STAGE on a port: the bytes stand in the staging area, the claim is taken, the emptiness of the ring sampled (R122, R123). -/
theorem Port.stageBytes_eq (p : Port) {bytes : List Byte} (n : Nat) (h : bytes.length ≤ 255) :
    ∃ m, p.stage.writeRun stageCap 0 bytes = .ok m ∧
      p.stageBytes bytes n = .ok { p with
        stage := m
        maskTx := true
        send := some { n := n, i := 0, phase := .sLoop, wasEmpty := decide (p.txRing.inIdx = p.txRing.outIdx) } } ∧
      ∀ a, m.lookup a = if a < bytes.length then bytes[a]? else p.stage.lookup a := by
  obtain ⟨m, e, -, hm⟩ := Memory.writeRun_ok stageCap bytes p.stage 0 (by simpa [stageCap] using h)
  refine ⟨m, e, ?_, by simpa using hm⟩
  simp only [Port.stageBytes, e]
  rfl

/-- After a run of writes of the first `n` bytes of an operand, index `a < n` holds byte `a` of the operand. -/
theorem Memory.lookup_of_take {b : List Byte} {n : Nat} {m old : Memory} (hn : n ≤ b.length)
    (h : ∀ a, m.lookup a = if a < (b.take n).length then (b.take n)[a]? else old.lookup a) (a : Nat) :
    m.lookup a = if a < n then b[a]? else old.lookup a := by
  rw [h a, List.length_take_of_le hn]
  split
  next ha => rw [List.getElem?_take_of_lt ha]
  next => rfl

/-- Settles O26: `Port.stageBytes_eq`; the count read back from staged byte 4 is the declared one. -/
theorem sendLineStages : Obligations.SendLineStages := by
  unfold Obligations.SendLineStages
  intro t frame n l s h4 hl hn hlen hlock hsend
  have hle : (frame.take n).length ≤ 255 := by
    rw [List.length_take_of_le hlen]
    omega
  obtain ⟨m, hrun, hstage, hm⟩ := Port.stageBytes_eq (s.port t) n hle
  have hm := Memory.lookup_of_take hlen hm
  have hread : m.read stageCap 4 = .ok l :=
    Memory.read_ok.2 ⟨by decide, by rw [hm, if_pos (by omega), h4]⟩
  have hok := sendLineOk_operandBytes (k := s.tick) h4 hl hn
  rw [operandBytes_of_le hlen] at hok
  refine ⟨m, ?_, hm⟩
  simp only [exec, execSendLine, operandBytes_of_le hlen, hok, Port.canStage_iff.2 ⟨hlock, hsend⟩, hrun, hread, ← hn, hstage,
    draw_of_not s (Nat.not_lt.2 hlen), if_true, onPort_ok]

/-- Settles O27: `Port.stageBytes_eq` for the first `m` bytes. -/
theorem sendRawStages : Obligations.SendRawStages := by
  unfold Obligations.SendRawStages
  intro t bytes m s hm hlen hlock hsend
  have hle : (bytes.take m).length ≤ 255 := by
    rw [List.length_take_of_le hlen]
    omega
  obtain ⟨st, -, hstage, hst⟩ := Port.stageBytes_eq (s.port t) m hle
  refine ⟨st, ?_, Memory.lookup_of_take hlen hst⟩
  have hmax : m ≤ maxPayload := hm
  simp only [exec, execSendRaw, hmax, operandBytes_of_le hlen, Port.canStage_iff.2 ⟨hlock, hsend⟩, hstage,
    draw_of_not s (Nat.not_lt.2 hlen), if_true, onPort_ok]

section SendInProgress
variable {t : Transport} {r : SendRec} {s : State}

theorem exec_sendSLoop (hr : (s.port t).send = some r) (hph : r.phase = .sLoop) :
    exec (.sendSLoop t) s = s.onPort t ((s.port t).sLoop s.params r) := by
  simp [exec, execSendSLoop, hr, hph]

theorem exec_sendSKick (hr : (s.port t).send = some r) (hph : r.phase = .sKick) :
    exec (.sendSKick t) s = s.onPort t ((s.port t).sKick s.params r) := by
  simp [exec, execSendSKick, hr, hph]

theorem exec_sendSExit (hr : (s.port t).send = some r) (hph : r.phase = .sExit) : exec (.sendSExit t) s =
    .next ((s.setPort t { s.port t with maskTx := false, send := none }).returnFromSend t) := by
  simp [exec, execSendSExit, hr, hph, Port.dropTx]

end SendInProgress

section SLoop
variable {c : Params} {p : Port} {r : SendRec}

theorem Port.sLoop_of_done (hmask : p.maskTx = true) (hi : r.i = r.n) :
    p.sLoop c r = .ok { p with send := some { r with phase := .sKick } } := by
  simp [Port.sLoop, hmask, hi]

theorem Port.sLoop_of_full (hmask : p.maskTx = true) (hi : r.i ≠ r.n)
    (hfull : (p.txRing.inIdx + 1) % c.n = p.txRing.outIdx) :
    p.sLoop c r = .ok { p with maskTx := false, send := some { r with phase := .sWait } } := by
  simp [Port.sLoop, hmask, hi, Ring.isFull, hfull, Port.dropTx]

theorem Port.sLoop_of_room {b : Byte} (hmask : p.maskTx = true) (hi : r.i ≠ r.n)
    (hroom : (p.txRing.inIdx + 1) % c.n ≠ p.txRing.outIdx) (hle : r.i ≤ 254) (hb : p.stage.lookup r.i = some b)
    (hin : p.txRing.inIdx < c.n) :
    p.sLoop c r = .ok { p with
      txRing := { p.txRing with
        slots := p.txRing.slots.insert p.txRing.inIdx b
        inIdx := (p.txRing.inIdx + 1) % c.n }
      send := some { r with i := r.i + 1 } } := by
  have hread : p.stage.read stageCap r.i = .ok b := Memory.read_ok.2 ⟨Nat.lt_succ_of_le hle, hb⟩
  simp [Port.sLoop, hmask, hi, Ring.isFull, hroom, hread, Ring.enq_eq hin]

end SLoop

/-- Settles O28: the three branches of S_LOOP (R124). -/
theorem sendLoopEnqueues : Obligations.SendLoopEnqueues := by
  unfold Obligations.SendLoopEnqueues
  intro t r s hr hph hmask p R N
  rw [exec_sendSLoop hr hph]
  refine ⟨fun hi => ?_, fun hi hfull => ?_, fun b hi hroom hle hb hin => ?_⟩
  · rw [Port.sLoop_of_done hmask hi, onPort_ok]
  · rw [Port.sLoop_of_full hmask hi hfull, onPort_ok]
  · rw [Port.sLoop_of_room hmask hi hroom hle hb hin, onPort_ok]
    exact ⟨_, rfl, fun a => Memory.lookup_insert ..⟩

theorem Port.waitRoom_of_pos {p : Port} (h : 0 < p.room) : p.waitRoom = some { p with room := p.room - 1 } :=
  if_neg (Nat.ne_of_gt h)

theorem Port.waitRoom_of_zero {p : Port} (h : p.room = 0) : p.waitRoom = none := if_pos h

/-- Settles O29: R125 by the phase and the count of `ROOM`. -/
theorem sendWaitsForRoom : Obligations.SendWaitsForRoom := by
  unfold Obligations.SendWaitsForRoom
  intro t r s hr
  refine ⟨fun hph hroom => ?_, fun hph hroom => ?_, fun hph => ?_⟩ <;> simp only [exec, execSendSWait, hr, hph]
  · rw [Port.waitRoom_of_pos hroom]
  · rw [Port.waitRoom_of_zero hroom, noStep]
  · rfl

section SKick
variable {c : Params} {p : Port} {r : SendRec}

/-- The condition of the kick (R126). -/
theorem Port.kick_iff : (r.wasEmpty && p.txCanAccept c && !p.txRing.isEmpty) = true ↔
    r.wasEmpty = true ∧ p.txHw.length < c.txHwDepth ∧ p.txRing.inIdx ≠ p.txRing.outIdx := by
  simp [Port.txCanAccept, Ring.isEmpty, and_assoc]

theorem Port.sKick_of_moves {b : Byte} (hmask : p.maskTx = true) (hempty : r.wasEmpty = true)
    (hroom : p.txHw.length < c.txHwDepth) (hne : p.txRing.inIdx ≠ p.txRing.outIdx) (hout : p.txRing.outIdx < c.n)
    (hb : p.txRing.slots.lookup p.txRing.outIdx = some b) :
    p.sKick c r = .ok { p with
      txRing := { p.txRing with outIdx := (p.txRing.outIdx + 1) % c.n }
      txHw := p.txHw ++ [b]
      send := some { r with phase := .sExit } } := by
  unfold Port.sKick
  rw [if_neg (by simp [hmask]), if_pos (Port.kick_iff.2 ⟨hempty, hroom, hne⟩)]
  simp [Port.moveTx, Ring.deq_eq hne hout hb, Port.pushTx, Port.txCanAccept, hroom]

theorem Port.sKick_of_not (hmask : p.maskTx = true)
    (h : r.wasEmpty = false ∨ c.txHwDepth ≤ p.txHw.length ∨ p.txRing.inIdx = p.txRing.outIdx) :
    p.sKick c r = .ok { p with send := some { r with phase := .sExit } } := by
  unfold Port.sKick
  rw [if_neg (by simp [hmask]), if_neg]
  rw [Port.kick_iff]
  rintro ⟨hempty, hroom, hne⟩
  rcases h with hfalse | hbusy | heq
  · exact absurd (hfalse.symm.trans hempty) nofun
  · omega
  · exact hne heq

end SKick

/-- Settles O30: the two branches of S_KICK (R126). -/
theorem sendKicksOneByte : Obligations.SendKicksOneByte := by
  unfold Obligations.SendKicksOneByte
  intro t r s hr hph hmask p R
  rw [exec_sendSKick hr hph]
  refine ⟨fun b hempty hroom hne hout hb => ?_, fun h => ?_⟩
  · rw [Port.sKick_of_moves hmask hempty hroom hne hout hb, onPort_ok]
  · rw [Port.sKick_of_not hmask h, onPort_ok]

section Return
variable {t : Transport} {s : State} {a : TaskId}

/-- The return of a send of W.RS232 (spec/43_dispatch.md R208). -/
theorem returnFromSend_fwd {b : List Byte} (hlock : (s.port t).txLock = .held a) (hctl : s.ctl a = .act (.fwd t .send b)) :
    s.returnFromSend t = s.setCtl a (.act (.fwd t .free b)) := by
  simp [State.returnFromSend, hlock, hctl]

/-- The return of a send of RS485_TX (R213). -/
theorem returnFromSend_bus {k : TxKind} {b : List Byte} {m : Nat} (hlock : (s.port .rs485).txLock = .held a)
    (hctl : s.ctl a = .act (.bus .send k b m)) : s.returnFromSend .rs485 = s.setCtl a (.act (.bus .post k b m)) := by
  simp [State.returnFromSend, hlock, hctl]

/-- No task moves where the lock has no holder at a send on t (log 33). -/
theorem returnFromSend_of_not (h : ∀ a, (s.port t).txLock = .held a → (s.ctl a).sendsOn t = false) :
    s.returnFromSend t = s := by
  unfold State.returnFromSend
  split
  next => rfl
  next a hlock =>
    have hno := h a hlock
    split
    next u b hctl =>
      rw [if_neg]
      rintro rfl
      simp [hctl, Ctl.sendsOn] at hno
    next k b m hctl =>
      rw [if_neg]
      rintro rfl
      simp [hctl, Ctl.sendsOn] at hno
    next => rfl

end Return

/-- Settles O31: the return by the program point of the lock's holder. -/
theorem sendExitReturnsToCaller : Obligations.SendExitReturnsToCaller := by
  unfold Obligations.SendExitReturnsToCaller
  intro t r s hr hph s1
  rw [exec_sendSExit hr hph]
  refine ⟨fun a b hlock hctl => ?_, fun a k b m ht hlock hctl => ?_, fun h => ?_⟩
  · rw [returnFromSend_fwd (by simpa using hlock) (by simpa using hctl)]
  · subst ht
    rw [returnFromSend_bus (by simpa using hlock) (by simpa using hctl)]
  · rw [returnFromSend_of_not (by simpa using h)]

/-! ### The phases of READ_LINE -/

theorem exec_readLine {t : Transport} {ph : ReadPhase} {s : State} (h : s.ctl (.listener (.serial t)) = .read ph) :
    exec (.readLine t) s = readStep t ph s := by
  simp [exec, execReadLine, h]

theorem Port.waitReady_of_pos {p : Port} (h : 0 < p.ready) : p.waitReady = some { p with ready := p.ready - 1 } :=
  if_neg (Nat.ne_of_gt h)

theorem Port.waitReady_of_zero {p : Port} (h : p.ready = 0) : p.waitReady = none := if_pos h

section ReadStep
variable {t : Transport} {s : State}

theorem readStep_wait_of_pos (h : 0 < (s.port t).ready) : readStep t .wait s =
    .next ((s.setPort t { s.port t with ready := (s.port t).ready - 1 }).setCtl (.listener (.serial t))
      (.read .remask)) := by
  simp only [readStep, Port.waitReady_of_pos h]

theorem readStep_wait_of_zero (h : (s.port t).ready = 0) : readStep t .wait s = .next s := by
  simp only [readStep, Port.waitReady_of_zero h, noStep]

theorem readStep_take {q : Port} (h : (s.port t).rTake s.params = .ok q) : readStep t .take s =
    .next ((s.setPort t q).setCtl (.listener (.serial t)) (.read (if q.fsm = .done then .exit else .unmask))) := by
  simp only [readStep, h]

theorem readStep_exit {x : List Byte} (h : (s.port t).rxBuf.readRun rxBufCap 0 (s.port t).total = .ok x) :
    readStep t .exit s = .next ((s.setPort t { s.port t with maskRx := false }).setCtl (.listener (.serial t))
      (.candidate x (s.port t).total)) := by
  simp only [readStep, h, Port.dropRx]

end ReadStep

/-- Settles O36: `readStep` at each phase (R137); R_EXIT reads the stored bytes in order (`Memory.readRun_ok`). -/
theorem readLinePhases : Obligations.ReadLinePhases := by
  unfold Obligations.ReadLinePhases
  intro t s a p
  refine ⟨fun h => ?_, fun h => ?_, fun h hready => ?_, fun h hready => ?_, fun h => ?_, fun h htotal hwritten => ?_⟩ <;>
    rw [exec_readLine h]
  · rfl
  · rfl
  · exact readStep_wait_of_pos hready
  · exact readStep_wait_of_zero hready
  · rfl
  · obtain ⟨x, hrun, hlen, hx⟩ := Memory.readRun_ok rxBufCap p.rxBuf p.total 0 (by simpa [rxBufCap] using htotal)
      (by simpa using hwritten)
    exact ⟨x, readStep_exit hrun, hlen, by simpa using hx⟩

/-- R_TAKE under the reader's claim is FSM_STEP on the byte taken (R137, R138). -/
theorem Port.rTake_eq {c : Params} {p p' : Port} {b : Byte} (hmask : p.maskRx = true)
    (htake : p.takeByte c = .ok (b, p')) : p.rTake c = p'.fsmStep b := by
  simp [Port.rTake, hmask, htake]

/-- Settles O37: the byte is taken from the mailbox or the ring, and R_TAKE and `feed` both make the reassembler's step with it. -/
theorem takeFeedsTheReassembler : Obligations.TakeFeedsTheReassembler := by
  unfold Obligations.TakeFeedsTheReassembler
  intro t b p' s hctl hmask hpos htake
  obtain ⟨hbyte, hpos'⟩ : (s.port t).takeByte s.params = .ok (b, p') ∧ (p'.fsm = .accumulate → p'.pos ≤ 254) := by
    rcases htake with ⟨hmode, rfl, rfl⟩ | ⟨hmode, hne, hout, hb, rfl⟩
    · exact ⟨by simp [Port.takeByte, hmode], hpos⟩
    · exact ⟨by simp [Port.takeByte, hmode, Ring.deq_eq hne hout hb], hpos⟩
  obtain ⟨q, hstep⟩ := fsm_total p' b hpos'
  refine ⟨q, ?_, ?_⟩
  · rw [feed_single t b (s.setPort t p') q (by rwa [port_setPort_self]), setPort_setPort]
  · rw [exec_readLine hctl, readStep_take ((Port.rTake_eq hmask hbyte).trans hstep)]

/-! ### Operations that are not enabled -/

section NotEnabled
variable {t : Transport} {s : State}

theorem Port.canStage_eq_false {p : Port} (h : p.txLock = .free ∨ p.send ≠ none) : p.canStage = false := by
  rw [← Bool.not_eq_true, Port.canStage_iff]
  exact fun ⟨hlock, hsend⟩ => h.elim hlock (absurd hsend)

theorem exec_sendLine_of_not {frame : List Byte} {n : Nat} {l : Byte} (hstage : (s.port t).canStage = false)
    (h4 : frame[4]? = some l) (hl : l.toNat ≤ 249) (hn : n = l.toNat + 6) : exec (.sendLine t frame n) s = .next s := by
  simp [exec, execSendLine, sendLineOk_operandBytes h4 hl hn, hstage, noStep]

theorem exec_sendRaw_of_not {bytes : List Byte} {m : Nat} (hstage : (s.port t).canStage = false) (hm : m ≤ 249) :
    exec (.sendRaw t bytes m) s = .next s := by
  simp [exec, execSendRaw, maxPayload, hm, hstage, noStep]

theorem exec_sendSLoop_of_not (h : ∀ r, (s.port t).send = some r → r.phase ≠ .sLoop) :
    exec (.sendSLoop t) s = .next s := by
  simp only [exec, execSendSLoop]
  split
  next r hr => exact if_neg (h r hr)
  next => rfl

theorem exec_sendSWait_of_not (h : ∀ r, (s.port t).send = some r → r.phase ≠ .sWait ∧ r.phase ≠ .sRemask) :
    exec (.sendSWait t) s = .next s := by
  simp only [exec, execSendSWait]
  split
  next r hr =>
    obtain ⟨hwait, hremask⟩ := h r hr
    cases hph : r.phase with
    | sWait => exact absurd hph hwait
    | sRemask => exact absurd hph hremask
    | _ => rfl
  next => rfl

theorem exec_sendSKick_of_not (h : ∀ r, (s.port t).send = some r → r.phase ≠ .sKick) :
    exec (.sendSKick t) s = .next s := by
  simp only [exec, execSendSKick]
  split
  next r hr => exact if_neg (h r hr)
  next => rfl

theorem exec_sendSExit_of_not (h : ∀ r, (s.port t).send = some r → r.phase ≠ .sExit) :
    exec (.sendSExit t) s = .next s := by
  simp only [exec, execSendSExit]
  split
  next r hr => exact if_neg (h r hr)
  next => rfl

theorem exec_irqRxMailbox_of_ring (h : s.params.rxMode = .ring) : exec (.irqRxMailbox t) s = .next s := by
  simp [exec, execIrqRxMailbox, takeInterrupt, h, noStep]

theorem exec_irqRxRing_of_mailbox (h : s.params.rxMode = .mailbox) : exec (.irqRxRing t) s = .next s := by
  simp [exec, execIrqRxRing, takeInterrupt, h, noStep]

theorem exec_readLine_of_not (h : ∀ ph, s.ctl (.listener (.serial t)) ≠ .read ph) :
    exec (.readLine t) s = .next s := by
  simp only [exec, execReadLine]
  cases hctl : s.ctl (.listener (.serial t)) with
  | read ph => exact absurd hctl (h ph)
  | _ => rfl

theorem exec_uartTx_of_nil (h : (s.port t).txHw = []) : exec (.uartTx t) s = .next s := by
  simp [exec, execUartTx, h, noStep]

theorem exec_rs485Tx_of_other {ph : BusPhase} {k k' : TxKind} {b b' : List Byte} {m m' : Nat}
    (hctl : s.ctl s.cur = .act (.bus ph k b m)) (hne : ¬ (k' = k ∧ b' = b ∧ m' = m)) :
    exec (.rs485Tx k' b' m') s = .next s := by
  simp only [exec, execRs485Tx, hctl]
  exact if_neg fun ⟨hk, hb, hm⟩ => hne ⟨hk.symm, hb.symm, hm.symm⟩

theorem exec_gpioEvt_of_busy {g : Nat} {v : Byte} (h1 : 1 ≤ g) (h9 : g ≤ 9) (h : s.ctl .gpio ≠ .recv) :
    exec (.gpioEvt g v) s = .next s := by
  simp [exec, execGpioEvt, h1, h9, h, noStep]

end NotEnabled

/-- Settles O40: one lemma per operation, by its phase, its state, its mode or its enabling condition (logs 3, 11, 13). -/
theorem stepsNotEnabledChangeNothing : Obligations.StepsNotEnabledChangeNothing := by
  unfold Obligations.StepsNotEnabledChangeNothing
  exact fun t s => ⟨fun _ _ h => ⟨fun _ => exec_sendLine_of_not (Port.canStage_eq_false h),
      exec_sendRaw_of_not (Port.canStage_eq_false h)⟩,
    exec_sendSLoop_of_not, exec_sendSWait_of_not, exec_sendSKick_of_not, exec_sendSExit_of_not, exec_irqRxMailbox_of_ring,
    exec_irqRxRing_of_mailbox, exec_readLine_of_not, exec_uartTx_of_nil, fun _ h => if_neg h, fun _ h => if_neg h,
    fun _ _ _ _ _ _ _ => exec_rs485Tx_of_other, fun _ _ => exec_gpioEvt_of_busy⟩

end Sys2Proof.Machine
end

section
/-!
The UART (spec/41_uart.md): the transmitter and the runs that are fair to it (R164), the receiver (R166) and the divisor of the
baud-rate generator (R161).
-/

namespace Sys2Proof.Machine

/-! ### The transmitter -/

/-- R164: the register is non-empty, so its oldest byte goes out. -/
theorem exec_uartTx_of_cons {t : Transport} {b : Byte} {rest : List Byte} {s : State} (h : (s.port t).txHw = b :: rest) :
    exec (.uartTx t) s = .next (s.setPort t { s.port t with
      txHw := rest
      txLine := (s.port t).txLine ++ [(b, s.de)]
      threPend := (s.port t).threPend || decide (rest = []) }) := by
  simp only [exec, execUartTx, h]
  by_cases hrest : rest = [] <;> simp [hrest]

/-- A run of a started block stays started (spec/70_reset_and_hazards.md R271). -/
theorem IsRun.boot {ch : Nat → Choice} {r : Nat → State} (h : IsRun ch r) (j : Nat) : (r j).boot = .running := by
  induction j with
  | zero => exact h.started
  | succ j ih => exact step_boot_running (s := { r j with sched := [ch j] }) ih (h.steps j)

@[simp] theorem port_withSched (s : State) (l : List Choice) (t : Transport) :
    ({ s with sched := l } : State).port t = s.port t :=
  port_upd s l s.tick s.cur t

section ChosenStep

variable {s s' : State} {w : Choice} {t : Transport} {b : Byte} {rest : List Byte}

/-- A step of a started block sends the oldest byte of a register, as UART_TX, or leaves it the oldest and sends nothing. -/
theorem step_sends_or_waits (hrun : s.boot = .running) (hs : step { s with sched := [w] } = .next s')
    (hb : (s.port t).txHw = b :: rest) :
    (w = .uartTx t ∧ (s'.port t).txLine = (s.port t).txLine ++ [(b, s.de)]) ∨
    ((s'.port t).txLine = (s.port t).txLine ∧ ∃ rest', (s'.port t).txHw = b :: rest') := by
  obtain ⟨o, hp, ho⟩ := step_portStep (s := { s with sched := [w] }) hrun hs t
  rw [port_withSched] at hp
  exact (portStep_oldest hb hp).imp (fun ⟨hop, hline⟩ => ⟨ho.uartTx t hop, hline⟩) id

/-- Where the transmitter of a register that is not empty is chosen, the step sends. -/
theorem step_sends_of_chosen (hrun : s.boot = .running) (hs : step { s with sched := [.uartTx t] } = .next s')
    (hb : (s.port t).txHw = b :: rest) : (s'.port t).txLine = (s.port t).txLine ++ [(b, s.de)] := by
  have hexec : step { s with sched := [.uartTx t] } = exec (.uartTx t) { s with sched := [] } :=
    step_running (s := { s with sched := [.uartTx t] }) hrun
  rw [hexec, exec_uartTx_of_cons (by rwa [port_withSched]), port_withSched] at hs
  rw [← Host.Outcome.next.inj hs, port_setPort, if_pos rfl]

end ChosenStep

/-- A fair run sends: were the oldest byte never sent, it would wait for ever, so the register would stay non-empty and its
transmitter be chosen, and that step sends it (R164). -/
theorem IsRun.eventually_sends {ch : Nat → Choice} {r : Nat → State} (h : IsRun ch r) (hfair : FairTransmitters ch r)
    {t : Transport} {k : Nat} {b : Byte} {rest : List Byte} (hb : ((r k).port t).txHw = b :: rest) :
    ∃ j, k ≤ j ∧ ch j = .uartTx t ∧ ((r j).port t).txLine = ((r k).port t).txLine ∧
      ((r (j + 1)).port t).txLine = ((r k).port t).txLine ++ [(b, (r j).de)] := by
  by_contra hnever
  have waits : ∀ j, k ≤ j →
      ((r j).port t).txLine = ((r k).port t).txLine ∧ ∃ rest', ((r j).port t).txHw = b :: rest' := by
    intro j hj
    induction j, hj using Nat.le_induction with
    | base => exact ⟨rfl, rest, hb⟩
    | succ j hj ih =>
      obtain ⟨hline, rest', hb'⟩ := ih
      rcases step_sends_or_waits (h.boot j) (h.steps j) hb' with ⟨hch, hsent⟩ | ⟨hsame, hold⟩
      · exact absurd ⟨j, hj, hch, hline, hline ▸ hsent⟩ hnever
      · exact ⟨hsame.trans hline, hold⟩
  obtain ⟨j, hj, hch⟩ := hfair t k fun j hj => by
    obtain ⟨-, rest', hb'⟩ := waits j hj
    rw [hb']
    exact List.cons_ne_nil b rest'
  obtain ⟨hline, rest', hb'⟩ := waits j hj
  exact hnever ⟨j, hj, hch, hline, hline ▸ step_sends_of_chosen (h.boot j) (hch ▸ h.steps j) hb'⟩

/-- Settles O41: `exec_uartTx_of_cons` for the step, `IsRun.eventually_sends` for the fair runs. -/
theorem transmitterSendsOldestByte : Obligations.TransmitterSendsOldestByte := by
  unfold Obligations.TransmitterSendsOldestByte
  exact ⟨fun _ _ _ _ => exec_uartTx_of_cons, fun _ _ _ _ _ _ hrun hfair => hrun.eventually_sends hfair⟩

/-! ### The receiver -/

/-- Settles O42: the two branches of LINE_IN, by the room in the receive register (R166). -/
theorem receiverKeepsOlderBytes : Obligations.ReceiverKeepsOlderBytes := by
  unfold Obligations.ReceiverKeepsOlderBytes
  exact fun t b s => ⟨fun hroom => if_pos hroom, fun hfull => if_neg (Nat.not_lt.2 hfull)⟩

/-! ### The divisor -/

/-- `roundDiv` rounds down where the remainder is at most half the divisor, and up where it is at least half (log 8). -/
theorem roundDiv_cases (a b : Nat) :
    (roundDiv a b = a / b ∧ 2 * (a % b) ≤ b) ∨ (roundDiv a b = a / b + 1 ∧ b ≤ 2 * (a % b)) := by
  unfold roundDiv
  split_ifs with hlt heq hup
  · exact .inl ⟨rfl, hlt.le⟩
  · exact .inr ⟨rfl, heq.ge⟩
  · exact .inl ⟨rfl, heq.le⟩
  · exact .inr ⟨rfl, Nat.le_of_not_lt hlt⟩

/-- `roundDiv a b` is at most a half away from `a / b` (R161), written without the quotient. -/
theorem roundDiv_nearest (a : Nat) {b : Nat} (hb : 0 < b) :
    2 * roundDiv a b * b ≤ 2 * a + b ∧ 2 * a ≤ 2 * roundDiv a b * b + b := by
  have hdiv : b * (a / b) + a % b = a := Nat.div_add_mod a b
  have hmod : a % b < b := Nat.mod_lt a hb
  have hcases := roundDiv_cases a b
  generalize a / b = q, a % b = r at hdiv hmod hcases
  rcases hcases with ⟨hq, hhalf⟩ | ⟨hq, hhalf⟩
  · rw [hq]
    constructor <;> linarith
  · rw [hq]
    constructor <;> linarith

/-- Settles O43: the divisor is `max 1` of `roundDiv`, which is nearest by `roundDiv_nearest`. -/
theorem baudDivisorIsNearest : Obligations.BaudDivisorIsNearest := by
  unfold Obligations.BaudDivisorIsNearest
  intro t s hb
  refine ⟨roundDiv s.params.fRef (s.params.oversample * s.baudOf t), if_neg hb, ?_⟩
  cases t <;> exact roundDiv_nearest _ (PNat.pos (s.params.oversample * _))

end Sys2Proof.Machine
end

section
/-!
The frame codec (spec/42_frame_codec.md): CHECKSUM (R180), ENCODE (R181), the reassembler (R183, R184), VALIDATE (R186, R187),
NET_VALIDATE (R188), PARSE (R189) and the round trip (R190); and the operations whose operands lack bytes (logs 15, 22, 26).
-/

namespace Sys2Proof.Machine

/-! ### What the codec operations return -/

/-- Where `c` holds a free value is used (log 15). -/
theorem draw_of (s : State) {c : Prop} [Decidable c] (h : c) : s.draw (decide c) = { s with tick := s.tick + 1 } := by
  rw [draw_decide, if_pos h]

section Returned
variable {s : State}

theorem exec_checksum {b : List Byte} {m : Nat} (h : 5 ≤ m) : exec (.checksum b m) s =
    .next ((s.draw (decide (b.length < m))).setRet (.byte (checksum (operandBytes s.tick b m) m))) := if_pos h

theorem exec_checksum_of_lt {b : List Byte} {m : Nat} (h : m < 5) : exec (.checksum b m) s =
    .next (State.setRet { s with tick := s.tick + 1 } (.byte (Config.freeByte s.tick 0))) := if_neg (Nat.not_le.2 h)

theorem exec_encode {id ty ch : Byte} {p : List Byte} {l : Nat} (h : l ≤ 249) : exec (.encode id ty ch p l) s =
    .next ((s.draw (decide (p.length < l))).setRet (.frame (frameBytes id ty ch (operandBytes s.tick p l)))) := if_pos h

theorem exec_encode_of_gt {id ty ch : Byte} {p : List Byte} {l : Nat} (h : 249 < l) : exec (.encode id ty ch p l) s =
    .next (State.setRet { s with tick := s.tick + 1 } (.frame (Config.freeFrame s.tick))) := if_neg (Nat.not_le.2 h)

theorem exec_validate (x : List Byte) (n : Nat) : exec (.validate x n) s =
    .next ((s.draw (decide ((x.take n).length < validateReads s.tick (x.take n)))).setRet
      (.verdict (validateCandidate s.tick (x.take n)))) := rfl

theorem exec_netValidate (d : List Byte) (n : Nat) : exec (.netValidate d n) s =
    .next ((s.draw (decide (d.length < n))).setRet (.verdict (netValidate (operandBytes s.tick d n)))) := rfl

theorem exec_parse (x : List Byte) : exec (.parse x) s =
    .next ((s.draw (decide (x.length < parseReads s.tick x))).setRet (.parsed (parseFrame s.tick x))) := rfl

end Returned

/-! ### The operations on operands that are all there -/

@[simp] theorem checksum_take (b : List Byte) (m : Nat) : checksum (b.take m) m = checksum b m := by
  simp [checksum, List.take_take]

section Complete
variable {s : State}

theorem exec_checksum_of_le {b : List Byte} {m : Nat} (h : 5 ≤ m) (hm : m ≤ b.length) :
    exec (.checksum b m) s = .next (s.setRet (.byte (checksum b m))) := by
  rw [exec_checksum h, draw_of_not s (Nat.not_lt.2 hm), operandBytes_of_le hm, checksum_take]

/-- Of a longer operand ENCODE takes the first `l` bytes (log 26). -/
theorem exec_encode_of_le {id ty ch : Byte} {p : List Byte} {l : Nat} (h : l ≤ 249) (hl : l ≤ p.length) :
    exec (.encode id ty ch p l) s = .next (s.setRet (.frame (frameBytes id ty ch (p.take l)))) := by
  rw [exec_encode h, draw_of_not s (Nat.not_lt.2 hl), operandBytes_of_le hl]

/-- How far VALIDATE reads is fixed by the length byte (R186). -/
theorem validateReads_of_getElem? {k : Nat} {x : List Byte} {l : Byte} (h4 : x[4]? = some l) :
    validateReads k x = if l.toNat ≤ 249 then l.toNat + 6 else 5 := by
  simp only [validateReads, byteAt_of_getElem? h4, maxPayload]

/-- VALIDATE on a candidate that holds what it reads (R186). -/
theorem exec_validate_of_le {x : List Byte} {l : Byte} (h4 : x[4]? = some l)
    (hlen : l.toNat ≤ 249 → l.toNat + 6 ≤ x.length) : exec (.validate x x.length) s =
      .next (s.setRet (.verdict (decide (l.toNat ≤ 249) && x[5 + l.toNat]? == some (checksum x (5 + l.toNat))))) := by
  have hreads : ¬ x.length < validateReads s.tick x := by
    obtain ⟨h, -⟩ := List.getElem?_eq_some_iff.1 h4
    rw [validateReads_of_getElem? h4]
    split <;> omega
  rw [exec_validate, List.take_length, draw_of_not s hreads, validate_eq h4 hlen]

/-- NET_VALIDATE on a whole datagram (R188). -/
theorem exec_netValidate_self (d : List Byte) :
    exec (.netValidate d d.length) s = .next (s.setRet (.verdict (netValidate d))) := by
  rw [exec_netValidate, draw_of_not s (Nat.lt_irrefl _), operandBytes_of_le (Nat.le_refl _), List.take_length]

/-- PARSE of a candidate that holds its payload (R189). -/
theorem exec_parse_of_le {x : List Byte} {l : Byte} (h4 : x[4]? = some l) (h : 5 + l.toNat ≤ x.length) :
    exec (.parse x) s = .next (s.setRet (.parsed (parseFrame s.tick x))) := by
  have hreads : ¬ x.length < parseReads s.tick x := by
    rw [parseReads, byteAt_of_getElem? h4]
    omega
  rw [exec_parse, draw_of_not s hreads]

end Complete

/-! ### The round trip -/

/-- The length byte of a frame (R181). -/
theorem frameBytes_lengthByte (id ty ch : Byte) (p : List Byte) :
    (frameBytes id ty ch p)[4]? = some (BitVec.ofNat 8 p.length) := rfl

theorem toNat_lengthByte {p : List Byte} (h : p.length ≤ 249) : (BitVec.ofNat 8 p.length).toNat = p.length := by
  rw [BitVec.toNat_ofNat, Nat.mod_eq_of_lt (by omega)]

section RoundTrip
variable {id ty ch : Byte} {p : List Byte} {t : Transport} {s : State}

/-- The whole frame brings a hunting reassembler to DONE, with the frame in RXBUF (R190). -/
theorem feed_frame (hp : p.length ≤ 249) (hh : (s.port t).hunting) :
    ∃ m, feed t (frameBytes id ty ch p) s =
        .next (s.setPort t (midPort (s.port t) m (p.length + 6) (p.length + 6) .done)) ∧
      ∀ a, m.lookup a = if a < p.length + 6 then (frameBytes id ty ch p)[a]? else (s.port t).rxBuf.lookup a := by
  have hlen := frameBytes_length id ty ch p
  obtain ⟨m, e, hm⟩ := feed_mid t _ _ hp hlen rfl (frameBytes_lengthByte id ty ch p) s hh _ (Nat.le_refl _)
  rw [← hlen, List.take_length, hlen] at e
  exact ⟨m, by simpa using e, hm⟩

/-- A part of a frame does not bring the reassembler to DONE (R190). -/
theorem feed_part_of_frame (hp : p.length ≤ 249) (hh : (s.port t).hunting) {k : Nat} (hk : k < p.length + 6) :
    ∃ q, feed t ((frameBytes id ty ch p).take k) s = .next (s.setPort t q) ∧ q.fsm ≠ .done := by
  obtain ⟨m, e, -⟩ := feed_mid t _ _ hp (frameBytes_length id ty ch p) rfl (frameBytes_lengthByte id ty ch p) s hh k hk.le
  refine ⟨_, e, ?_⟩
  rw [midPort, if_neg hk.ne]
  split <;> nofun

theorem exec_validate_frame (hp : p.length ≤ 249) :
    exec (.validate (frameBytes id ty ch p) (p.length + 6)) s = .next (s.setRet (.verdict true)) := by
  rw [← frameBytes_length id ty ch p,
    exec_validate_of_le (frameBytes_lengthByte id ty ch p) (fun _ => by rw [frameBytes_length, toNat_lengthByte hp]),
    toNat_lengthByte hp, frameBytes_last]
  simp [hp]

theorem exec_netValidate_frame (hp : p.length ≤ 249) :
    exec (.netValidate (frameBytes id ty ch p) (p.length + 6)) s = .next (s.setRet (.verdict true)) := by
  rw [← frameBytes_length id ty ch p, exec_netValidate_self, net_frame id ty ch p hp]

theorem exec_parse_frame (hp : p.length ≤ 249) : exec (.parse (frameBytes id ty ch p)) s = .next (s.setRet (.parsed
    { deviceID := id, dataType := ty, channel := ch, length := BitVec.ofNat 8 p.length, payload := p })) := by
  rw [exec_parse_of_le (frameBytes_lengthByte id ty ch p)
    (by rw [toNat_lengthByte hp, frameBytes_length]; omega), parse_frame _ _ _ _ _ hp]

end RoundTrip

/-- Settles O5: `feed_frame` and `feed_part_of_frame` for the reassembler, then one lemma per operation on the frame. -/
theorem frameRoundTrip : Obligations.FrameRoundTrip := by
  unfold Obligations.FrameRoundTrip
  intro id ty ch p t s hp hh f
  obtain ⟨m, e, hm⟩ := feed_frame hp hh
  exact ⟨⟨_, e, rfl, hm⟩, fun k hk => feed_part_of_frame hp hh (by rwa [frameBytes_length] at hk), exec_validate_frame hp,
    exec_netValidate_frame hp, exec_parse_frame hp⟩

/-! ### The checksum and the frame -/

/-- Settles O1: the sum by definition, in 8 bits by `checksum_foldl`, in any order by `checksum_perm`. -/
theorem checksumIsTheByteSum : Obligations.ChecksumIsTheByteSum := by
  unfold Obligations.ChecksumIsTheByteSum
  intro b m s h5 hm
  refine ⟨checksum b m, exec_checksum_of_le h5 hm, BitVec.toNat_ofNat _ _, checksum_foldl b m, fun b' hm' hperm => ?_⟩
  rw [exec_checksum_of_le h5 hm', checksum_perm hperm]

/-- The payload of a frame stands from byte 5 on (R181). -/
theorem frameBytes_payload (id ty ch : Byte) {p : List Byte} {j : Nat} (h : j < p.length) :
    (frameBytes id ty ch p)[5 + j]? = p[j]? := by
  rw [Nat.add_comm 5 j, ← List.getElem?_append_left h]
  rfl

/-- Settles O2: the bytes of `frameBytes`, the last one by `frameBytes_last`. -/
theorem encodeBuildsTheFrame : Obligations.EncodeBuildsTheFrame := by
  unfold Obligations.EncodeBuildsTheFrame
  rintro id ty ch p _ s hl rfl
  refine ⟨frameBytes id ty ch p, ?_, frameBytes_length id ty ch p, rfl, rfl, rfl, rfl, rfl,
    fun j hj => frameBytes_payload id ty ch hj, frameBytes_last id ty ch p⟩
  rw [exec_encode_of_le hl (Nat.le_refl _), List.take_length]

/-! ### A flipped bit -/

/-- Where byte `n` is the checksum of the `n` bytes before it, it no longer is after a bit of one of these `n + 1` bytes has been
flipped: either the sum or the checksum byte has changed (R187). -/
theorem checksum_ne_of_flip {x : List Byte} {n k j : Nat} (hx : x[n]? = some (checksum x n)) (hk : k ≤ n) (hj : j < 8) :
    let y := x.modify k (fun b => b ^^^ (1#8 <<< j))
    y[n]? ≠ some (checksum y n) := by
  intro y
  rcases Nat.lt_or_eq_of_le hk with hlt | rfl
  · have hbyte : y[n]? = x[n]? := List.getElem?_modify_ne _ _ hlt.ne
    have hlen : k < (x.take n).length := by
      obtain ⟨hn, -⟩ := List.getElem?_eq_some_iff.1 hx
      rwa [List.length_take_of_le hn.le]
    have hsum : checksum y n ≠ checksum x n := by
      rw [checksum_foldl, checksum_foldl, List.take_modify]
      exact foldl_modify (x.take n) k j hlen hj
    rw [hbyte, hx]
    exact fun h => hsum (Option.some.inj h).symm
  · obtain ⟨d, hd, hflip⟩ := flip_ne (checksum x k) j hj
    have hbyte : y[k]? = some (checksum x k + d) := by rw [List.getElem?_modify_eq, hx, ← hflip]; rfl
    have hsum : checksum y k = checksum x k := by
      rw [checksum_foldl, checksum_foldl, List.take_modify, List.modify_eq_self (by simp)]
    rw [hbyte, hsum]
    simpa using hd

/-- Settles O6: the length byte stands, so both validators look at the checksum byte, which `checksum_ne_of_flip` refutes. -/
theorem singleBitFlipIsRejected : Obligations.SingleBitFlipIsRejected := by
  unfold Obligations.SingleBitFlipIsRejected
  intro id ty ch p k j s hp hk h4 hj f
  have hlen : f.length = p.length + 6 := (List.length_modify ..).trans (frameBytes_length id ty ch p)
  have hbyte : f[4]? = some (BitVec.ofNat 8 p.length) :=
    (List.getElem?_modify_ne _ _ h4).trans (frameBytes_lengthByte id ty ch p)
  have hbad : f[5 + p.length]? ≠ some (checksum f (5 + p.length)) :=
    checksum_ne_of_flip (frameBytes_last id ty ch p) (by omega) hj
  rw [← hlen]
  constructor
  · rw [exec_validate_of_le hbyte fun _ => by rw [toNat_lengthByte hp, hlen], toNat_lengthByte hp, beq_false_of_ne hbad,
      Bool.and_false]
  · have hnet : netValidate f = false := by
      rw [Bool.eq_false_iff, Ne, net_iff]
      rintro ⟨-, -, l, hl, -, -, hsum⟩
      obtain rfl := Option.some.inj (hbyte.symm.trans hl)
      rw [toNat_lengthByte hp] at hsum
      exact hbad hsum
    rw [exec_netValidate_self, hnet]

/-! ### The validators and PARSE -/

/-- Settles O8: `net_iff`; PARSE reads no byte after the candidate (`parse_take`). -/
theorem netValidateAcceptsExactly : Obligations.NetValidateAcceptsExactly := by
  unfold Obligations.NetValidateAcceptsExactly
  intro d s
  refine ⟨netValidate d, exec_netValidate_self d, net_iff d, fun l h4 hlen => ?_⟩
  have h4' : (d.take (l.toNat + 6))[4]? = some l := by rw [List.getElem?_take_of_lt (by omega), h4]
  rw [exec_parse_of_le h4 (by omega), exec_parse_of_le h4' (by rw [List.length_take_of_le hlen]; omega),
    parse_take s.tick d l h4 hlen]

/-- Settles O7: a candidate of READ_LINE holds every byte VALIDATE reads (`exec_validate_of_le`). -/
theorem validateAcceptsExactly : Obligations.ValidateAcceptsExactly := by
  unfold Obligations.ValidateAcceptsExactly
  rintro x l _ s h4 hsize rfl
  exact ⟨_, exec_validate_of_le h4 (by omega), by simp⟩

/-- What PARSE answers, by the bytes it reads: those of the candidate, and free ones for those that are not there (R189;
log 15). -/
theorem parse_operandBytes {k n : Nat} {x : List Byte} (h : parseReads k x ≤ n) :
    let y := operandBytes k x n
    let pf := parseFrame k x
    y[1]? = some pf.deviceID ∧ y[2]? = some pf.dataType ∧ y[3]? = some pf.channel ∧ y[4]? = some pf.length ∧
      pf.payload = (y.drop 5).take pf.length.toNat := by
  have h5 : 5 ≤ n := (Nat.le_add_right _ _).trans h
  refine ⟨operandBytes_getElem? (by omega), operandBytes_getElem? (by omega), operandBytes_getElem? (by omega),
    operandBytes_getElem? (by omega), ?_⟩
  calc (parseFrame k x).payload = (operandBytes k x (parseReads k x)).drop 5 := rfl
    _ = ((operandBytes k x n).take (parseReads k x)).drop 5 := by rw [operandBytes_take x h]
    _ = ((operandBytes k x n).drop 5).take (parseReads k x - 5) := List.drop_take
    _ = ((operandBytes k x n).drop 5).take (parseFrame k x).length.toNat := by rw [parseReads, Nat.add_sub_cancel_left]; rfl

/-- Settles O9: `parse_operandBytes` for a candidate that is all there. -/
theorem parseReadsTheFields : Obligations.ParseReadsTheFields := by
  unfold Obligations.ParseReadsTheFields
  intro x l s h4 hlen
  have hl : (parseFrame s.tick x).length = l := byteAt_of_getElem? h4
  have hfields := parse_operandBytes (k := s.tick) (n := x.length) (x := x) (by rw [parseReads, byteAt_of_getElem? h4]; omega)
  rw [operandBytes_of_le (Nat.le_refl _), List.take_length] at hfields
  obtain ⟨hid, hty, hch, -, hpayload⟩ := hfields
  rw [hl] at hpayload
  refine ⟨_, exec_parse_of_le h4 (by omega), hid, hty, hch, hl, hpayload, ?_⟩
  rw [hpayload, List.length_take_of_le (by rw [List.length_drop]; omega)]

/-! ### The reassembler -/

/-- Settles O3: the two branches of FSM_STEP in WAIT_SYNC (R183). -/
theorem waitSyncTakesOnlySof : Obligations.WaitSyncTakesOnlySof := by
  unfold Obligations.WaitSyncTakesOnlySof
  intro t b s hfsm
  have hexec : exec (.fsmStepWaitSync t b) s = s.onPort t ((s.port t).fsmWaitSync b) := if_pos hfsm
  rw [hexec]
  refine ⟨?_, fun hb => ?_⟩
  · rintro rfl
    exact ⟨_, rfl, fun a => Memory.lookup_insert _ _ a _⟩
  · have hsame : (s.port t).fsmWaitSync b = .ok (s.port t) := if_neg hb
    rw [hsame, onPort_ok, setPort_port]

/-- Settles O4: FSM_STEP in ACCUMULATE, whose write is inside the buffer (R184). -/
theorem accumulateAppends : Obligations.AccumulateAppends := by
  unfold Obligations.AccumulateAppends
  intro t b s hfsm hpos
  have hexec : exec (.fsmStepAccumulate t b) s = s.onPort t ((s.port t).fsmAccumulate b) := if_pos hfsm
  have hwrite : (s.port t).rxBuf.write rxBufCap (s.port t).pos b = .ok ((s.port t).rxBuf.insert (s.port t).pos b) :=
    Memory.write_ok.2 ⟨Nat.lt_succ_of_le hpos, rfl⟩
  refine ⟨_, ?_, fun a => Memory.lookup_insert _ _ a _⟩
  rw [hexec, Port.fsmAccumulate, hwrite]
  rfl

/-! ### Operands that lack bytes -/

/-- An operand of the declared size is taken as it is. -/
theorem operandBytes_of_length {k m : Nat} {b : List Byte} (h : b.length = m) : operandBytes k b m = b := by
  rw [operandBytes_of_le h.ge, ← h, List.take_length]

/-- What VALIDATE accepts, by the bytes it reads: those of the candidate, and free ones for those that are not there (R186;
log 15). -/
theorem validate_operandBytes (k : Nat) (x : List Byte) :
    let y := operandBytes k x 255
    let l := byteAt k x 4
    validateCandidate k x = true ↔ l.toNat ≤ 249 ∧ y[5 + l.toNat]? = some (checksum y (5 + l.toNat)) := by
  intro y l
  have hiff : validateCandidate k x = true ↔
      l.toNat ≤ 249 ∧ byteAt k x (5 + l.toNat) = checksum (operandBytes k x (5 + l.toNat)) (5 + l.toNat) := by
    rw [validateCandidate, Bool.and_eq_true, decide_eq_true_iff, beq_iff_eq]
    rfl
  rw [hiff, and_congr_right_iff]
  intro hl
  rw [operandBytes_getElem? (by omega), Option.some.injEq, ← checksum_take y, operandBytes_take x (by omega)]

section Lacks
variable {s : State}

/-- VALIDATE on any operand (R186; logs 15 and 26). -/
theorem exec_validate_fills (x : List Byte) (n : Nat) : ∃ (y : List Byte) (l : Byte) (v : Bool) (k : Nat),
    Fills (x.take n) 255 y ∧ y[4]? = some l ∧
    exec (.validate x n) s = .next (State.setRet { s with tick := k } (.verdict v)) ∧
    (v = true ↔ l.toNat ≤ 249 ∧ y[5 + l.toNat]? = some (checksum y (5 + l.toNat))) ∧
    k = if min n x.length ≤ 4 ∨ l.toNat ≤ 249 ∧ min n x.length ≤ 5 + l.toNat then s.tick + 1 else s.tick := by
  refine ⟨_, _, _, _, fills_operandBytes s.tick (x.take n) 255, operandBytes_getElem? (by omega),
    by rw [exec_validate, draw_decide], validate_operandBytes s.tick (x.take n), if_congr ?_ rfl rfl⟩
  rw [List.length_take, validateReads, maxPayload]
  split <;> omega

/-- NET_VALIDATE on any operand (R188; logs 15 and 26). -/
theorem exec_netValidate_fills (d : List Byte) (n : Nat) : ∃ (y : List Byte) (v : Bool), Fills d n y ∧
    exec (.netValidate d n) s =
      .next (State.setRet { s with tick := if d.length < n then s.tick + 1 else s.tick } (.verdict v)) ∧
    (v = true ↔ 6 ≤ n ∧ y[0]? = some 62#8 ∧ ∃ l : Byte, y[4]? = some l ∧ l.toNat ≤ 249 ∧ l.toNat + 6 ≤ n ∧
      y[5 + l.toNat]? = some (checksum y (5 + l.toNat))) := by
  have hnet := net_iff (operandBytes s.tick d n)
  rw [operandBytes_length] at hnet
  exact ⟨_, _, fills_operandBytes s.tick d n, by rw [exec_netValidate, draw_decide], hnet⟩

/-- PARSE of any operand (R189; logs 15 and 27). -/
theorem exec_parse_fills (x : List Byte) : ∃ (y : List Byte) (pf : ParsedFrame), Fills x 260 y ∧
    exec (.parse x) s = .next (State.setRet { s with
      tick := if x.length < 5 + pf.length.toNat then s.tick + 1 else s.tick } (.parsed pf)) ∧
    y[1]? = some pf.deviceID ∧ y[2]? = some pf.dataType ∧ y[3]? = some pf.channel ∧ y[4]? = some pf.length ∧
    pf.payload = (y.drop 5).take pf.length.toNat :=
  ⟨_, _, fills_operandBytes s.tick x 260, by rw [exec_parse, draw_decide]; rfl,
    parse_operandBytes (by unfold parseReads; omega)⟩

/-- NET_RECV at N_RECV with any operand (spec/43_dispatch.md R219; logs 15 and 26). -/
theorem exec_netRecv_fills (d : List Byte) (n : Nat) (h : s.ctl (.listener .net) = .recv) : ∃ y, Fills d n y ∧
    exec (.netRecv d n) s = .next (State.setCtl { s with tick := if d.length < n then s.tick + 1 else s.tick }
      (.listener .net) (.candidate y n)) := by
  refine ⟨_, fills_operandBytes s.tick d n, ?_⟩
  rw [← draw_decide]
  exact if_pos h

variable {t : Transport} {b : List Byte} {m : Nat} {q : Port}

/-- SEND_RAW where S_STAGE has a step (spec/40_ring_transport.md R123). -/
theorem exec_sendRaw_of_canStage (hm : m ≤ 249) (hstage : (s.port t).canStage = true)
    (hq : (s.port t).stageBytes (operandBytes s.tick b m) m = .ok q) :
    exec (.sendRaw t b m) s = .next ((s.draw (decide (b.length < m))).setPort t q) := by
  have hmax : m ≤ maxPayload := hm
  simp only [exec, execSendRaw, hmax, hstage, hq, if_true, onPort_ok]

/-- What SEND_LINE asks of an operand of the declared size (R122). -/
theorem sendLineOk_iff (h : b.length = m) :
    sendLineOk b m = true ↔ ∃ l : Byte, b[4]? = some l ∧ l.toNat ≤ 249 ∧ m = l.toNat + 6 := by
  unfold sendLineOk
  cases b[4]? <;> simp [h]

theorem exec_sendLine_of_not_ok (h : sendLineOk (operandBytes s.tick b m) m = false) :
    exec (.sendLine t b m) s = .fault .sendLengthMismatch := by
  simp [exec, execSendLine, h]

/-- SEND_LINE where S_STAGE has a step: the count read back from the staged byte 4 is the declared one (R122). -/
theorem exec_sendLine_of_canStage (hok : sendLineOk (operandBytes s.tick b m) m = true)
    (hstage : (s.port t).canStage = true) (hq : (s.port t).stageBytes (operandBytes s.tick b m) m = .ok q) :
    exec (.sendLine t b m) s = .next ((s.draw (decide (b.length < m))).setPort t q) := by
  obtain ⟨l, h4, hl, rfl⟩ := (sendLineOk_iff (operandBytes_length ..)).1 hok
  obtain ⟨st, hrun, -, hst⟩ :=
    Port.stageBytes_eq (s.port t) (bytes := operandBytes s.tick b (l.toNat + 6)) (l.toNat + 6)
      (by rw [operandBytes_length]; omega)
  have hread : st.read stageCap 4 = .ok l :=
    Memory.read_ok.2 ⟨by decide, by rw [hst, if_pos (by simp), h4]⟩
  simp only [exec, execSendLine, hok, hstage, hrun, hread, hq, if_true, onPort_ok]

/-- S_STAGE of at most 255 bytes succeeds (`STAGE_CAP`; spec/00_scope.md R6). -/
theorem Port.stageBytes_ok (p : Port) {bytes : List Byte} (n : Nat) (h : bytes.length ≤ 255) :
    ∃ q, p.stageBytes bytes n = .ok q := by
  obtain ⟨st, -, hq, -⟩ := p.stageBytes_eq n h
  exact ⟨_, hq⟩

/-- SEND_RAW of too few bytes is SEND_RAW of as many as declared, but for the counter of free values (R123; log 15). -/
theorem exec_sendRaw_fills (hm : m ≤ 249) (hb : b.length < m) (hstage : (s.port t).canStage = true) :
    ∃ y q, Fills b m y ∧ exec (.sendRaw t y m) s = .next (s.setPort t q) ∧
      exec (.sendRaw t b m) s = .next (State.setPort { s with tick := s.tick + 1 } t q) := by
  have hlen := operandBytes_length s.tick b m
  obtain ⟨q, hq⟩ := (s.port t).stageBytes_ok (bytes := operandBytes s.tick b m) m (by omega)
  refine ⟨_, q, fills_operandBytes s.tick b m, ?_, ?_⟩
  · rw [exec_sendRaw_of_canStage hm hstage (by rwa [operandBytes_of_length hlen]), draw_of_not s (by omega)]
  · rw [exec_sendRaw_of_canStage hm hstage hq, draw_of s hb]

/-- SEND_LINE of too few bytes is SEND_LINE of as many as declared, but for the counter of free values; the free length byte
decides whether the declared length is that of a frame (R122; logs 15 and 22). -/
theorem exec_sendLine_fills (h6 : 6 ≤ m) (h255 : m ≤ 255) (hb : b.length < m) (hstage : (s.port t).canStage = true) :
    ∃ (y : List Byte) (l : Byte), Fills b m y ∧ y[4]? = some l ∧
      (m = l.toNat + 6 → ∃ q, exec (.sendLine t y m) s = .next (s.setPort t q) ∧
        exec (.sendLine t b m) s = .next (State.setPort { s with tick := s.tick + 1 } t q)) ∧
      (m ≠ l.toNat + 6 → exec (.sendLine t b m) s = .fault .sendLengthMismatch) := by
  have hlen := operandBytes_length s.tick b m
  have h4 : (operandBytes s.tick b m)[4]? = some (byteAt s.tick b 4) := operandBytes_getElem? (by omega)
  refine ⟨_, _, fills_operandBytes s.tick b m, h4, fun hm => ?_, fun hm => exec_sendLine_of_not_ok ?_⟩
  · have hok := (sendLineOk_iff hlen).2 ⟨_, h4, by omega, hm⟩
    obtain ⟨q, hq⟩ := (s.port t).stageBytes_ok (bytes := operandBytes s.tick b m) m (by omega)
    refine ⟨q, ?_, ?_⟩
    · have hself := operandBytes_of_length (k := s.tick) hlen
      rw [exec_sendLine_of_canStage (by rwa [hself]) hstage (by rwa [hself]), draw_of_not s (by omega)]
    · rw [exec_sendLine_of_canStage hok hstage hq, draw_of s hb]
  · rw [Bool.eq_false_iff, Ne, sendLineOk_iff hlen]
    rintro ⟨l, hl, -, rfl⟩
    exact hm (by rw [Option.some.inj (h4.symm.trans hl)])

/-- A declared length that no frame has (R243; log 22). -/
theorem exec_sendLine_of_no_frame (h : m < 6 ∨ 255 < m) : exec (.sendLine t b m) s = .fault .sendLengthMismatch := by
  refine exec_sendLine_of_not_ok ?_
  rw [Bool.eq_false_iff, Ne, sendLineOk_iff (operandBytes_length ..)]
  rintro ⟨l, -, hl, rfl⟩
  omega

end Lacks

/-- Settles O39: each operation takes `operandBytes` of its operand, which `Fills` it; one lemma per operation. -/
theorem operandsOutsideTheDomainRun : Obligations.OperandsOutsideTheDomainRun := by
  unfold Obligations.OperandsOutsideTheDomainRun
  refine fun s => ⟨fun b m h5 hb => ⟨_, fills_operandBytes s.tick b m, by rw [exec_checksum h5, draw_of s hb]⟩,
    fun b m hm => ⟨_, exec_checksum_of_lt hm⟩,
    fun id ty ch p l hl => ⟨fun hp => ⟨_, fills_operandBytes s.tick p l, by rw [exec_encode hl, draw_of s hp]⟩,
      exec_encode_of_le hl⟩,
    fun id ty ch p l hl => ⟨_, exec_encode_of_gt hl⟩, exec_validate_fills, exec_netValidate_fills, exec_parse_fills,
    fun d n => ⟨exec_netRecv_fills d n, fun h => if_neg h⟩,
    fun t b m hm hb hlock hsend => exec_sendRaw_fills hm hb (Port.canStage_iff.2 ⟨hlock, hsend⟩),
    fun t f n h6 h255 hf hlock hsend => exec_sendLine_fills h6 h255 hf (Port.canStage_iff.2 ⟨hlock, hsend⟩),
    fun t f n => exec_sendLine_of_no_frame⟩

end Sys2Proof.Machine
end

section
/-!
The router (spec/43_dispatch.md): the direction of the bus (R213), what L_DECIDE selects (R222, R223), FILTER and DISPATCH (R201,
R203), the frame commands (R202 to R212), the bracket of RS485_TX (R213), the status fan-out (R214 to R218) and the inputs (R217,
R219).
-/

namespace Sys2Proof.Machine

/-! ### The direction of the bus -/

/-- One more write, of a value other than the last, keeps the values alternating. -/
theorem alternates_append {d e x : Dir} {l : List Dir} (h : alternates d e l) (hx : x ≠ e) : alternates d x (l ++ [x]) := by
  induction l generalizing d with
  | nil =>
    obtain rfl : d = e := h
    exact ⟨hx, rfl⟩
  | cons y l ih =>
    obtain ⟨hy, hl⟩ := h
    exact ⟨hy, ih hl⟩

/-- The holder of the lock of RS485 alone can be driving the bus, so its program point tells the direction (R213). -/
theorem State.Inv.de_eq_write_iff {s : State} (h : s.Inv) {a : TaskId} (ha : (s.ctl a).holds .rs485 = true) :
    s.de = .write ↔ (s.ctl a).driving = true := by
  rw [h.drive]
  refine ⟨fun ⟨b, hb⟩ => ?_, fun hd => ⟨a, hd⟩⟩
  rwa [h.holder ha (Ctl.driving_holds hb)]

/-- X_DE_ON finds `DE` at READ and X_DE_OFF finds it at WRITE, so each writes another value; no other step writes `DE`. -/
theorem GlobalStep.keeps_alternation {o : Option Instr} {s s0 : State} (hg : GlobalStep o s s0) (h : s.Inv)
    (ha : alternates .read s.de s.deLog) : alternates .read s0.de s0.deLog := by
  cases hg with
  | deOn k b m hctl =>
    have hde := h.de_eq_write_iff (a := s.cur) (by rw [hctl]; rfl)
    refine alternates_append ha fun hw => ?_
    rw [← hw, hctl] at hde
    exact absurd (hde.1 rfl) nofun
  | deOff k b m hctl =>
    have hde := h.de_eq_write_iff (a := s.cur) (by rw [hctl]; rfl)
    refine alternates_append ha ?_
    rw [hde.2 (by rw [hctl]; rfl)]
    nofun
  | _ => exact ha

/-- Settles O21: by `GlobalStep.keeps_alternation` in a started block; a step of the start sequence writes no direction. -/
theorem bracketsAlternate : Obligations.BracketsAlternate := by
  unfold Obligations.BracketsAlternate
  intro s s' h ha hs
  by_cases hb : s.boot = .running
  · obtain ⟨s0, o, ⟨l, n, a, rfl⟩, he, -⟩ := eff_step hb hs
    obtain ⟨-, -, -, -, -, -, -, s1, hg, hde, hlog, -⟩ := eff_port he
    have hinv : State.Inv { s with sched := l, tick := n, cur := a } :=
      h.of_aux rfl (port_upd s l n a) (ctl_upd s l n a) rfl rfl
    rw [hde, hlog]
    exact hg.keeps_alternation hinv ha
  · obtain ⟨-, hde, hlog, -⟩ := step_boot hb hs
    rwa [hde, hlog]

/-! ### FILTER, DISPATCH and L_DECIDE -/

theorem filterPasses_eq_false_iff {s : State} {pf : ParsedFrame} {p : Path} :
    filterPasses s pf p = false ↔ s.params.filterOn p = true ∧ pf.deviceID ≠ s.localId := by
  simp [filterPasses]

/-- A listener ends its turn on a candidate that its validation rejects (R222, R223). -/
theorem decideStep_of_rejected {p : Path} {c : List Byte} {s : State} (hreads : readsBeyond s.tick p c = false)
    (h : accepts s.tick p c = false) : decideStep p c s = .next (s.setCtl (.listener p) .idle) := by
  simp [decideStep, hreads, h]

/-- A candidate that the validation accepts goes on to L_ACT unless FILTER drops it (R201). -/
theorem decideStep_of_accepted {p : Path} {c : List Byte} {s : State} (hreads : readsBeyond s.tick p c = false)
    (h : accepts s.tick p c = true) : decideStep p c s = .next (s.setCtl (.listener p)
      (if s.params.filterOn p = true ∧ (parseFrame s.tick c).deviceID ≠ s.localId then .idle
        else .act (.cmd (parseFrame s.tick c)))) := by
  simp only [decideStep, hreads, draw_false, h, Bool.true_and, ← filterPasses_eq_false_iff]
  cases filterPasses s (parseFrame s.tick c) p <;> rfl

theorem accepts_of_decode {x rest : List Byte} {i : Instr} (h : decode x = .ok (i, rest)) (k : Nat) (p : Path) :
    accepts k p x = true := by
  obtain ⟨-, -, hserial, -, hnet⟩ := decode_parse h k
  cases p with
  | net => exact hnet
  | serial t => exact hserial

/-- What the decoder rejects the validation rejects; of a serial candidate READ_LINE has fixed the size and byte 0 (R92). -/
theorem rejects_of_decode {x : List Byte} {e : DecodeError} {n : Nat} {p : Path} (h : decode x = .error e)
    (hc : ∀ t, p = .serial t → candidateOk x n = true ∧ x[0]? = some 62#8) (k : Nat) : accepts k p x = false := by
  cases p with
  | net => exact decode_err_net h
  | serial t =>
    obtain ⟨hsize, hsof⟩ := hc t rfl
    exact decode_err_serial hsize hsof h k

/-- The validation reads no byte that a candidate of READ_LINE lacks (log 15). -/
theorem readsBeyond_eq_false {x : List Byte} {n : Nat} {p : Path} (hc : ∀ t, p = .serial t → candidateOk x n = true)
    (k : Nat) : readsBeyond k p x = false := by
  cases p with
  | net => rfl
  | serial t => exact decide_eq_false (Nat.not_lt.2 (candidate_reads (hc t rfl) k))

/-- Settles O48: the validation accepts exactly what the decoder reads, and PARSE has the fields of the decoded row. -/
theorem decideSelectsTheDecodedCommand : Obligations.DecideSelectsTheDecodedCommand := by
  unfold Obligations.DecideSelectsTheDecodedCommand
  intro p x n s hctl hcand
  have hreads := readsBeyond_eq_false (fun t ht => (hcand t ht).1) s.tick
  rw [taskStep_candidate hctl]
  refine ⟨fun i rest hdec => ?_, fun e hdec => decideStep_of_rejected hreads (rejects_of_decode hdec hcand s.tick)⟩
  obtain ⟨hi, hid, -⟩ := decode_parse hdec s.tick
  exact ⟨_, hi, hid, decideStep_of_accepted hreads (accepts_of_decode hdec s.tick p)⟩

/-- Settles O13: `filterPasses_eq_false_iff`, and the default of each path. -/
theorem filterDropsForeignFrames : Obligations.FilterDropsForeignFrames := by
  unfold Obligations.FilterDropsForeignFrames
  refine ⟨fun pf p s => ⟨filterPasses s pf p, rfl, filterPasses_eq_false_iff⟩, fun p => ?_⟩
  rcases p with _ | ⟨_ | _ | _⟩ <;> rfl

/-- Settles O14: `route` by the list that holds the channel. -/
theorem dispatchSelectsByChannel : Obligations.DispatchSelectsByChannel := by
  unfold Obligations.DispatchSelectsByChannel
  intro pf s n
  refine ⟨route pf, rfl, fun hlo hhi => route_wSys ?_, fun hlo hhi => route_wGpio ?_, fun hlo hhi => route_wRelay ?_,
    fun hlo hhi => route_wRs232 ?_, fun hlo hhi => route_wIr ?_, fun h => route_wRs485 (BitVec.eq_of_toNat_eq h),
    fun h => route_wIgnore (channelUnassigned_iff.2 h)⟩ <;> exact channelIn_iff.2 ⟨hlo, hhi⟩

/-! ### The frame commands -/

/-- Settles O15: each of these rows is `commandDone`, which is the move of the current task. -/
theorem ignoredFramesHaveNoEffect : Obligations.IgnoredFramesHaveNoEffect := by
  unfold Obligations.IgnoredFramesHaveNoEffect
  exact fun _ _ _ _ _ => ⟨rfl, rfl, rfl, rfl, rfl⟩

/-- The status channel of a command's index k is the command's own channel (spec/30_encoding.md R99 item (e)). -/
theorem statusChannel_channelIndex {offset : Nat} {ch : Byte} (h : offset ≤ ch.toNat) :
    statusChannel offset (channelIndex offset ch) = ch := by
  rw [statusChannel, channelIndex, Nat.add_sub_cancel' h, BitVec.ofNat_toNat, BitVec.setWidth_eq]

section WRelay
variable {id ch v : Byte} {p : List Byte} {s : State}

theorem exec_wRelay_nil : exec (.wRelay id ch []) s = .next (commandDone s) := rfl

theorem exec_wRelay_of_unfitted (h : s.params.numRelays < channelIndex relayOffset ch) :
    exec (.wRelay id ch p) s = .next (commandDone s) := by
  cases p with
  | nil => rfl
  | cons v more => exact if_pos h

theorem exec_wRelay_of_fitted (h : channelIndex relayOffset ch ≤ s.params.numRelays) : exec (.wRelay id ch (v :: p)) s =
    .next ((s.setRelay (channelIndex relayOffset ch) v).setCtl s.cur
      (.act (.fNet (statusChannel relayOffset (channelIndex relayOffset ch)) v))) :=
  if_neg (Nat.not_lt.2 h)

end WRelay

/-- Settles O16: W.RELAY by its operand and by whether the relay is fitted; the relay file after it is that of `relay_set`. -/
theorem relayWriteSetsOneRelay : Obligations.RelayWriteSetsOneRelay := by
  unfold Obligations.RelayWriteSetsOneRelay
  refine fun id ch s hlo hhi => ⟨fun v more hfit => ⟨(s.setRelay (ch.toNat - 20) v).relays, ?_, fun k hk hk9 => ?_⟩,
    exec_wRelay_nil, fun p => exec_wRelay_of_unfitted⟩
  · have hch : statusChannel relayOffset (channelIndex relayOffset ch) = ch :=
      statusChannel_channelIndex (Nat.le_of_succ_le hlo)
    rw [exec_wRelay_of_fitted hfit, hch]
    rfl
  · exact relay_set s (ch.toNat - 20) k v (by omega) (by omega) hk hk9

/-- Settles O18: W.IR by its operand. -/
theorem irTriggerEmitsOneEvent : Obligations.IrTriggerEmitsOneEvent := by
  unfold Obligations.IrTriggerEmitsOneEvent
  exact fun _ _ _ _ _ => ⟨fun _ _ => rfl, rfl⟩

/-! ### The locks -/

section Acquire
variable {p : Port} {a b : TaskId}

/-- A free lock is taken (spec/20_memory.md R75). -/
theorem Port.acquire_of_free (h : p.txLock = .free) : p.acquire a = some { p with txLock := .held a } := by
  simp [Port.acquire, h]

theorem Port.acquire_of_held (h : p.txLock = .held b) : p.acquire a = none := by
  simp [Port.acquire, h]

end Acquire

section WRs232
variable {id ch : Byte} {u : Transport} {p : List Byte} {s : State}

/-- W.RS232 takes the lock of the port its channel names (R208). -/
theorem exec_wRs232_of_free (hu : rs232Port (channelIndex rs232Offset ch) = some u) (h : (s.port u).txLock = .free) :
    exec (.wRs232 id ch p) s = .next ((s.setPort u { s.port u with txLock := .held s.cur }).setCtl s.cur
      (.act (.fwd u .send p))) := by
  change execWRs232 id ch p s = _
  unfold execWRs232
  rw [hu]
  simp only [Port.acquire_of_free h]

theorem exec_wRs232_of_held {a : TaskId} (hu : rs232Port (channelIndex rs232Offset ch) = some u)
    (h : (s.port u).txLock = .held a) : exec (.wRs232 id ch p) s = .next s := by
  change execWRs232 id ch p s = _
  unfold execWRs232
  rw [hu]
  simp only [Port.acquire_of_held h, noStep]

theorem exec_wRs232_of_no_port (hu : rs232Port (channelIndex rs232Offset ch) = none) :
    exec (.wRs232 id ch p) s = .next (commandDone s) := by
  change execWRs232 id ch p s = _
  unfold execWRs232
  rw [hu]

end WRs232

/-- Channels 33 to 39 name no RS-232 port (R208). -/
theorem rs232Port_eq_none {k : Nat} (h : 3 ≤ k) : rs232Port k = none := by
  rw [rs232Port, if_neg (by omega), if_neg (by omega)]

/-- Settles O17: W.RS232 by its port and its lock, and what the task does under the lock by `taskStep_fwd`. -/
theorem rs232ForwardIsALockedSend : Obligations.Rs232ForwardIsALockedSend := by
  unfold Obligations.Rs232ForwardIsALockedSend
  refine ⟨fun id ch u p s hport => ?_, fun id ch p s hlo hhi => ?_, fun a u p s => ⟨fun hctl hsend => ?_,
    fun r hctl hsend => ?_, fun hctl => taskStep_fwd hctl⟩⟩
  · have hu : rs232Port (channelIndex rs232Offset ch) = some u := by
      rcases hport with ⟨rfl, rfl⟩ | ⟨rfl, rfl⟩ <;> rfl
    exact ⟨exec_wRs232_of_free hu, fun a => exec_wRs232_of_held hu⟩
  · exact exec_wRs232_of_no_port (rs232Port_eq_none (Nat.le_sub_of_add_le hlo))
  · rw [taskStep_fwd hctl, forwardStep_send_none hsend]
  · rw [taskStep_fwd hctl, forwardStep_send_some hsend]

/-! ### The bracket of RS485_TX -/

section Bus
variable {a : TaskId} {k : TxKind} {b : List Byte} {m : Nat} {s : State}

/-- X_LOCK (R213). -/
theorem busLock_of_free (h : (s.port .rs485).txLock = .free) : busLock a k b m s =
    .next ((s.setPort .rs485 { s.port .rs485 with txLock := .held a }).setCtl a (.act (.bus .deOn k b m))) := by
  simp only [busLock, Port.acquire_of_free h]

theorem busLock_of_held {c : TaskId} (h : (s.port .rs485).txLock = .held c) : busLock a k b m s = .next s := by
  simp only [busLock, Port.acquire_of_held h, noStep]

/-- RS485_TX inside the bracket of its own operands is the step the bracket is about to take. -/
theorem exec_rs485Tx_of_bus {ph : BusPhase} (h : s.ctl s.cur = .act (.bus ph k b m)) :
    exec (.rs485Tx k b m) s = busStep s.cur ph k b m s := by
  simp [exec, execRs485Tx, h]

/-- RS485_TX by a task outside every bracket begins at X_LOCK (log 30). -/
theorem exec_rs485Tx_of_outside (h : ∀ ph k' b' m', s.ctl s.cur ≠ .act (.bus ph k' b' m')) :
    exec (.rs485Tx k b m) s = busLock s.cur k b m s := by
  rw [exec, execRs485Tx]
  split
  next hctl => exact absurd hctl (h _ _ _ _)
  next => rfl

/-- X_SEND of a frame before its send has a record: SEND_LINE. -/
theorem busSend_frame_of_none (h : (s.port .rs485).send = none) :
    busSend .frame b m s = exec (.sendLine .rs485 b m) s := by
  simp only [busSend, h, exec]

/-- X_SEND of raw bytes before its send has a record: SEND_RAW. -/
theorem busSend_raw_of_none (h : (s.port .rs485).send = none) : busSend .raw b m s = exec (.sendRaw .rs485 b m) s := by
  simp only [busSend, h, exec]

/-- X_SEND while its send is in progress: the row of the send's phase (spec/40_ring_transport.md R121). -/
theorem busSend_of_some {r : SendRec} (h : (s.port .rs485).send = some r) :
    busSend k b m s = exec (sendRow .rs485 r.phase) s := by
  simp only [busSend, h, exec_sendRow]

end Bus

/-- Settles O19: W.RS485 is X_LOCK of the bracket of its payload. -/
theorem rs485ForwardEntersTheBracket : Obligations.Rs485ForwardEntersTheBracket := by
  unfold Obligations.Rs485ForwardEntersTheBracket
  exact fun _ _ _ => ⟨busLock_of_free, fun _ => busLock_of_held⟩

/-- Settles O20: RS485_TX runs `busStep` of the task's place in the bracket, or X_LOCK from outside. -/
theorem bracketStepsInOrder : Obligations.BracketStepsInOrder := by
  unfold Obligations.BracketStepsInOrder
  intro k b m s
  refine ⟨fun hentry => ?_, exec_rs485Tx_of_bus, exec_rs485Tx_of_bus, fun hctl hsend => ?_, fun r hctl hsend => ?_,
    exec_rs485Tx_of_bus, exec_rs485Tx_of_bus, exec_rs485Tx_of_bus⟩
  · have hlock : exec (.rs485Tx k b m) s = busLock s.cur k b m s := hentry.elim exec_rs485Tx_of_outside exec_rs485Tx_of_bus
    rw [hlock]
    exact ⟨fun a => busLock_of_held, busLock_of_free⟩
  · rw [exec_rs485Tx_of_bus hctl]
    cases k with
    | frame => exact busSend_frame_of_none hsend
    | raw => exact busSend_raw_of_none hsend
  · exact (exec_rs485Tx_of_bus hctl).trans (busSend_of_some hsend)

/-! ### Status frames -/

/-- Settles O22: `status_frame`. -/
theorem statusFrameBytes : Obligations.StatusFrameBytes := by
  unfold Obligations.StatusFrameBytes
  intro ch v s
  rw [← status_frame]
  rfl

/-- Settles O23: F_NET sends the frame of `status_frame` and hands the same frame on. -/
theorem fanoutGoesToBothMedia : Obligations.FanoutGoesToBothMedia := by
  unfold Obligations.FanoutGoesToBothMedia
  intro ch v s
  rw [← status_frame]
  rfl

/-- A waiting GPIO_SRC takes an event of the port with F_NET of its fan-out (R217; log 11). -/
theorem exec_gpioEvt_of_recv {g : Nat} {v : Byte} {s : State} (h1 : 1 ≤ g) (h9 : g ≤ 9) (h : s.ctl .gpio = .recv) :
    exec (.gpioEvt g v) s = .next (fanoutNet .gpio (statusChannel gpioOffset g) v s) :=
  (if_pos ⟨h1, h9⟩).trans (if_pos h)

theorem exec_gpioEvt_of_no_event {g : Nat} {v : Byte} {s : State} (h : ¬ (1 ≤ g ∧ g ≤ 9)) :
    exec (.gpioEvt g v) s = .refused .noSuchGpioEvent := if_neg h

/-- Settles O24: by whether `g` is an event of the port. -/
theorem gpioEventIsFannedOut : Obligations.GpioEventIsFannedOut := by
  unfold Obligations.GpioEventIsFannedOut
  exact fun g v s => ⟨fun h1 h9 hctl => ⟨statusFrame s.localId (statusChannel gpioOffset g) v, status_frame ..,
    exec_gpioEvt_of_recv h1 h9 hctl⟩, fun hg => exec_gpioEvt_of_no_event (by omega)⟩

/-! ### Datagrams -/

/-- Settles O25: a whole datagram is its own operand, and uses no free value (log 15). -/
theorem datagramReachesTheListener : Obligations.DatagramReachesTheListener := by
  unfold Obligations.DatagramReachesTheListener
  refine fun d s => ⟨fun hctl => (if_pos hctl).trans ?_, fun hctl => if_neg hctl⟩
  rw [draw_of_not s (Nat.lt_irrefl _), operandBytes_of_length rfl]

end Sys2Proof.Machine
end

section
/-!
The exceptions (spec/60_exceptions.md): when a handler has no step (R246), the listeners that yield to the handlers (R240), and the
uses that stop the model (R243).
-/

namespace Sys2Proof.Machine

/-! ### Handlers without a step -/

/-- IRQ_TX needs its cause and neither mask claim (R246). -/
theorem Port.irqTxEnabled_eq_false_iff {p : Port} :
    p.irqTxEnabled = false ↔ p.threPend = false ∨ p.maskTx = true ∨ p.maskRx = true := by
  simp only [Port.irqTxEnabled, Port.masked, Bool.and_eq_false_iff, Bool.not_eq_false', Bool.or_eq_true]

/-- IRQ_RX needs a received byte and neither mask claim (R246). -/
theorem Port.irqRxEnabled_eq_false_iff {p : Port} :
    p.irqRxEnabled = false ↔ p.rxHw = [] ∨ p.maskTx = true ∨ p.maskRx = true := by
  simp only [Port.irqRxEnabled, Port.rxAvail, Port.masked, Bool.and_eq_false_iff, Bool.not_eq_false', Bool.or_eq_true,
    decide_eq_false_iff_not, List.length_pos_iff, not_not]

section Disabled
variable {t : Transport} {s : State}

theorem exec_irqTx_of_disabled (h : (s.port t).irqTxEnabled = false) : exec (.irqTx t) s = .next s := by
  simp [exec, execIrqTx, takeInterrupt, noStep, h]

/-- In either RX mode (spec/40_ring_transport.md R131). -/
theorem exec_irqRx_of_disabled (h : (s.port t).irqRxEnabled = false) :
    exec (.irqRxMailbox t) s = .next s ∧ exec (.irqRxRing t) s = .next s := by
  constructor
  · simp [exec, execIrqRxMailbox, takeInterrupt, noStep, h]
  · simp [exec, execIrqRxRing, takeInterrupt, noStep, h]

end Disabled

/-- Settles O35: a source without its cause or under a mask claim has no enabled handler (R246), so its step is `noStep`. -/
theorem disabledHandlersDoNotStep : Obligations.DisabledHandlersDoNotStep := by
  unfold Obligations.DisabledHandlersDoNotStep
  exact fun t s => ⟨fun h => exec_irqTx_of_disabled (Port.irqTxEnabled_eq_false_iff.2 h),
    fun h => exec_irqRx_of_disabled (Port.irqRxEnabled_eq_false_iff.2 h)⟩

/-! ### Listeners under an enabled handler -/

/-- One unmasked source with a cause enables a handler of the block (R246). -/
theorem State.handlerEnabled_of_cause {t : Transport} {s : State} (htx : (s.port t).maskTx = false)
    (hrx : (s.port t).maskRx = false) (hcause : (s.port t).threPend = true ∨ (s.port t).rxHw ≠ []) :
    s.handlerEnabled = true := by
  rw [← Bool.not_eq_false, State.handlerEnabled_eq_false_iff]
  intro hall
  obtain hmask | hmask | ⟨hthre, hempty⟩ := hall t
  · exact absurd (htx.symm.trans hmask) nofun
  · exact absurd (hrx.symm.trans hmask) nofun
  · exact hcause.elim (fun h => absurd (hthre.symm.trans h) nofun) (absurd hempty)

/-- A chosen listener has no step while a handler is enabled (R240; log 3). -/
theorem choiceStep_listener_of_handlerEnabled {p : Path} {s : State} (h : s.handlerEnabled = true) :
    choiceStep (.task (.listener p)) s = .next s := if_pos h

/-- Settles O49: the handler is still enabled once the choice is taken, and holds the listener back. -/
theorem listenersYieldToHandlers : Obligations.ListenersYieldToHandlers := by
  unfold Obligations.ListenersYieldToHandlers
  intro t p s hboot hchosen htx hrx hcause
  rw [step_running hboot, hchosen]
  apply choiceStep_listener_of_handlerEnabled
  rw [afterChoice_handlerEnabled]
  exact State.handlerEnabled_of_cause htx hrx hcause

/-! ### Uses that stop the model -/

@[simp] theorem onPort_error (s : State) (t : Transport) (f : Fault) : s.onPort t (.error f) = .fault f := rfl

section Claims
variable {c : Params} {p : Port} {r : SendRec}

/-- S_LOOP without the sender's claim, whether or not a byte is left to send (log 16). -/
theorem Port.sLoop_of_unmasked (hmask : p.maskTx = false) : p.sLoop c r = .error .contractViolation := by
  simp [Port.sLoop, hmask]

theorem Port.sKick_of_unmasked (hmask : p.maskTx = false) : p.sKick c r = .error .contractViolation := by
  simp [Port.sKick, hmask]

theorem Port.rTake_of_unmasked (hmask : p.maskRx = false) : p.rTake c = .error .contractViolation := by
  simp [Port.rTake, hmask]

theorem Ring.deq_of_empty {m : Nat} {r : Ring} (h : r.inIdx = r.outIdx) : r.deq m = .error .contractViolation := by
  simp [Ring.deq, Ring.isEmpty, h]

/-- R_TAKE from an empty RX ring, with or without the reader's claim: the fault has the same name. -/
theorem Port.rTake_of_empty (hmode : c.rxMode = .ring) (hempty : p.rxRing.inIdx = p.rxRing.outIdx) :
    p.rTake c = .error .contractViolation := by
  simp [Port.rTake, Port.takeByte, hmode, Ring.deq_of_empty hempty]

end Claims

section Faults
variable {t : Transport} {s : State}

theorem readStep_take_fault {f : Fault} (h : (s.port t).rTake s.params = .error f) : readStep t .take s = .fault f := by
  simp only [readStep, h]

/-- SEND_LINE whose operand has a length byte that no frame has, or one that disagrees with the declared size (R122). -/
theorem exec_sendLine_of_mismatch {frame : List Byte} {n : Nat} {l : Byte} (h4 : frame[4]? = some l)
    (h : 249 < l.toNat ∨ n ≠ l.toNat + 6) : exec (.sendLine t frame n) s = .fault .sendLengthMismatch := by
  refine exec_sendLine_of_not_ok ?_
  rw [Bool.eq_false_iff, Ne, sendLineOk_iff (operandBytes_length ..)]
  rintro ⟨l', h4', hle, hn⟩
  have hbyte : l' = l := by
    rw [operandBytes_getElem? (by omega), byteAt_of_getElem? h4] at h4'
    exact (Option.some.inj h4').symm
  subst hbyte
  omega

theorem exec_sendRaw_of_gt {bytes : List Byte} {m : Nat} (h : 249 < m) :
    exec (.sendRaw t bytes m) s = .fault .sendLengthMismatch := if_neg (Nat.not_le.2 h)

theorem exec_baudLoad_of_running (h : s.boot = .running) : exec (.baudLoad t) s = .fault .configAfterStart := if_pos h

end Faults

/-- Settles O38: S_LOOP, S_KICK and R_TAKE by the claim they lack or the empty ring, the sends by their lengths, BAUD_LOAD in
a started block. -/
theorem misuseIsAFault : Obligations.MisuseIsAFault := by
  unfold Obligations.MisuseIsAFault
  refine fun t s => ⟨fun r hr hmask => ⟨fun hph => ?_, fun hph => ?_⟩, fun hctl hmisuse => ?_,
    fun _ _ _ => exec_sendLine_of_mismatch, fun _ _ => exec_sendRaw_of_gt, exec_baudLoad_of_running⟩
  · rw [exec_sendSLoop hr hph, Port.sLoop_of_unmasked hmask, onPort_error]
  · rw [exec_sendSKick hr hph, Port.sKick_of_unmasked hmask, onPort_error]
  · have htake : (s.port t).rTake s.params = .error .contractViolation := by
      obtain hmask | ⟨hmode, hempty⟩ := hmisuse
      · exact Port.rTake_of_unmasked hmask
      · exact Port.rTake_of_empty hmode hempty
    rw [exec_readLine hctl, readStep_take_fault htake]

end Sys2Proof.Machine
end

section
/-!
Reset, the start and the hazards (spec/70_reset_and_hazards.md): the start sequence (R271), the hang and the stalled transport (R284),
and the quiescent state (R296).
-/

namespace Sys2Proof.Machine

/-! ### The start sequence -/

section Start
variable {s : State}

theorem step_readCfg (h : s.boot = .readCfg) : step s = .next { readCfg s with boot := .baudLoad .rs485 } := by
  simp only [step, machineStep, h]

theorem step_baudLoad {t : Transport} (h : s.boot = .baudLoad t) : step s =
    .next { s.setPort t { s.port t with baudDiv := baudDivisor s.params (s.baudOf t) } with boot := afterBaud t } := by
  have hboot : s.boot ≠ .running := by simp [h]
  simp only [step, machineStep, h, bootBaud_next hboot]

theorem step_startTasks (h : s.boot = .startTasks) : step s = .next (startTasks s) := by
  simp only [step, machineStep, h]

/-- A run of the block goes on from the next state. -/
theorem run_succ {s' : State} (k : Nat) (h : step s = .next s') :
    Host.Core.run core (k + 1) s = Host.Core.run core k s' := by
  have hcore : core.step s = .next s' := h
  simp only [Host.Core.run, hcore]

/-- The state after the start sequence (R271): the items the configuration gives, the three divisors computed from them, and the
listeners at their first labels. -/
def State.afterStart (s : State) : State :=
  { readCfg s with
    boot := .running
    port485 := { s.port485 with baudDiv := baudDivisor s.params (readCfg s).baud485 }
    port232_1 := { s.port232_1 with baudDiv := baudDivisor s.params (readCfg s).baud232 }
    port232_2 := { s.port232_2 with baudDiv := baudDivisor s.params (readCfg s).baud232 }
    ctl485 := .read .enter
    ctl232_1 := .read .enter
    ctl232_2 := .read .enter
    ctlNet := .recv }

/-- The five steps of the start sequence (log 9). -/
theorem run_start (h : s.boot = .readCfg) : Host.Core.run core 5 s = .next s.afterStart := by
  rw [run_succ 4 (step_readCfg h), run_succ 3 (step_baudLoad rfl), run_succ 2 (step_baudLoad rfl),
    run_succ 1 (step_baudLoad rfl), run_succ 0 (step_startTasks rfl)]
  rfl

end Start

/-- Settles O45: `run_start`, and the reset state by its fields. -/
theorem startSequence : Obligations.StartSequence := by
  unfold Obligations.StartSequence
  refine ⟨fun s hboot _ => run_start hboot, fun s hboot _ hid h485 h232 => ?_, fun c => ?_⟩
  · rw [← hid, ← h485, ← h232]
    exact ⟨s.afterStart, run_start hboot, rfl, rfl, rfl, rfl⟩
  · exact ⟨rfl, rfl, ctl_resetWith c .gpio, rfl, rfl, rfl⟩

/-! ### The hang and the stalled transport -/

/-- R284's hang as a shape of the transport: the send blocked on a full ring, the transmitter idle, no cause pending. -/
structure Port.Hung (c : Params) (p : Port) : Prop where
  full : p.txRing.isFull c.n = true
  idleTx : p.txHw = []
  noCause : p.threPend = false
  blocked : ∃ r, p.send = some r ∧ r.i < r.n ∧ r.phase ≠ .sKick ∧ r.phase ≠ .sExit

/-- The hang of the block (`Hung`) is the hang of the transport in a started block. -/
theorem hung_iff {t : Transport} {s : State} : Hung t s ↔ s.boot = .running ∧ (s.port t).Hung s.params :=
  ⟨fun ⟨hboot, hfull, hidle, hno, hsend⟩ => ⟨hboot, hfull, hidle, hno, hsend⟩,
    fun ⟨hboot, hfull, hidle, hno, hsend⟩ => ⟨hboot, hfull, hidle, hno, hsend⟩⟩

/-- The hang speaks of four fields. -/
theorem Port.Hung.congr {c : Params} {p q : Port} (h : p.Hung c) (hring : q.txRing = p.txRing) (hhw : q.txHw = p.txHw)
    (hpend : q.threPend = p.threPend) (hsend : q.send = p.send) : q.Hung c :=
  ⟨hring ▸ h.full, hhw ▸ h.idleTx, hpend ▸ h.noCause, hsend ▸ h.blocked⟩

/-- The send of a hung transport is at none of the phases after its loop. -/
theorem Port.Hung.of_send {c : Params} {p : Port} {r : SendRec} (h : p.Hung c) (hr : p.send = some r) :
    r.i < r.n ∧ r.phase ≠ .sKick ∧ r.phase ≠ .sExit := by
  obtain ⟨r', hr', hblocked⟩ := h.blocked
  rwa [Option.some.inj (hr.symm.trans hr')]

/-- Every step of a hung transport whose lock is held leaves it hung, as the send only goes round S_LOOP, S_WAIT and S_REMASK (R284);
the lock it leaves to its holder, or frees. -/
theorem portStep_hung {c d x st t o p q} (hc : c.wf) (hok : p.Ok c) (hp : p.Hung c) (hheld : p.txLock ≠ .free)
    (h : PortStep c d x st t o p q) : q.Hung c ∧ (q.txLock = p.txLock ∨ q.txLock = .free) := by
  have goes_round : ∀ {r : SendRec} {ph : SendPhase} {n : Nat} {m : Bool}, p.send = some r → ph ≠ .sKick → ph ≠ .sExit →
      Port.Hung c { p with room := n, maskTx := m, send := some { r with phase := ph } } := fun hr hkick hexit =>
    ⟨hp.full, hp.idleTx, hp.noCause, _, rfl, (hp.of_send hr).1, hkick, hexit⟩
  cases h with
  | acquire a h => exact absurd h hheld
  | free => exact ⟨hp.congr rfl rfl rfl rfl, .inr rfl⟩
  | uartTx b rest ho hb => exact absurd (hp.idleTx.symm.trans hb) nofun
  | irqTx q ho he e => exact absurd he (by simp [Port.irqTxEnabled, hp.noCause])
  | stage q bs n hcan e =>
    obtain ⟨r, hr, -⟩ := hp.blocked
    exact absurd (hr.symm.trans (Port.canStage_iff.1 hcan).2) nofun
  | sLoop q r hr hph e =>
    rcases Port.sLoop_spec hc hok hr hph with ⟨hi, -⟩ | ⟨-, -, e', -⟩ | ⟨-, hroom, -⟩
    · exact absurd hi (Nat.ne_of_lt (hp.of_send hr).1)
    · obtain rfl := Except.ok.inj (e.symm.trans e')
      exact ⟨goes_round hr nofun nofun, .inl rfl⟩
    · exact absurd (hp.full.symm.trans hroom) nofun
  | sWait r hr hph => exact ⟨goes_round hr nofun nofun, .inl rfl⟩
  | sRemask r hr hph => exact ⟨goes_round hr nofun nofun, .inl rfl⟩
  | sKick q r hr hph e => exact absurd hph (hp.of_send hr).2.1
  | sExit r hr hph => exact absurd hph (hp.of_send hr).2.2
  | ring q ho h m e =>
    obtain ⟨_, _, _, rfl⟩ := rxToRing_form _ e
    exact ⟨hp.congr rfl rfl rfl rfl, .inl rfl⟩
  | mailbox =>
    rw [Port.rxToMailbox_spec]
    exact ⟨hp.congr rfl rfl rfl rfl, .inl rfl⟩
  | fsm q b e =>
    obtain ⟨_, _, _, _, rfl⟩ := fsm_form e
    exact ⟨hp.congr rfl rfl rfl rfl, .inl rfl⟩
  | rTake q ho h e =>
    obtain ⟨_, _, _, _, _, rfl⟩ := rTake_form e
    exact ⟨hp.congr rfl rfl rfl rfl, .inl rfl⟩
  | _ => exact ⟨hp.congr rfl rfl rfl rfl, .inl rfl⟩

/-- The caller of a send in progress holds the lock (spec/40_ring_transport.md R140). -/
theorem State.Inv.txLock_of_send {s : State} (h : s.Inv) {t : Transport} (hsend : (s.port t).send ≠ none) :
    (s.port t).txLock ≠ .free := by
  obtain ⟨a, ha⟩ := h.sender t hsend
  rw [(h.lock t a).2 (Ctl.sendsOn_holds ha)]
  nofun

theorem Hung.txLock_ne_free {t : Transport} {s : State} (h : Hung t s) (hinv : s.Inv) : (s.port t).txLock ≠ .free := by
  obtain ⟨r, hr, -⟩ := h.blocked
  exact hinv.txLock_of_send (by rw [hr]; nofun)

theorem State.Inv.of_step {s s' : State} (h : s.Inv) (hs : step s = .next s') : s'.Inv := by
  obtain ⟨s1, hs1, hinv⟩ := keeps_step h
  rwa [Host.Outcome.next.inj (hs.symm.trans hs1)]

/-- A hung transport stays hung, and its lock keeps its holder: the invariant has a lock held before and after the step (R284). -/
theorem Hung.of_step {t : Transport} {s s' : State} (h : Hung t s) (hinv : s.Inv) (hs : step s = .next s') :
    Hung t s' ∧ (s'.port t).txLock = (s.port t).txLock ∧ (s'.port t).txLock ≠ .free := by
  obtain ⟨hboot, hp⟩ := hung_iff.1 h
  obtain ⟨o, hstep, -⟩ := portStep_of_step hs t
  obtain ⟨hp', hlock⟩ := portStep_hung hinv.params (hinv.ports t) hp (h.txLock_ne_free hinv) hstep
  have h' : Hung t s' := hung_iff.2 ⟨step_boot_running hboot hs, by rwa [step_params hs]⟩
  have hheld := h'.txLock_ne_free (hinv.of_step hs)
  exact ⟨h', hlock.resolve_right hheld, hheld⟩

/-- A hung send never reaches its kick, as the ring stays full. -/
theorem Hung.stalled {t : Transport} {s : State} (h : Hung t s) : (s.port t).Stalled s.params := by
  obtain ⟨-, hfull, hidle, hno, r, hr, hi, hkick, hexit⟩ := h
  exact ⟨hidle, hno, .inr ⟨r, hr, .inr ⟨hi, hkick, hexit, .inr hfull⟩⟩⟩

/-- A send that found the ring non-empty does not kick (spec/40_ring_transport.md R126; log 28). -/
theorem KickLost.stalled {t : Transport} {s : State} (h : KickLost t s) : (s.port t).Stalled s.params := by
  obtain ⟨hidle, hno, -, r, hr, hph, hwe, hi⟩ := h
  exact ⟨hidle, hno, .inr ⟨r, hr, .inr ⟨hi, by simp [hph], by simp [hph], .inl hwe⟩⟩⟩

theorem stalled_of_step {t : Transport} {s s' : State} (hinv : s.Inv) (h : (s.port t).Stalled s.params)
    (hs : step s = .next s') : (s'.port t).Stalled s'.params ∧ (s'.port t).txLine = (s.port t).txLine := by
  obtain ⟨o, hstep, -⟩ := portStep_of_step hs t
  rw [step_params hs]
  exact portStep_stalled hinv.params (hinv.ports t) h hstep

/-- Settles O58: the hang by `portStep_hung` and the invariant of the lock before and after the step, a stalled transport by
`portStep_stalled`, of which the hang and the lost kick are two cases. -/
theorem hangPersists : Obligations.HangPersists := by
  unfold Obligations.HangPersists
  refine ⟨fun t s s' hinv h hs => ?_, fun t s s' => stalled_of_step, fun t s h => h.elim Hung.stalled KickLost.stalled⟩
  obtain ⟨h', hlock, hheld⟩ := h.of_step hinv hs
  exact ⟨h', hlock, hheld, (stalled_of_step hinv h.stalled hs).2⟩

/-! ### The quiescent state -/

/-- Rest does not depend on the schedule, the counter of free choices or the current task. -/
theorem State.AtRest.of_aux {s : State} (h : s.AtRest) (l : List Choice) (n : Nat) (a : TaskId) :
    ({ s with sched := l, tick := n, cur := a } : State).AtRest where
  ports := fun t => by
    rw [port_upd]
    exact h.ports t
  de := h.de
  serial := fun t => by
    rw [ctl_upd]
    exact h.serial t
  net := h.net

section AtRest
variable {s : State}

/-- No source is asserted (spec/60_exceptions.md R244). -/
theorem State.AtRest.no_cause (h : s.AtRest) (t : Transport) : (s.port t).threPend = false ∧ (s.port t).rxHw = [] := by
  obtain ⟨hrx, -, -, -, -, hno, -, -⟩ := h.ports t
  exact ⟨(Bool.or_eq_false_iff.1 hno).1, hrx⟩

theorem State.AtRest.handlerEnabled_eq_false (h : s.AtRest) : s.handlerEnabled = false :=
  s.handlerEnabled_eq_false_iff.2 fun t => .inr (.inr (h.no_cause t))

theorem exec_uartTx_of_atRest (h : s.AtRest) (t : Transport) : exec (.uartTx t) s = .next s := by
  obtain ⟨-, htx, -⟩ := h.ports t
  exact exec_uartTx_of_nil htx

theorem exec_irqTx_of_atRest (h : s.AtRest) (t : Transport) : exec (.irqTx t) s = .next s :=
  exec_irqTx_of_disabled (Port.irqTxEnabled_eq_false_iff.2 (.inl (h.no_cause t).1))

/-- In either RX mode (spec/40_ring_transport.md R131). -/
theorem exec_irqRx_of_atRest (h : s.AtRest) (t : Transport) : exec (irqRxInstr s.params t) s = .next s := by
  obtain ⟨hmailbox, hring⟩ := exec_irqRx_of_disabled (Port.irqRxEnabled_eq_false_iff.2 (.inl (h.no_cause t).2))
  cases hmode : s.params.rxMode with
  | mailbox => rw [irqRxInstr_mailbox hmode, hmailbox]
  | ring => rw [irqRxInstr_ring hmode, hring]

/-- A listener is blocked in R_WAIT, or at N_RECV; GPIO_SRC waits for an event (spec/43_dispatch.md R217, R222, R223). -/
theorem taskStep_of_atRest (h : s.AtRest) (hgpio : s.ctl .gpio = .recv) (a : TaskId) : taskStep a s = .next s := by
  rcases a with ⟨_ | t⟩ | _
  · exact taskStep_recv h.net
  · obtain ⟨-, -, -, -, hready, -⟩ := h.ports t
    rw [taskStep_read (h.serial t), exec_readLine (h.serial t), readStep_wait_of_zero hready]
  · exact taskStep_recv hgpio

theorem choiceStep_task_of_atRest (h : s.AtRest) (hgpio : s.ctl .gpio = .recv) (a : TaskId) :
    choiceStep (.task a) s = .next { s with cur := a } := by
  rw [choiceStep_task (heldBack_eq_false (.inr h.handlerEnabled_eq_false))]
  exact taskStep_of_atRest (h.of_aux s.sched s.tick a) ((ctl_with_cur s a .gpio).trans hgpio) a

/-- A task, a handler or a transmitter that is chosen at rest has no step (R296). -/
theorem choiceStep_of_atRest (h : s.AtRest) (hgpio : s.ctl .gpio = .recv) {w : Choice}
    (hw : w = .task .gpio ∨ (∃ p, w = .task (.listener p)) ∨ ∃ t, w = .uartTx t ∨ w = .irqTx t ∨ w = .irqRx t) :
    ∃ a, choiceStep w s = .next { s with cur := a } := by
  rcases hw with rfl | ⟨p, rfl⟩ | ⟨t, rfl | rfl | rfl⟩
  · exact ⟨_, choiceStep_task_of_atRest h hgpio _⟩
  · exact ⟨_, choiceStep_task_of_atRest h hgpio _⟩
  · exact ⟨s.cur, exec_uartTx_of_atRest h t⟩
  · exact ⟨s.cur, exec_irqTx_of_atRest h t⟩
  · exact ⟨s.cur, exec_irqRx_of_atRest h t⟩

end AtRest

@[simp] theorem afterChoice_ctl (s : State) (a : TaskId) : s.afterChoice.ctl a = s.ctl a := by
  obtain ⟨l, n, h⟩ := afterChoice_form s
  rw [h]
  exact ctl_upd s l n s.cur a

theorem State.AtRest.afterChoice {s : State} (h : s.AtRest) : s.afterChoice.AtRest := by
  obtain ⟨l, n, e⟩ := afterChoice_form s
  rw [e]
  exact h.of_aux l n s.cur

/-- Taking a choice adds none to the schedule (log 2). -/
theorem mem_sched_of_afterChoice {s : State} {w : Choice} (h : w ∈ s.afterChoice.sched) : w ∈ s.sched := by
  unfold State.afterChoice at h
  split at h
  next hs =>
    rw [hs]
    exact List.mem_cons_of_mem _ h
  next => exact h

/-- Settles O59: the chosen agent has no step (`choiceStep_of_atRest`), and what is left of the schedule brings no input that the
schedule did not. -/
theorem quiescentStateIsAtRest : Obligations.QuiescentStateIsAtRest := by
  unfold Obligations.QuiescentStateIsAtRest
  intro s h _ hboot hgpio hchosen
  obtain ⟨a, hstep⟩ := choiceStep_of_atRest h.afterChoice ((afterChoice_ctl s .gpio).trans hgpio) hchosen
  have hrest := h.afterChoice.of_aux s.afterChoice.sched s.afterChoice.tick a
  exact ⟨a, (step_running hboot).trans hstep, hrest,
    fun hq => ⟨hrest, fun w hw => hq.input w (mem_sched_of_afterChoice hw)⟩⟩

end Sys2Proof.Machine
end
